-- ==== Sys2Proof/Word.lean ====
section
/-! DEFINITION. The plain data types of the block: bytes, words, sparse memories, the latch
snapshot (format LS), and the formats in which the host's events arrive (format RW and the event
kinds, spec/30_encoding.md R91, R105). -/

namespace Sys2Proof

/-- A byte is 8 bits (R10). -/
abbrev Byte := BitVec 8

/-- A word is 16 bits (R10). -/
abbrev Word := BitVec 16

/-- A space of cells, held as the list of the cells that differ from what an unlisted index reads
as, by rising index. `Memory Byte` is a list of `Host.Cell`. -/
abbrev Memory (α : Type) := List (Nat × α)

/-- A two-dimensional space, by row and then by column: `OUT[y][p]`, `FB[y][x]`. -/
abbrev Grid (α : Type) := Memory (Memory α)

/-- Format LS (R92): the sixteen latch bytes, which is both the latch file `L` and one snapshot
`TL[s]`. -/
abbrev Latches := Vector Byte 16

/-- Sixteen zero latches. -/
def Latches.zero : Latches := Vector.replicate 16 0

/-- One fetched command `W[0..15]` (format BC, R93). -/
abbrev Command := Vector Word 16

/-- The byte order of a RAM word seen as bytes (parameter RAM_BYTE_ORDER, R9, R64). -/
inductive ByteOrder where
  | big
  | little
  deriving DecidableEq, Repr

/-- A colour: an RGB triple of 8-bit components (R30). -/
structure Rgb where
  red : Byte
  green : Byte
  blue : Byte
  deriving DecidableEq, Repr

/-- The host's write ports (R61). -/
inductive Port where
  | latch
  | pbank
  | cflip
  | cbank
  | gfxlist
  | flipscr
  | blitgo
  | ram
  deriving DecidableEq, Repr

/-- One event of the trace (R7): a port write in format RW, the tuple (port, operand, data, line)
of R91, or one of the event kinds of R105, which carry no port. -/
inductive Event where
  | write (port : Port) (operand data line : Nat)
  | frameStart
  | flush (t : Int)
  | snapshot (line : Nat)
  | frameEnd
  deriving DecidableEq, Repr

/-- The `MODE` word of a `.cmd` line (R110). -/
inductive Mode where
  | direct
  | tmap
  | tmapc
  deriving DecidableEq, Repr

/-- The named operands of a `.cmd MODE` line (R110): omitted operands are 0, except `zx` and `zy`,
which default to 0x100 (unit scale). -/
structure CmdArgs where
  code : Nat := 0
  x : Int := 0
  y : Int := 0
  w : Nat := 0
  h : Nat := 0
  zx : Nat := 0x100
  zy : Nat := 0x100
  bank : Nat := 0
  fx : Bool := false
  fy : Bool := false
  sx : Nat := 0
  sy : Nat := 0
  deriving DecidableEq, Repr

end Sys2Proof
end

