-- ==== Sys2Proof/Config.lean ====
section
/-! DEFINITION. What is fixed for one machine (spec/00_scope.md R9, spec/10_state.md R29 to R31,
R41): the sizes the source fixes as constants, the sizes it leaves open as the parameters of
`Params`, and the read-only tables as the contents of `Board`. One free value: the pixel of a place
that a background layer of fewer than 256 rows or columns does not have (log 35). -/

namespace Sys2Proof.Config

/-- SWEEP: counter steps and pixels per scanline (R9, origin doc). -/
def sweep : Nat := 384

/-- CMD_WORDS: words of one blit command (R9, origin doc). -/
def cmdWords : Nat := 16

/-- TILE: side of a tile (R9, origin doc). -/
def tile : Nat := 16

/-- CTILE: effective tile side in condensed mode (R9, origin doc). -/
def ctile : Nat := 8

/-- MAX_SIZEX: exclusive bound of the width guard (R9; non-authoritative, R273). -/
def maxSizeX : Nat := 512

/-- MAX_SIZEY: exclusive bound of the height guard (R9; non-authoritative, R273). -/
def maxSizeY : Nat := 256

/-- MAX_ZOOM: exclusive bound of both zoom guards (R9; non-authoritative, R273). -/
def maxZoom : Nat := 0x1F0

/-- FREE VALUE (log 35, DESIGN CHOICE): the pixel LAYER.FETCH gets at a row at or beyond BG_ROWS or a
column at or beyond BG_COLS. R29 ends the array there and R143 fetches all 8 bits of row and column
without reduction (D11), so the spec states no value. By R156 it depends on BG and the place alone:
`bgBeyond rows cols bg layer row column`. -/
opaque bgBeyond : Nat → Nat → Memory (BitVec 2) → Fin 4 → Byte → Byte → BitVec 2

end Sys2Proof.Config

namespace Sys2Proof

/-- The parameters of R9 whose value the source does not fix. "A model takes the parameter as a
configuration argument": every claim over all states is a claim over all parameters. -/
structure Params where
  /-- SCREEN_H: scanlines per frame. -/
  screenH : Nat
  /-- VIS_Y_MIN: first visible scanline. -/
  visYMin : Nat
  /-- VIS_Y_MAX: last visible scanline. -/
  visYMax : Nat
  /-- VIS_P0: first visible sweep position. -/
  visP0 : Nat
  /-- VIS_W: count of visible positions. -/
  visW : Nat
  /-- BG_ROWS: rows of one decoded background layer. -/
  bgRows : Nat
  /-- BG_COLS: columns of one decoded background layer. -/
  bgCols : Nat
  /-- PBANK_BITS: width of the palette-bank register. -/
  pbankBits : Nat
  /-- PIXEL_DEPTH: storage width of an output pixel; no rule depends on it. -/
  pixelDepth : Nat
  /-- RAM_WORDS: size of the blitter RAM in words. -/
  ramWords : Nat
  /-- FB_W: frame buffer width. -/
  fbW : Nat
  /-- FB_H: frame buffer height. -/
  fbH : Nat
  /-- TM_ROWS: tilemap rows. -/
  tmRows : Nat
  /-- TM_COLS: tilemap columns. -/
  tmCols : Nat
  /-- TM_BASE: word address of the tilemap. -/
  tmBase : Nat
  /-- N_TILES: a tile code is reduced modulo this. -/
  nTiles : Nat
  /-- TRANSPEN: the pen the blitter does not write, or none. -/
  transpen : Option (BitVec 4)
  /-- RAM_BYTE_ORDER: byte order of a RAM word seen as bytes. -/
  ramByteOrder : ByteOrder
  deriving DecidableEq, Repr

/-- The default column of R9's table (PRESUMED where the spec marks a default as recollection:
log 10). -/
def Params.default : Params where
  screenH := 256
  visYMin := 16
  visYMax := 239
  visP0 := 64
  visW := 320
  bgRows := 256
  bgCols := 256
  pbankBits := 4
  pixelDepth := 16
  ramWords := 0x8000
  fbW := 384
  fbH := 256
  tmRows := 32
  tmCols := 256
  tmBase := 0
  nTiles := 65536
  transpen := none
  ramByteOrder := .big

/-- PAL_SIZE: palette entries, 16 * 2^PBANK_BITS (R9). -/
def Params.palSize (p : Params) : Nat := 16 * 2 ^ p.pbankBits

/-- The conditions of R261 on the numbers of a configuration: tilemap dimensions are powers of two,
the tilemap lies inside RAM, the visible window inside the sweep and the visible lines inside the
frame. BG_ROWS and BG_COLS are open (R9, U24): R261's 256 by 256 are their defaults (log 36). The last
two conditions, that the pixel depth is one of the two of R9 and that codes are reduced by a positive
number (R11), are DEDUCED (log 28). -/
def Params.wf (p : Params) : Bool :=
  p.tmRows == 2 ^ p.tmRows.log2 && p.tmCols == 2 ^ p.tmCols.log2 &&
  decide (p.tmBase + p.tmRows * p.tmCols ≤ p.ramWords) &&
  decide (p.visP0 + p.visW ≤ Config.sweep) && decide (p.visYMax < p.screenH) &&
  (p.pixelDepth == 8 || p.pixelDepth == 16) && decide (0 < p.nTiles)

/-- The whole configuration of one machine: the parameters and the read-only tables (R20, R43). -/
structure Board where
  params : Params
  /-- BG (R29): background pixels, indexed `(layer * BG_ROWS + row) * BG_COLS + column`; unlisted
  is 0. -/
  bg : Memory (BitVec 2)
  /-- MIXPROM (R31): 256 entries of 8 bits. -/
  mixprom : Vector Byte 256
  /-- PALETTE (R30): PAL_SIZE colours. -/
  palette : List Rgb
  /-- TS (R41): tile pens, indexed `code * 256 + row * 16 + column`; unlisted is 0. -/
  ts : Memory (BitVec 4)
  deriving DecidableEq, Repr

/-- The configuration of the reset state: default parameters and tables of zeros. DESIGN CHOICE,
unsafe (log 9): the spec gives no table contents. -/
def Board.default : Board where
  params := Params.default
  bg := []
  mixprom := Vector.replicate 256 0
  palette := List.replicate 256 ⟨0, 0, 0⟩
  ts := []

end Sys2Proof
end

