-- ==== Sys2Proof/Machine/Flags.lean ====
section
/-! DEFINITION. The one-bit conditions of the block (spec/10_state.md R42): the layer enable, the
layer opaque flag, the counter clocks, the effective flip flags and the command class predicates.
All are computed; the block stores no flag. -/

namespace Sys2Proof.Machine

/-- The layer enable (R142): `((ST ^ SP) & 0x10) != 0`, the XOR-carry test bit for bit. -/
def layerEnabled (st sp : BitVec 5) : Bool := (st ^^^ sp) &&& 0x10#5 != 0#5

/-- The layer opaque flag (R143, D12): the pixel is not zero. -/
def opaqueFlag (px : BitVec 2) : Bool := px != 0#2

/-- The start/stop clock in the forward direction (R148): the low 5 bits of the incremented
horizontal counter are 0. -/
def clockFwd (xc : Byte) : Bool := xc.extractLsb' 0 5 == 0#5

/-- The start/stop clock in the reverse direction (R149, D14): the low 5 bits of the decremented
horizontal counter are 0x1F. -/
def clockRev (xc : Byte) : Bool := xc.extractLsb' 0 5 == 0x1F#5

/-- An effective flip flag (R174): the command's bit, inverted when the screen is flipped. -/
def effectiveFlip (flipscr bit : Bool) : Bool := flipscr ^^ bit

/-- The sentinel predicate (R104 test 1, R177): both sizes are zero. -/
def isSentinel (sw sh : Word) : Bool := sw == 0#16 && sh == 0#16

/-- The range guard (R104 test 2, R178): unsigned compares on the whole words. -/
def guardPasses (sw sh zx zy : Word) : Bool :=
  decide (sw.toNat < Config.maxSizeX) && decide (sh.toNat < Config.maxSizeY) &&
  decide (zx.toNat < Config.maxZoom) && decide (zy.toNat < Config.maxZoom)

/-- A command that passes both skips and is drawn (R104 tests 3 to 5). -/
def isDrawn (sw sh zx zy : Word) : Bool := !isSentinel sw sh && guardPasses sw sh zx zy

end Sys2Proof.Machine
end

