-- ==== Sys2Proof/Syntax.lean ====
section
/-! DEFINITION. The operations of the block: one constructor of `Instr` per row of
spec/opcode_table.json, in the table's order. An operand that the spec keeps in a register of the
machine (CMDPTR, W, RAW, ACC, ...) is no field here; the operation reads it from the state. -/

namespace Sys2Proof

/-- One operation. Field names are those of spec/30_encoding.md R93 and of the rules' operand
lists. -/
inductive Instr where
  /-- BLT.SKIP0 (R177), the disabled-sprite sentinel. -/
  | bltSkip0
  /-- BLT.SKIPG (R178), a command the range guard rejects. -/
  | bltSkipg (sw sh zx zy : Word)
  /-- BLT.DIRECT (R179), a tile or a horizontal strip of tiles. -/
  | bltDirect (code : Word) (xi yi : BitVec 9) (fx fy : Bool) (bank : BitVec 7) (sw sh zx zy : Word)
  /-- BLT.TMAP (R181), a grid of tiles whose codes come from the tilemap. -/
  | bltTmap (xi yi : BitVec 9) (fx fy : Bool) (bank : BitVec 7) (sw sh : Word)
      (spx spy : BitVec 12) (zx zy : Word)
  /-- BLT.TMAPC (R182), the same in condensed mode. -/
  | bltTmapc (xi yi : BitVec 9) (fx fy : Bool) (bank : BitVec 7) (sw sh : Word)
      (spx spy : BitVec 12) (zx zy : Word)
  /-- LATCH.W (R121): latch index, data, BEAM's scanline. -/
  | latchW (idx : Fin 16) (v n : Nat)
  /-- PBANK.W (R122). -/
  | pbankW (v : Nat)
  /-- CFLIP.W (R123). -/
  | cflipW (v : Nat)
  /-- CBANK.W (R124). -/
  | cbankW (v : Nat)
  /-- GFXLIST.W (R125). -/
  | gfxlistW (v : Nat)
  /-- FLIPSCR.W (R126). -/
  | flipscrW (v : Nat)
  /-- BLITGO.W (R127); the data value is ignored. -/
  | blitgoW (v : Nat)
  /-- RAM.W (R128): word address, data. -/
  | ramW (a v : Nat)
  /-- FRAME.START (R129). -/
  | frameStart
  /-- FLUSH (R130): an integer at least -1; -1 means every line. -/
  | flush (t : Int)
  /-- SNAPSHOT (R131): a scanline. -/
  | snapshot (line : Nat)
  /-- FRAME.END (R132). -/
  | frameEnd
  /-- BG.FRAME (R140). -/
  | bgFrame
  /-- LINE.INIT (R141): a scanline. -/
  | lineInit (y : Nat)
  /-- LAYER.EN (R142): a layer. -/
  | layerEn (k : Fin 4)
  /-- LAYER.FETCH (R143): a layer. -/
  | layerFetch (k : Fin 4)
  /-- MIX.OR (R144); operands RAW[0..3]. -/
  | mixOr
  /-- MIX.LOOKUP (R145); operand ACC. -/
  | mixLookup
  /-- CIDX (R146); operands LOOKUP, ACC. -/
  | cidx
  /-- PAL (R147); operand CIDX. -/
  | pal
  /-- STEP.FWD (R148): a layer. -/
  | stepFwd (k : Fin 4)
  /-- STEP.REV (R149): a layer. -/
  | stepRev (k : Fin 4)
  /-- LINE.RENDER (R150): a scanline. -/
  | lineRender (y : Nat)
  /-- LIST.RUN (R170). -/
  | listRun
  /-- EXEC.CMD (R175); operand CMDPTR. -/
  | execCmd
  /-- CMD.FETCH (R171); operand CMDPTR. -/
  | cmdFetch
  /-- CMD.DECODE (R172); operand W[0..15]. -/
  | cmdDecode
  /-- BLT.FLIPADJ (R174); operand the decoded command. -/
  | bltFlipadj
  /-- NEXTCODE (R180): a tile code. -/
  | nextcode (c : Word)
  /-- ZBLIT (R185). -/
  | zblit (code : Word) (bank : BitVec 7) (fx fy : Bool) (x y : Int) (zx zy : Word)
  /-- FB.WRITE (R196). -/
  | fbWrite (x y : Int) (v : Word)
  /-- `.cmd MODE ...` (R110). -/
  | cmdMode (mode : Mode) (args : CmdArgs)
  /-- `.cmd OFF` (R110). -/
  | cmdOff
  /-- `.org a` (R110). -/
  | orgA (a : Nat)
  /-- `.list a` (R110). -/
  | listA (a : Nat)
  /-- `.tmap r, c, code` (R110). -/
  | tmapEntry (r c code : Nat)
  /-- `LATCH.LAYER k, xoff, ysel, start, stop @n` (R110). -/
  | latchLayer (k : Fin 4) (xoff ysel start stop n : Nat)
  /-- `FLUSH.ALL` (R110). -/
  | flushAll
  deriving DecidableEq, Repr

end Sys2Proof
end

