-- ==== Sys2Proof/WellFormed.lean ====
section
/-! DEFINITION. Which operand values the spec gives an operation. A term that fails its check is
the operation of no event, no record and no sequencer step. -/

namespace Sys2Proof

open Machine (isSentinel guardPasses isDrawn)

/-- The operand ranges of the rules: the class of a blit command (R104), RAM addresses (R61),
scanlines (R131, R141, R150), FLUSH's operand (R130), zoom words of ZBLIT (R185), pixels in format
FBPIX (R100), tilemap indices (R183), and 4-bit presets, 8-bit latch values and 16-bit words of the
assembler lines (R110). -/
def Instr.wellFormed (p : Params) : Instr → Bool
  | .bltSkip0 => true
  | .bltSkipg sw sh zx zy => !isSentinel sw sh && !guardPasses sw sh zx zy
  | .bltDirect _ _ _ _ _ _ sw sh zx zy => isDrawn sw sh zx zy
  | .bltTmap _ _ _ _ _ sw sh _ _ zx zy => isDrawn sw sh zx zy
  | .bltTmapc _ _ _ _ _ sw sh _ _ zx zy => isDrawn sw sh zx zy
  | .latchW _ _ _ => true
  | .pbankW _ => true
  | .cflipW _ => true
  | .cbankW _ => true
  | .gfxlistW _ => true
  | .flipscrW _ => true
  | .blitgoW _ => true
  | .ramW a _ => decide (a < p.ramWords)
  | .frameStart => true
  | .flush t => decide (-1 ≤ t)
  | .snapshot line => decide (line < p.screenH)
  | .frameEnd => true
  | .bgFrame => true
  | .lineInit y => decide (y < p.screenH)
  | .layerEn _ => true
  | .layerFetch _ => true
  | .mixOr => true
  | .mixLookup => true
  | .cidx => true
  | .pal => true
  | .stepFwd _ => true
  | .stepRev _ => true
  | .lineRender y => decide (y < p.screenH)
  | .listRun => true
  | .execCmd => true
  | .cmdFetch => true
  | .cmdDecode => true
  | .bltFlipadj => true
  | .nextcode _ => true
  | .zblit _ _ _ _ _ _ zx zy => decide (zx.toNat < Config.maxZoom) && decide (zy.toNat < Config.maxZoom)
  | .fbWrite _ _ v => v.extractLsb' 11 5 == 0#5
  | .cmdMode _ a =>
    decide (a.code < 2 ^ 16) && decide (a.w < 2 ^ 16) && decide (a.h < 2 ^ 16) &&
    decide (a.zx < 2 ^ 16) && decide (a.zy < 2 ^ 16) && decide (a.bank < 2 ^ 7) &&
    decide (a.sx < 2 ^ 12) && decide (a.sy < 2 ^ 12)
  | .cmdOff => true
  | .orgA _ => true
  | .listA a => decide (a < 2 ^ 16)
  | .tmapEntry r c code => decide (r < p.tmRows) && decide (c < p.tmCols) && decide (code < 2 ^ 16)
  | .latchLayer _ xoff ysel start stop _ =>
    decide (xoff < 2 ^ 8) && decide (ysel < 2 ^ 8) && decide (start < 2 ^ 4) && decide (stop < 2 ^ 4)
  | .flushAll => true

end Sys2Proof
end

