-- ==== Sys2Proof/Decode.lean ====
section
/-! DEFINITION. Decoding and encoding (spec/30_encoding.md). The block has two encoded forms of an
operation: a 16-word command record (format BC, R93, classified by R104) and an event of the host
(format RW, R91, and the event kinds, R105). Decoding either is total (R107). Sequencer steps are
unencoded (R106) and assembler lines are notation only (R110): neither has an encoding here. -/

namespace Sys2Proof

open Machine (isSentinel guardPasses)

/-! ## Fields of a command record (R93, R172): one named accessor per logical field -/

/-- W1: the tile code. -/
def Command.code (w : Command) : Word := w[1]

/-- W2[12:4]: integer part of destination left. -/
def Command.xi (w : Command) : BitVec 9 := w[2].extractLsb' 4 9

/-- W3[12:4]: integer part of destination top. -/
def Command.yi (w : Command) : BitVec 9 := w[3].extractLsb' 4 9

/-- W4[0]: flip horizontally. -/
def Command.fx (w : Command) : Bool := w[4].getLsbD 0

/-- W4[1]: flip vertically. -/
def Command.fy (w : Command) : Bool := w[4].getLsbD 1

/-- W4[2]: condensed sub-mode. -/
def Command.cond (w : Command) : Bool := w[4].getLsbD 2

/-- W4[3]: tilemap-indirect mode. -/
def Command.tm (w : Command) : Bool := w[4].getLsbD 3

/-- W5[6:0]: colour bank. -/
def Command.bank (w : Command) : BitVec 7 := w[5].extractLsb' 0 7

/-- W6: destination width. -/
def Command.sw (w : Command) : Word := w[6]

/-- W7: destination height. -/
def Command.sh (w : Command) : Word := w[7]

/-- W8[15:4]: integer part of source left. -/
def Command.spx (w : Command) : BitVec 12 := w[8].extractLsb' 4 12

/-- W9[15:4]: integer part of source top. -/
def Command.spy (w : Command) : BitVec 12 := w[9].extractLsb' 4 12

/-- W10: horizontal zoom factor. -/
def Command.zx (w : Command) : Word := w[10]

/-- W13: vertical zoom factor. -/
def Command.zy (w : Command) : Word := w[13]

/-! ## Classification and decoding -/

/-- The five operations of format BC. -/
inductive CmdClass where
  | skip0
  | skipg
  | direct
  | tmap
  | tmapc
  deriving DecidableEq, Repr

/-- Classification of a command (R104), the ordered test on the size and zoom words and the two
mode bits; the first that holds wins. -/
def classify (sw sh zx zy : Word) (tm cond : Bool) : CmdClass :=
  if isSentinel sw sh then .skip0
  else if !guardPasses sw sh zx zy then .skipg
  else if !tm then .direct
  else if !cond then .tmap
  else .tmapc

/-- Decoding of one record (R104, R172): never fails (R107). -/
def decodeCommand (w : Command) : Instr :=
  match classify w.sw w.sh w.zx w.zy w.tm w.cond with
  | .skip0 => .bltSkip0
  | .skipg => .bltSkipg w.sw w.sh w.zx w.zy
  | .direct => .bltDirect w.code w.xi w.yi w.fx w.fy w.bank w.sw w.sh w.zx w.zy
  | .tmap => .bltTmap w.xi w.yi w.fx w.fy w.bank w.sw w.sh w.spx w.spy w.zx w.zy
  | .tmapc => .bltTmapc w.xi w.yi w.fx w.fy w.bank w.sw w.sh w.spx w.spy w.zx w.zy

/-- Decoding of one event (R91, R105). A latch index is bits 3:0 of the operand, as the table's
field list says (DEDUCED, log 12); the data keeps its bits until the operation truncates it to the
port's width (R61, R120). -/
def decodeEvent : Event → Instr
  | .write .latch o d n => .latchW (Fin.ofNat 16 o) d n
  | .write .pbank _ d _ => .pbankW d
  | .write .cflip _ d _ => .cflipW d
  | .write .cbank _ d _ => .cbankW d
  | .write .gfxlist _ d _ => .gfxlistW d
  | .write .flipscr _ d _ => .flipscrW d
  | .write .blitgo _ d _ => .blitgoW d
  | .write .ram o d _ => .ramW o d
  | .frameStart => .frameStart
  | .flush t => .flush t
  | .snapshot line => .snapshot line
  | .frameEnd => .frameEnd

/-- An operation in encoded form. -/
inductive Encoding where
  | record (w : Command)
  | event (e : Event)
  deriving DecidableEq, Repr

/-- Decoding of either encoded form; total. -/
def decode : Encoding → Instr
  | .record w => decodeCommand w
  | .event e => decodeEvent e

/-! ## Records as bytes -/

/-- Why bytes are no record. -/
inductive DecodeError where
  /-- Fewer bytes than one record: a partial record is not fetched (R173). Safe. -/
  | truncatedRecord (bytes : Nat)
  deriving DecidableEq, Repr

/-- A word from its byte at the lower and its byte at the higher byte address (R64). -/
def joinWord : ByteOrder → Byte → Byte → Word
  | .big, b0, b1 => b0 ++ b1
  | .little, b0, b1 => b1 ++ b0

/-- The byte of a word at the lower byte address (R64). -/
def lowerByte : ByteOrder → Word → Byte
  | .big, v => v.extractLsb' 8 8
  | .little, v => v.extractLsb' 0 8

/-- The byte of a word at the higher byte address (R64). -/
def higherByte : ByteOrder → Word → Byte
  | .big, v => v.extractLsb' 0 8
  | .little, v => v.extractLsb' 8 8

/-- The sixteen words of the first 32 bytes. -/
def recordOfBytes (order : ByteOrder) (bs : List Byte) : Command :=
  Vector.ofFn fun j : Fin 16 => joinWord order (bs.getD (2 * j) 0) (bs.getD (2 * j + 1) 0)

/-- Decoding of the record at the head of any bytes, with the bytes after it; every record is 16
words long (R108). -/
def decodeBytes (order : ByteOrder) (bs : List Byte) : Except DecodeError (Instr × List Byte) :=
  if bs.length < 2 * Config.cmdWords then .error (.truncatedRecord bs.length)
  else .ok (decodeCommand (recordOfBytes order bs), bs.drop (2 * Config.cmdWords))

/-! ## Encoding -/

/-- The FLAGS word W4 (R93, R110). -/
def flagsWord (fx fy cond tm : Bool) : Word :=
  (BitVec.ofBool fx).setWidth 16 ||| (BitVec.ofBool fy).setWidth 16 <<< 1 |||
  (BitVec.ofBool cond).setWidth 16 <<< 2 ||| (BitVec.ofBool tm).setWidth 16 <<< 3

/-- The sixteen words of a record from its fields, every ignored bit zero (R93). -/
def recordOfFields (code : Word) (xi yi : BitVec 9) (fx fy cond tm : Bool) (bank : BitVec 7)
    (sw sh : Word) (spx spy : BitVec 12) (zx zy : Word) : Command :=
  #v[0, code, xi.setWidth 16 <<< 4, yi.setWidth 16 <<< 4, flagsWord fx fy cond tm, bank.setWidth 16,
    sw, sh, spx.setWidth 16 <<< 4, spy.setWidth 16 <<< 4, zx, 0, 0, zy, 0, 0]

/-- The encoding of an operation, where the spec gives it one: the record of a blit command, the
event of a host operation. -/
def encode : Instr → Option Encoding
  | .bltSkip0 => some (.record (recordOfFields 0 0 0 false false false false 0 0 0 0 0 0 0))
  | .bltSkipg sw sh zx zy =>
    some (.record (recordOfFields 0 0 0 false false false false 0 sw sh 0 0 zx zy))
  | .bltDirect code xi yi fx fy bank sw sh zx zy =>
    some (.record (recordOfFields code xi yi fx fy false false bank sw sh 0 0 zx zy))
  | .bltTmap xi yi fx fy bank sw sh spx spy zx zy =>
    some (.record (recordOfFields 0 xi yi fx fy false true bank sw sh spx spy zx zy))
  | .bltTmapc xi yi fx fy bank sw sh spx spy zx zy =>
    some (.record (recordOfFields 0 xi yi fx fy true true bank sw sh spx spy zx zy))
  | .latchW k v n => some (.event (.write .latch k v n))
  | .pbankW v => some (.event (.write .pbank 0 v 0))
  | .cflipW v => some (.event (.write .cflip 0 v 0))
  | .cbankW v => some (.event (.write .cbank 0 v 0))
  | .gfxlistW v => some (.event (.write .gfxlist 0 v 0))
  | .flipscrW v => some (.event (.write .flipscr 0 v 0))
  | .blitgoW v => some (.event (.write .blitgo 0 v 0))
  | .ramW a v => some (.event (.write .ram a v 0))
  | .frameStart => some (.event .frameStart)
  | .flush t => some (.event (.flush t))
  | .snapshot line => some (.event (.snapshot line))
  | .frameEnd => some (.event .frameEnd)
  | .bgFrame => none
  | .lineInit _ => none
  | .layerEn _ => none
  | .layerFetch _ => none
  | .mixOr => none
  | .mixLookup => none
  | .cidx => none
  | .pal => none
  | .stepFwd _ => none
  | .stepRev _ => none
  | .lineRender _ => none
  | .listRun => none
  | .execCmd => none
  | .cmdFetch => none
  | .cmdDecode => none
  | .bltFlipadj => none
  | .nextcode _ => none
  | .zblit _ _ _ _ _ _ _ _ => none
  | .fbWrite _ _ _ => none
  | .cmdMode _ _ => none
  | .cmdOff => none
  | .orgA _ => none
  | .listA _ => none
  | .tmapEntry _ _ _ => none
  | .latchLayer _ _ _ _ _ _ => none
  | .flushAll => none

/-- A record as 32 bytes, word by word in ascending address. -/
def bytesOfRecord (order : ByteOrder) (w : Command) : List Byte :=
  w.toList.flatMap fun v => [lowerByte order v, higherByte order v]

/-! ## The table's words -/

/-- The record whose bits are `v`, as spec/opcode_table.json numbers them: a row of at most 16 bits
numbers the bits of its `match_word` W4; a longer one numbers them from bit 0 of W0 upwards. Every
other bit of the record is 0 (log 23). -/
def tableRecord (nbits v : Nat) : Command :=
  if nbits ≤ 16 then (Vector.replicate 16 0).set 4 (BitVec.ofNat 16 (v % 2 ^ nbits))
  else Vector.ofFn fun j : Fin 16 => BitVec.ofNat 16 ((v % 2 ^ nbits) >>> (16 * j.val))

/-- What the decoder reads from a table word laid out as a record in RAM (bytes in the default
order). -/
def decodeTableWord (nbits w : Nat) : Option Instr :=
  match decodeBytes .big (bytesOfRecord .big (tableRecord nbits w)) with
  | .ok (instr, _) => some instr
  | .error _ => none

end Sys2Proof
end

