-- ==== Sys2Proof/Machine/State.lean ====
section
/-! DEFINITION. The state of the block (spec/10_state.md R20), the reasons a step stops, and the
state after reset (R45). -/

namespace Sys2Proof.Machine

/-- Reasons to stop that no event of the hardware has: the block itself raises none (R240). -/
inductive Fault where
  /-- Raised by the step function on an ill-formed configuration: "fatal at initialization; no
  recovery, abort startup" (R241, R261). Safe: no machine is built from such a configuration. -/
  | configuration
  /-- Raised by RAM.W, CMD.FETCH, EXEC.CMD and the assembler lines for a word of RAM at or above
  RAM_WORDS, an address that does not exist (R128, R62). Safe: no event can carry it. -/
  | ramAddress
  deriving DecidableEq, Repr

/-- Refusals: preconditions of the interface that the trace broke (R15, R242). -/
inductive Refusal where
  /-- Answered for an instruction that has no meaning in the model. Safe. -/
  | notModelled (mnemonic : String)
  /-- `refuse(FRAME_ORDER)` (R120), by FRAME.START and FRAME.END out of order. Safe. -/
  | frameOrder
  /-- `refuse(FLUSH_BACKWARDS)` (R130), by FLUSH below the cursor. Safe. -/
  | flushBackwards
  /-- `refuse(SNAPSHOT_UNFLUSHED)` (R131), by SNAPSHOT, and through it LINE.INIT, LINE.RENDER and
  BG.FRAME, of a line beyond the cursor. Safe. -/
  | snapshotUnflushed
  /-- Answered for a drawing command whose operands classify to another row (R104) and for ZBLIT
  with a zoom word outside the guard (R185): no record and no sequencer step gives them. Safe. -/
  | wrongClass
  deriving DecidableEq, Repr

/-- The state of SLC (R20). -/
structure Slc where
  /-- `L[0..15]` (R21). -/
  latch : Latches
  /-- `PBANK` (R25), a number of PBANK_BITS bits. -/
  pbank : Nat
  /-- `CFLIP` (R26). -/
  cflip : Bool
  /-- `CBANK` (R27). -/
  cbank : Byte
  /-- `TL[s]` (R28), by scanline. -/
  tl : Memory Latches
  /-- `CUR` (R28), -1 when nothing is materialised. -/
  cur : Int
  /-- `INFRAME` (R28). -/
  inframe : Bool
  /-- `OUT[y][p]` (R34). -/
  out : Grid Nat
  /-- `Y` (R32). -/
  y : Nat
  /-- `P` (R32). -/
  p : Nat
  /-- `XC[0..3]` (R32). -/
  xc : Vector Byte 4
  /-- `ST[0..3]` (R32, D5). -/
  st : Vector (BitVec 5) 4
  /-- `SP[0..3]` (R32, D5). -/
  sp : Vector (BitVec 5) 4
  /-- `ROW[0..3]` (R32). -/
  row : Vector Byte 4
  /-- `RAW[0..3]` (R143), held by the model (log 14). -/
  raw : Vector Word 4
  /-- `ACC` (R144), held by the model (log 14). -/
  acc : Word
  /-- `LOOKUP` (R145), held by the model (log 14). -/
  lookup : BitVec 2
  /-- `CIDX` (R146), held by the model (log 14). -/
  cidx : BitVec 4
  /-- `PEN` (R147), held by the model (log 14). -/
  pen : Nat
  deriving DecidableEq, Repr

/-- The state of TBL (R20). -/
structure Tbl where
  /-- `GFXLIST` (R35). -/
  gfxlist : Word
  /-- `FLIPSCR` (R36). -/
  flipscr : Bool
  /-- `RAM` (R38), word `a` as the bytes `2a` and `2a+1` in RAM_BYTE_ORDER (R64, log 11). -/
  ram : List Host.Cell
  /-- `FB[y][x]` (R39). -/
  fb : Grid Word
  /-- `CMDPTR` (R33). -/
  cmdptr : Nat
  /-- `W[0..15]` (R40). -/
  w : Command
  /-- `CODE` (R40). -/
  code : Word
  /-- `FLIPX` (R40). -/
  flipx : Bool
  /-- `FLIPY` (R40). -/
  flipy : Bool
  /-- `COND` (R40). -/
  cond : Bool
  /-- `TMAP` (R40). -/
  tmap : Bool
  /-- `BANK` (R40). -/
  bank : BitVec 7
  /-- `DX` (R40, R176), an unbounded integer. -/
  dx : Int
  /-- `DY` (R40, R176), an unbounded integer. -/
  dy : Int
  /-- `SW` (R40). -/
  sw : Word
  /-- `SH` (R40). -/
  sh : Word
  /-- `ZX` (R40). -/
  zx : Word
  /-- `ZY` (R40). -/
  zy : Word
  /-- `SPX` (R40). -/
  spx : BitVec 12
  /-- `SPY` (R40). -/
  spy : BitVec 12
  /-- The variable `c` of BLT.DIRECT (R179) that NEXTCODE advances (log 18). -/
  stripCode : Word
  deriving DecidableEq, Repr

/-- The whole state: the configuration (read only, log 1), the two units, which share nothing (R8),
the events still to come (R7, log 7), the assembler's origin (R110, log 22), and two reports that no
operation reads: the bytes the last SNAPSHOT returned (R131, log 15) and the predicate the last
LAYER.EN computed, none before the first (R142, log 34). The block itself stores no EN (R42). -/
structure State where
  cfg : Board
  slc : Slc
  tbl : Tbl
  trace : List Event
  origin : Nat
  answer : Latches
  enabled : Option Bool
  deriving DecidableEq, Repr

/-- SLC after reset (R45): `CUR = -1` and `INFRAME = 0` are the spec's; every other value is
unspecified there and zero here, DESIGN CHOICE, unsafe (logs 2, 5, 6). -/
def Slc.reset : Slc where
  latch := Latches.zero
  pbank := 0
  cflip := false
  cbank := 0
  tl := []
  cur := -1
  inframe := false
  out := []
  y := 0
  p := 0
  xc := Vector.replicate 4 0
  st := Vector.replicate 4 0
  sp := Vector.replicate 4 0
  row := Vector.replicate 4 0
  raw := Vector.replicate 4 0
  acc := 0
  lookup := 0
  cidx := 0
  pen := 0

/-- TBL after reset (R45): unspecified there and zero here, DESIGN CHOICE, unsafe (logs 2, 3, 4,
6). -/
def Tbl.reset : Tbl where
  gfxlist := 0
  flipscr := false
  ram := []
  fb := []
  cmdptr := 0
  w := Vector.replicate 16 0
  code := 0
  flipx := false
  flipy := false
  cond := false
  tmap := false
  bank := 0
  dx := 0
  dy := 0
  sw := 0
  sh := 0
  zx := 0
  zy := 0
  spx := 0
  spy := 0
  stripCode := 0

/-- The machine after reset (R45, R260), with the default configuration and no event pending. -/
def State.reset : State where
  cfg := Board.default
  slc := Slc.reset
  tbl := Tbl.reset
  trace := []
  origin := 0
  answer := Latches.zero
  enabled := none

/-- What one operation answers. -/
abbrev Out := Host.Outcome State Fault Refusal

end Sys2Proof.Machine
end

