-- ==== Sys2Proof/Machine/Operands.lean ====
section
/-! DEFINITION. Operand assembly (spec/30_encoding.md R103) and the packed formats (R100 to R102):
how each operand is formed from its field, and the pure arithmetic of the geometry rules. -/

namespace Sys2Proof.Machine

/-! ## Latch snapshot (R22, R92) -/

/-- `XOFF[k]`, latch `k`. -/
def xoffOf (snap : Latches) (k : Fin 4) : Byte := snap[k.val]

/-- `YSEL[k]`, latch `4+k`. -/
def yselOf (snap : Latches) (k : Fin 4) : Byte := snap[4 + k.val]

/-- `MIX[k]`, latch `8+k`. -/
def mixOf (snap : Latches) (k : Fin 4) : Byte := snap[8 + k.val]

/-- The start preset `MIX[k][3:0]`, zero-extended to 5 bits (R23, R103 g). -/
def startPreset (snap : Latches) (k : Fin 4) : BitVec 5 :=
  ((mixOf snap k).extractLsb' 0 4).setWidth 5

/-- The stop preset `MIX[k][7:4]`, zero-extended to 5 bits (R23, R103 g). -/
def stopPreset (snap : Latches) (k : Fin 4) : BitVec 5 :=
  ((mixOf snap k).extractLsb' 4 4).setWidth 5

/-! ## The compositor's packed words -/

/-- One layer's contribution in format ACC (R101, R143): the pixel at bits `2k+1:2k`, the opaque
flag at bit `8+k`. -/
def rawOf (k : Fin 4) (px : BitVec 2) : Word :=
  px.setWidth 16 <<< (2 * k.val) ||| (BitVec.ofBool (opaqueFlag px)).setWidth 16 <<< (8 + k.val)

/-- The mixer PROM index `ACC[15:8]` (R145). -/
def mixIndex (acc : Word) : Byte := acc.extractLsb' 8 8

/-- The lookup value of a PROM entry in format MXE, bits 1:0 (R102). -/
def lookupOf (entry : Byte) : BitVec 2 := entry.extractLsb' 0 2

/-- The colour index `(LOOKUP << 2) | ((ACC >> (2*LOOKUP)) & 3)` (R146). -/
def cidxOf (lookup : BitVec 2) (acc : Word) : BitVec 4 :=
  lookup.setWidth 4 <<< 2 ||| ((acc >>> (2 * lookup.toNat)) &&& 3#16).setWidth 4

/-- The palette index `(PBANK << 4) | CIDX` in format PEN (R102, R147). -/
def penOf (pbank : Nat) (cidx : BitVec 4) : Nat := pbank <<< 4 ||| cidx.toNat

/-! ## Blit command operands -/

/-- A destination coordinate from its 9-bit integer part (R103 a, R176): a value at or beyond the
buffer's edge stands for itself less 512. -/
def destCoord (edge : Nat) (v : BitVec 9) : Int :=
  if v.toNat ≥ edge then (v.toNat : Int) - 512 else v.toNat

/-- The mirrored destination coordinate of the screen flip (R174, D29). -/
def mirrored (edge : Nat) (d : Int) (size : Word) : Int := (edge : Int) - 1 - d - size.toNat

/-- The number of tiles on an axis, `(S + 15) >> 4` (R179, R181, D25). -/
def tilesOf (size : Word) : Nat := (size.toNat + 15) >>> 4

/-- The destination size of one tile on an axis, `((0x200 - z) + 8) >> 4` (R186, D26). -/
def tileSize (z : Word) : Nat := ((0x200 - z.toNat) + 8) >>> 4

/-- `OFF(i, T, z) = (i * T * (0x200 - z)) >> 8` (R184, D27). -/
def tileOffset (n pitch : Nat) (z : Word) : Nat := (n * pitch * (0x200 - z.toNat)) >>> 8

/-- The nearest-neighbour source index `(i * 16) div D`, replaced by `15 -` itself under a flip
(R187, R188). -/
def sourceIndex (flip : Bool) (n size : Nat) : Nat :=
  let c := n * Config.tile / size
  if flip then 15 - c else c

/-- The code after `c` in a strip (R180): +1, with the nibble rollover. -/
def nextCodeOf (c : Word) : Word :=
  if c &&& 0x000F#16 = 0x000F#16 then (c + 0x0100#16) &&& 0xFFF0#16 else c + 1#16

/-- A frame-buffer pixel in format FBPIX, `(bank << 4) | pen` (R100, R190). -/
def fbPix (bank : BitVec 7) (pen : BitVec 4) : Word := bank.setWidth 16 <<< 4 ||| pen.setWidth 16

/-- The word address of a tilemap entry, `TM_BASE + r + TM_ROWS * c` (R183). -/
def tmAddr (p : Params) (r c : Nat) : Nat := p.tmBase + r + p.tmRows * c

end Sys2Proof.Machine
end

