-- ==== Sys2Proof/Machine/Ops.lean ====
section
/-! DEFINITION. The named operations over memories and registers that every meaning is built from
(spec/10_state.md, spec/20_memory.md). The block takes no exception and returns from none (R240,
R245, R246), so there is no operation for either. -/

namespace Sys2Proof.Machine

/-! ## Sparse memories -/

/-- The cell at an index; an index not listed reads as `d`. -/
def memRead {α : Type} (d : α) : Memory α → Nat → α
  | [], _ => d
  | (k, v) :: m, a => if k = a then v else memRead d m a

/-- Insertion of a listed cell, keeping the list sorted. -/
def memPut {α : Type} : Memory α → Nat → α → Memory α
  | [], a, v => [(a, v)]
  | (k, u) :: m, a, v =>
    if a < k then (a, v) :: (k, u) :: m
    else if k = a then (a, v) :: m
    else (k, u) :: memPut m a v

/-- A write of one cell: writing what an unlisted index reads as removes the entry. -/
def memWrite {α : Type} [DecidableEq α] (d : α) (m : Memory α) (a : Nat) (v : α) : Memory α :=
  if v = d then m.filter (fun cell => cell.1 != a) else memPut m a v

/-- Canonical form from index `lo` up to but not including `hi`: indices strictly rising, and no
entry equal to what an unlisted index reads as. -/
def memWfFrom {α : Type} [DecidableEq α] (d : α) (hi : Nat) : Nat → Memory α → Bool
  | _, [] => true
  | lo, (k, v) :: m => decide (lo ≤ k) && decide (k < hi) && decide (v ≠ d) && memWfFrom d hi (k + 1) m

/-- The canonical form of a memory of `size` cells. -/
def Memory.wf {α : Type} [DecidableEq α] (d : α) (size : Nat) (m : Memory α) : Bool :=
  memWfFrom d size 0 m

/-- The cell of a grid. -/
def gridRead {α : Type} (d : α) (g : Grid α) (y x : Nat) : α := memRead d (memRead [] g y) x

/-- A write of one cell of a grid. -/
def gridWrite {α : Type} [DecidableEq α] (d : α) (g : Grid α) (y x : Nat) (v : α) : Grid α :=
  memWrite [] g y (memWrite d (memRead [] g y) x v)

/-- The canonical form of a grid: of its list of rows and of each row. -/
def gridWf {α : Type} [DecidableEq α] (d : α) (rows cols : Nat) (g : Grid α) : Bool :=
  Memory.wf [] rows g && g.all fun row => Memory.wf d cols row.2

/-! ## Control -/

/-- One operation after another; a fault or a refusal ends both. -/
def andThen (o : Out) (f : State → Out) : Out :=
  match o with
  | .next s => f s
  | .fault r => .fault r
  | .refused r => .refused r

/-- An operation for each member of a list, in order. -/
def forEach {α : Type} (f : α → State → Out) : List α → State → Out
  | [], s => .next s
  | a :: l, s => andThen (f a s) (forEach f l)

/-- `for i in 0 .. n-1`, on a value. -/
def loop {α : Type} (n : Nat) (f : Nat → α → α) (a : α) : α :=
  (List.range n).foldl (fun acc k => f k acc) a

/-- The layers in order, `k in 0..3`. -/
def layers : List (Fin 4) := [0, 1, 2, 3]

/-- An operation of SLC alone (R8). -/
def onSlc (f : Slc → Slc) (s : State) : State := { s with slc := f s.slc }

/-- An operation of TBL alone (R8). -/
def onTbl (f : Tbl → Tbl) (s : State) : State := { s with tbl := f s.tbl }

/-! ## The read-only tables -/

/-- The place of `BG(k, r, c)` in the table, of BG_ROWS rows of BG_COLS pixels for each layer. -/
def bgPlace (p : Params) (k : Fin 4) (r c : Byte) : Nat :=
  (k.val * p.bgRows + r.toNat) * p.bgCols + c.toNat

/-- `BG(k, r, c)` (R29), row and column not reduced (D11); outside the array a free value (log 35). -/
def bgPixel (b : Board) (k : Fin 4) (r c : Byte) : BitVec 2 :=
  if r.toNat < b.params.bgRows ∧ c.toNat < b.params.bgCols then memRead 0 b.bg (bgPlace b.params k r c)
  else Config.bgBeyond b.params.bgRows b.params.bgCols b.bg k r c

/-- `MIXPROM[i]` (R31). -/
def mixEntry (b : Board) (n : Byte) : Byte := b.mixprom[n.toNat]'n.isLt

/-- `PALETTE[i]` (R30); an index beyond the table reads as black, which a well-formed configuration
does not have (R68). -/
def colourOf (b : Board) (n : Nat) : Rgb := b.palette.getD n ⟨0, 0, 0⟩

/-- `TS(code mod N_TILES, r, c)` (R41, R185). -/
def tsPen (b : Board) (code : Word) (r c : Nat) : BitVec 4 :=
  memRead 0 b.ts (code.toNat % b.params.nTiles * 256 + r * 16 + c)

/-- A well-formed configuration (R261): the numbers, the sizes of the tables, their canonical
form. -/
def boardWf (b : Board) : Bool :=
  b.params.wf && b.palette.length == b.params.palSize &&
  Memory.wf 0 (4 * b.params.bgRows * b.params.bgCols) b.bg && Memory.wf 0 (b.params.nTiles * 256) b.ts

/-! ## Blitter RAM (R38, R64) -/

/-- `RAM[a]`, from its two bytes. -/
def ramRead (p : Params) (m : Memory Byte) (a : Nat) : Word :=
  joinWord p.ramByteOrder (memRead 0 m (2 * a)) (memRead 0 m (2 * a + 1))

/-- `RAM[a] <- v`, both bytes at once (R66). -/
def ramWrite (p : Params) (m : Memory Byte) (a : Nat) (v : Word) : Memory Byte :=
  memWrite 0 (memWrite 0 m (2 * a) (lowerByte p.ramByteOrder v)) (2 * a + 1)
    (higherByte p.ramByteOrder v)

/-- `MemRead(a, 16)` (R14, R171). -/
def ramRecord (p : Params) (m : Memory Byte) (a : Nat) : Command :=
  Vector.ofFn fun j : Fin 16 => ramRead p m (a + j.val)

/-- Sixteen consecutive words written from address `a` up, without a range check; used to place a
record for the host's `withFetchWord`. -/
def ramPlace (p : Params) (m : Memory Byte) (a : Nat) (w : Command) : Memory Byte :=
  loop 16 (fun j m => ramWrite p m (a + j) (w.toList.getD j 0)) m

/-! ## The latch timeline (R28) -/

/-- The snapshot `TL[line]`. -/
def tlRead (u : Slc) (line : Nat) : Latches := memRead Latches.zero u.tl line

/-- `TL[line] <- L` for every line from `lo` to `hi - 1`, in order. -/
def materialise (lo hi : Nat) (u : Slc) : Slc :=
  { u with
    tl := (List.range' lo (hi - lo)).foldl (fun m line => memWrite Latches.zero m line u.latch) u.tl }

/-- The first line not yet materialised, `CUR + 1`. -/
def nextLine (u : Slc) : Nat := (u.cur + 1).toNat

/-! ## The output buffer and the frame buffer -/

/-- `OUT[y][p]` (R34). -/
def outRead (u : Slc) (y p : Nat) : Nat := gridRead 0 u.out y p

/-- `FB[y][x]` (R39). -/
def fbRead (t : Tbl) (x y : Nat) : Word := gridRead 0 t.fb y x

/-- FB.WRITE (R196), the only write to the frame buffer: a pixel outside it is dropped. -/
def fbPlot (p : Params) (x y : Int) (v : Word) (fb : Grid Word) : Grid Word :=
  if 0 ≤ x ∧ x < p.fbW ∧ 0 ≤ y ∧ y < p.fbH then gridWrite 0 fb y.toNat x.toNat v else fb

end Sys2Proof.Machine
end

