-- ==== Sys2Proof/Machine/Compositor.lean ====
section
/-! DEFINITION. The scanline-latch compositor (spec/41_compositor.md): the steps SLC performs by
itself once FRAME.END starts it, per frame, per scanline, per pixel. -/

namespace Sys2Proof.Machine

/-! ## The steps on SLC -/

/-- LINE.INIT (R141) from the line's snapshot: every working register is loaded. -/
def lineLoad (y : Nat) (snap : Latches) (u : Slc) : Slc :=
  { u with
    xc := Vector.ofFn (xoffOf snap)
    row := Vector.ofFn (yselOf snap)
    st := Vector.ofFn (startPreset snap)
    sp := Vector.ofFn (stopPreset snap)
    y := y
    p := 0 }

/-- `EN[k]`, computed from the window counters whenever it is needed and stored nowhere (R42 a,
R142). -/
def layerOn (k : Fin 4) (u : Slc) : Bool := layerEnabled u.st[k] u.sp[k]

/-- LAYER.FETCH (R143): the layer's pixel and flag when it is enabled, nothing when it is not. -/
def layerRaw (b : Board) (k : Fin 4) (u : Slc) : Slc :=
  { u with
    raw := u.raw.set k (if layerOn k u then rawOf k (bgPixel b k u.row[k] u.xc[k]) else 0) }

/-- MIX.OR (R144). -/
def mixCombine (u : Slc) : Slc :=
  { u with acc := u.raw[0] ||| u.raw[1] ||| u.raw[2] ||| u.raw[3] }

/-- MIX.LOOKUP (R145). -/
def mixSelect (b : Board) (u : Slc) : Slc :=
  { u with lookup := lookupOf (mixEntry b (mixIndex u.acc)) }

/-- CIDX (R146). -/
def formIndex (u : Slc) : Slc := { u with cidx := cidxOf u.lookup u.acc }

/-- PAL (R147): `PEN <- (PBANK << 4) | CIDX; OUT[Y][P] <- PEN`. -/
def emitPen (u : Slc) : Slc :=
  { u with
    pen := penOf u.pbank u.cidx
    out := gridWrite 0 u.out u.y u.p (penOf u.pbank u.cidx) }

/-- The counters of one layer after a step to horizontal count `x`, clocked or not: both window
counters by the same clock, modulo 32 (R148, R149, R152). -/
def stepTo (k : Fin 4) (x : Byte) (clocked : Bool) (u : Slc) : Slc :=
  { u with
    xc := u.xc.set k x
    st := if clocked then u.st.set k (u.st[k] + 1) else u.st
    sp := if clocked then u.sp.set k (u.sp[k] + 1) else u.sp }

/-- STEP.FWD (R148): increment, then test. -/
def stepForward (k : Fin 4) (u : Slc) : Slc :=
  stepTo k (u.xc[k] + 1) (clockFwd (u.xc[k] + 1)) u

/-- STEP.REV (R149): decrement, then test. -/
def stepReverse (k : Fin 4) (u : Slc) : Slc :=
  stepTo k (u.xc[k] - 1) (clockRev (u.xc[k] - 1)) u

/-- The counter step of one layer in the direction CFLIP selects (R150). -/
def stepLayer (k : Fin 4) (u : Slc) : Slc :=
  if u.cflip then stepReverse k u else stepForward k u

/-- The pixel at sweep position `p`: formed from the counters as they stand (the first part of the
loop of R150). -/
def formPixel (b : Board) (p : Nat) (u : Slc) : Slc :=
  let u := { u with p := p }
  let u := layers.foldl (fun u k => layerRaw b k u) u
  emitPen (formIndex (mixSelect b (mixCombine u)))

/-- Every layer steps (the last part of the loop of R150). -/
def stepLayers (u : Slc) : Slc := layers.foldl (fun u k => stepLayer k u) u

/-- The sweep of LINE.RENDER (R150). -/
def sweepLine (b : Board) (u : Slc) : Slc :=
  loop Config.sweep (fun p u => stepLayers (formPixel b p u)) u

/-! ## The operations -/

/-- LINE.INIT (R141): the snapshot is read as by SNAPSHOT, which refuses a line beyond the cursor
(R131). -/
def execLineInit (y : Nat) (s : State) : Out :=
  if (y : Int) ≤ s.slc.cur then .next (onSlc (lineLoad y (tlRead s.slc y)) s)
  else .refused .snapshotUnflushed

/-- LAYER.EN (R142): the predicate is computed and stored in no state of the block (R42 a); the model
reports it in `enabled` (log 34). -/
def execLayerEn (k : Fin 4) (s : State) : Out := .next { s with enabled := some (layerOn k s.slc) }

/-- LAYER.FETCH (R143). -/
def execLayerFetch (k : Fin 4) (s : State) : Out := .next (onSlc (layerRaw s.cfg k) s)

/-- MIX.OR (R144). -/
def execMixOr (s : State) : Out := .next (onSlc mixCombine s)

/-- MIX.LOOKUP (R145). -/
def execMixLookup (s : State) : Out := .next (onSlc (mixSelect s.cfg) s)

/-- CIDX (R146). -/
def execCidx (s : State) : Out := .next (onSlc formIndex s)

/-- PAL (R147). -/
def execPal (s : State) : Out := .next (onSlc emitPen s)

/-- STEP.FWD (R148). The sequencer selects it by CFLIP = 0 (R106); run alone it steps forward whatever
CFLIP holds, DESIGN CHOICE, unsafe (log 33). -/
def execStepFwd (k : Fin 4) (s : State) : Out := .next (onSlc (stepForward k) s)

/-- STEP.REV (R149). The sequencer selects it by CFLIP = 1 (R106); run alone it steps backward whatever
CFLIP holds, DESIGN CHOICE, unsafe (log 33). -/
def execStepRev (k : Fin 4) (s : State) : Out := .next (onSlc (stepReverse k) s)

/-- LINE.RENDER (R150): LINE.INIT, then the sweep. -/
def execLineRender (y : Nat) (s : State) : Out :=
  andThen (execLineInit y s) fun s => .next (onSlc (sweepLine s.cfg) s)

/-- The visible scanlines in ascending order. -/
def visibleLines (p : Params) : List Nat := List.range' p.visYMin (p.visYMax + 1 - p.visYMin)

/-- BG.FRAME (R140): every visible line is rendered. R140 requires `CUR = SCREEN_H-1` and names no
outcome below it; run alone with a lower cursor it completes where every visible line is
materialised and is refused at the first one that is not, DESIGN CHOICE, unsafe (log 32). -/
def execBgFrame (s : State) : Out := forEach execLineRender (visibleLines s.cfg.params) s

end Sys2Proof.Machine
end

