-- ==== Sys2Proof/Machine/Frame.lean ====
section
/-! DEFINITION. The frame bookkeeping events (spec/40_host_writes.md R129 to R132). -/

namespace Sys2Proof.Machine

/-- FRAME.START (R129). -/
def execFrameStart (s : State) : Out :=
  if s.slc.inframe then .refused .frameOrder
  else .next (onSlc (fun u => { u with cur := -1, inframe := true }) s)

/-- The line a FLUSH goes up to (R130): the last line for -1, else the operand clamped. -/
def flushTarget (p : Params) (t : Int) : Int :=
  if t = -1 then (p.screenH : Int) - 1 else min t ((p.screenH : Int) - 1)

/-- FLUSH on SLC (R130): the lines from `CUR+1` up to `t` inclusive take the latches. -/
def flushLines (t : Int) (u : Slc) : Slc :=
  { materialise (nextLine u) (t + 1).toNat u with cur := t }

/-- FLUSH (R130). -/
def execFlush (t : Int) (s : State) : Out :=
  if flushTarget s.cfg.params t < s.slc.cur then .refused .flushBackwards
  else .next (onSlc (flushLines (flushTarget s.cfg.params t)) s)

/-- SNAPSHOT (R131): the sixteen bytes are returned, in `answer`; no state of the block changes. -/
def execSnapshot (line : Nat) (s : State) : Out :=
  if (line : Int) ≤ s.slc.cur then .next { s with answer := tlRead s.slc line }
  else .refused .snapshotUnflushed

/-- FRAME.END (R132), steps 0 to 2. Steps 3 and 4 are the adjacent FrameCompositor's and SINK's
(R4; log 21). -/
def execFrameEnd (s : State) : Out :=
  if s.slc.inframe then
    andThen (execFlush (-1) (onSlc (fun u => { u with inframe := false }) s)) execBgFrame
  else .refused .frameOrder

end Sys2Proof.Machine
end

