-- ==== Sys2Proof/Machine/Blitter.lean ====
section
/-! DEFINITION. The tile-blitter command interpreter (spec/42_blitter.md): the list loop, the fetch
and decode of a command, the five command operations, the zoom blit primitive and the frame-buffer
write. -/

namespace Sys2Proof.Machine

/-! ## Fetch, decode, flip adjustment -/

/-- CMD.FETCH (R171): `W[0..15] <- MemRead(CMDPTR, 16)`. -/
def fetchCommand (b : Board) (t : Tbl) : Tbl := { t with w := ramRecord b.params t.ram t.cmdptr }

/-- The fields every drawn command has, into the decoded-command registers (R172, R176). -/
def loadCommon (p : Params) (xi yi : BitVec 9) (fx fy : Bool) (bank : BitVec 7) (sw sh zx zy : Word)
    (t : Tbl) : Tbl :=
  { t with
    dx := destCoord p.fbW xi
    dy := destCoord p.fbH yi
    flipx := fx
    flipy := fy
    bank := bank
    sw := sw
    sh := sh
    zx := zx
    zy := zy }

/-- CMD.DECODE (R172): every field of `W` into its register. -/
def decodeFields (b : Board) (t : Tbl) : Tbl :=
  let t := loadCommon b.params t.w.xi t.w.yi t.w.fx t.w.fy t.w.bank t.w.sw t.w.sh t.w.zx t.w.zy t
  { t with
    code := t.w.code
    cond := t.w.cond
    tmap := t.w.tm
    spx := t.w.spx
    spy := t.w.spy }

/-- BLT.FLIPADJ (R174), only when `FLIPSCR = 1`. -/
def flipAdjust (b : Board) (t : Tbl) : Tbl :=
  if t.flipscr then
    { t with
      dx := mirrored b.params.fbW t.dx t.sw
      dy := mirrored b.params.fbH t.dy t.sh
      flipx := effectiveFlip t.flipscr t.flipx
      flipy := effectiveFlip t.flipscr t.flipy }
  else t

/-! ## The zoom blit primitive -/

/-- One FB.WRITE still to be made: position and value. -/
structure Plot where
  x : Int
  y : Int
  v : Word
  deriving DecidableEq, Repr

/-- The pixel of ZBLIT at destination row `r`, column `c` of a tile: nothing where the pen is the
transparent one (R185, R189). -/
def tilePlot (b : Board) (code : Word) (bank : BitVec 7) (fx fy : Bool) (x y : Int)
    (dw dh r c : Nat) : Option Plot :=
  let pen := tsPen b code (sourceIndex fy r dh) (sourceIndex fx c dw)
  if b.params.transpen = some pen then none else some ⟨x + c, y + r, fbPix bank pen⟩

/-- The pixel writes of ZBLIT (R185), rows then columns ascending. It reads TS only. -/
def tilePlots (b : Board) (code : Word) (bank : BitVec 7) (fx fy : Bool) (x y : Int)
    (zx zy : Word) : List Plot :=
  (List.range (tileSize zy)).flatMap fun r =>
    (List.range (tileSize zx)).filterMap fun c =>
      tilePlot b code bank fx fy x y (tileSize zx) (tileSize zy) r c

/-- Pixel writes made in order (R195, R196). -/
def drawPlots (p : Params) (ps : List Plot) (fb : Grid Word) : Grid Word :=
  ps.foldl (fun fb q => fbPlot p q.x q.y q.v fb) fb

/-- ZBLIT (R185). -/
def drawTile (b : Board) (code : Word) (bank : BitVec 7) (fx fy : Bool) (x y : Int) (zx zy : Word)
    (t : Tbl) : Tbl :=
  { t with fb := drawPlots b.params (tilePlots b code bank fx fy x y zx zy) t.fb }

/-- ZBLIT of one tile of the decoded command, at offsets from its destination. -/
def drawAt (b : Board) (code : Word) (ox oy : Nat) (t : Tbl) : Tbl :=
  drawTile b code t.bank t.flipx t.flipy (t.dx + ox) (t.dy + oy) t.zx t.zy t

/-! ## Drawing commands, on the decoded registers -/

/-- `c <- NEXTCODE(c)` (R180). -/
def advanceCode (c : Word) (t : Tbl) : Tbl := { t with stripCode := nextCodeOf c }

/-- BLT.DIRECT (R179): a strip of `ceil(SW / 16)` tiles, left to right. -/
def drawStrip (b : Board) (t : Tbl) : Tbl :=
  loop (tilesOf t.sw)
    (fun n t => advanceCode t.stripCode (drawAt b t.stripCode (tileOffset n Config.tile t.zx) 0 t))
    { t with stripCode := t.code }

/-- The tile code of grid column `i`, row `j` (R181, R183, R95): tilemap indices wrap. -/
def gridCode (b : Board) (pitch i j : Nat) (t : Tbl) : Word :=
  ramRead b.params t.ram
    (tmAddr b.params ((t.spy.toNat / pitch + j) % b.params.tmRows)
      ((t.spx.toNat / pitch + i) % b.params.tmCols))

/-- The common loop of BLT.TMAP and BLT.TMAPC (R182): rows outer, columns inner. -/
def drawGrid (b : Board) (pitch mult : Nat) (t : Tbl) : Tbl :=
  loop (mult * tilesOf t.sh)
    (fun j t =>
      loop (mult * tilesOf t.sw)
        (fun i t =>
          drawAt b (gridCode b pitch i j t) (tileOffset i pitch t.zx) (tileOffset j pitch t.zy) t)
        t)
    t

/-- BLT.TMAP (R181): `T = 16`, `M = 1`. -/
def drawTilemap (b : Board) (t : Tbl) : Tbl := drawGrid b Config.tile 1 t

/-- BLT.TMAPC (R182): `T = 8`, `M = 2`. -/
def drawCondensed (b : Board) (t : Tbl) : Tbl := drawGrid b Config.ctile 2 t

/-- Steps 4 to 6 of EXEC.CMD (R175) for a command of a given class, on the decoded registers. -/
def runClass (b : Board) (c : CmdClass) (t : Tbl) : Tbl :=
  match c with
  | .skip0 => t
  | .skipg => t
  | .direct => drawStrip b (flipAdjust b t)
  | .tmap => drawTilemap b (flipAdjust b t)
  | .tmapc => drawCondensed b (flipAdjust b t)

/-! ## The list loop -/

/-- EXEC.CMD (R175): fetch, decode, classify on the raw words, then the command. -/
def runCommand (b : Board) (t : Tbl) : Tbl :=
  let t := decodeFields b (fetchCommand b t)
  runClass b (classify t.sw t.sh t.zx t.zy t.tmap t.cond) t

/-- Whether all sixteen words of the command at CMDPTR lie below RAM_WORDS (R170, R173). -/
def recordInRam (b : Board) (t : Tbl) : Bool :=
  decide (t.cmdptr + Config.cmdWords ≤ b.params.ramWords)

/-- `pc <- CMDPTR + 16` (R173). -/
def advancePtr (t : Tbl) : Tbl := { t with cmdptr := t.cmdptr + Config.cmdWords }

/-- The loop of LIST.RUN (R170), with a bound on the number of commands. -/
def runFrom (b : Board) : Nat → Tbl → Tbl
  | 0, t => t
  | n + 1, t => if recordInRam b t then runFrom b n (advancePtr (runCommand b t)) else t

/-- LIST.RUN (R170): from GFXLIST to the end of RAM. The bound is R173's, "at most
`RAM_WORDS div 16` commands". -/
def runList (b : Board) (t : Tbl) : Tbl :=
  runFrom b (b.params.ramWords / Config.cmdWords) { t with cmdptr := t.gfxlist.toNat }

/-! ## The operations -/

/-- BLT.SKIP0 (R177): `skip`, no state changes. -/
def execBltSkip0 (s : State) : Out := .next s

/-- BLT.SKIPG (R178): `skip`, no state changes. -/
def execBltSkipg (_sw _sh _zx _zy : Word) (s : State) : Out := .next s

/-- BLT.DIRECT (R179) as a whole command: the fields into the registers (R172), the screen flip
(R174), the strip (log 16). -/
def execBltDirect (code : Word) (xi yi : BitVec 9) (fx fy : Bool) (bank : BitVec 7)
    (sw sh zx zy : Word) (s : State) : Out :=
  if isDrawn sw sh zx zy then
    .next (onTbl (fun t =>
      drawStrip s.cfg (flipAdjust s.cfg
        { loadCommon s.cfg.params xi yi fx fy bank sw sh zx zy t with
          code := code
          tmap := false })) s)
  else .refused .wrongClass

/-- The registers of a tilemap command (R172). -/
def loadTilemap (p : Params) (xi yi : BitVec 9) (fx fy cond : Bool) (bank : BitVec 7) (sw sh : Word)
    (spx spy : BitVec 12) (zx zy : Word) (t : Tbl) : Tbl :=
  { loadCommon p xi yi fx fy bank sw sh zx zy t with
    cond := cond
    tmap := true
    spx := spx
    spy := spy }

/-- BLT.TMAP (R181) as a whole command (log 16). -/
def execBltTmap (xi yi : BitVec 9) (fx fy : Bool) (bank : BitVec 7) (sw sh : Word)
    (spx spy : BitVec 12) (zx zy : Word) (s : State) : Out :=
  if isDrawn sw sh zx zy then
    .next (onTbl (fun t =>
      drawTilemap s.cfg (flipAdjust s.cfg
        (loadTilemap s.cfg.params xi yi fx fy false bank sw sh spx spy zx zy t))) s)
  else .refused .wrongClass

/-- BLT.TMAPC (R182) as a whole command (log 16). -/
def execBltTmapc (xi yi : BitVec 9) (fx fy : Bool) (bank : BitVec 7) (sw sh : Word)
    (spx spy : BitVec 12) (zx zy : Word) (s : State) : Out :=
  if isDrawn sw sh zx zy then
    .next (onTbl (fun t =>
      drawCondensed s.cfg (flipAdjust s.cfg
        (loadTilemap s.cfg.params xi yi fx fy true bank sw sh spx spy zx zy t))) s)
  else .refused .wrongClass

/-- LIST.RUN (R170). -/
def execListRun (s : State) : Out := .next (onTbl (runList s.cfg) s)

/-- EXEC.CMD (R175) of the command at CMDPTR. -/
def execExecCmd (s : State) : Out :=
  if recordInRam s.cfg s.tbl then .next (onTbl (runCommand s.cfg) s) else .fault .ramAddress

/-- CMD.FETCH (R171) at CMDPTR. -/
def execCmdFetch (s : State) : Out :=
  if recordInRam s.cfg s.tbl then .next (onTbl (fetchCommand s.cfg) s) else .fault .ramAddress

/-- CMD.DECODE (R172) of `W`. -/
def execCmdDecode (s : State) : Out := .next (onTbl (decodeFields s.cfg) s)

/-- BLT.FLIPADJ (R174). -/
def execBltFlipadj (s : State) : Out := .next (onTbl (flipAdjust s.cfg) s)

/-- NEXTCODE (R180); the result is in `stripCode` (log 18). -/
def execNextcode (c : Word) (s : State) : Out := .next (onTbl (advanceCode c) s)

/-- ZBLIT (R185), reached only under the guard: both zoom words below 0x1F0 (R193; log 17). -/
def execZblit (code : Word) (bank : BitVec 7) (fx fy : Bool) (x y : Int) (zx zy : Word)
    (s : State) : Out :=
  if zx.toNat < Config.maxZoom ∧ zy.toNat < Config.maxZoom then
    .next (onTbl (drawTile s.cfg code bank fx fy x y zx zy) s)
  else .refused .wrongClass

/-- FB.WRITE (R196). -/
def execFbWrite (x y : Int) (v : Word) (s : State) : Out :=
  .next (onTbl (fun t => { t with fb := fbPlot s.cfg.params x y v t.fb }) s)

end Sys2Proof.Machine
end

