-- ==== Sys2Proof/Machine/HostWrites.lean ====
section
/-! DEFINITION. The eight port writes of the host (spec/40_host_writes.md, R120 to R128). -/

namespace Sys2Proof.Machine

/-- LATCH.W on SLC (R121): clamp the line, materialise every line strictly before it from the old
values, then store. -/
def latchWrite (p : Params) (idx : Fin 16) (v n : Nat) (u : Slc) : Slc :=
  let line := min n (p.screenH - 1)
  let u' := materialise (nextLine u) line u
  { u' with
    cur := max u.cur ((line : Int) - 1)
    latch := u.latch.set idx (BitVec.ofNat 8 v) }

/-- LATCH.W (R121). -/
def execLatchW (idx : Fin 16) (v n : Nat) (s : State) : Out :=
  .next (onSlc (latchWrite s.cfg.params idx v n) s)

/-- PBANK.W (R122): `PBANK <- v[PBANK_BITS-1:0]`. -/
def execPbankW (v : Nat) (s : State) : Out :=
  .next (onSlc (fun u => { u with pbank := v % 2 ^ s.cfg.params.pbankBits }) s)

/-- CFLIP.W (R123): `CFLIP <- v[0]`. -/
def execCflipW (v : Nat) (s : State) : Out :=
  .next (onSlc (fun u => { u with cflip := v.testBit 0 }) s)

/-- CBANK.W (R124): `CBANK <- v[7:0]`. -/
def execCbankW (v : Nat) (s : State) : Out :=
  .next (onSlc (fun u => { u with cbank := BitVec.ofNat 8 v }) s)

/-- GFXLIST.W (R125): `GFXLIST <- v[15:0]`, no check at write time. -/
def execGfxlistW (v : Nat) (s : State) : Out :=
  .next (onTbl (fun t => { t with gfxlist := BitVec.ofNat 16 v }) s)

/-- FLIPSCR.W (R126): `FLIPSCR <- v[0]`. -/
def execFlipscrW (v : Nat) (s : State) : Out :=
  .next (onTbl (fun t => { t with flipscr := v.testBit 0 }) s)

/-- BLITGO.W (R127): the whole list runs, to completion; the data is ignored. -/
def execBlitgoW (_v : Nat) (s : State) : Out :=
  .next (onTbl (runList s.cfg) s)

/-- RAM.W (R128): `RAM[a] <- v[15:0]`; no event carries an address at or above RAM_WORDS
(log 13). -/
def execRamW (a v : Nat) (s : State) : Out :=
  if a < s.cfg.params.ramWords then
    .next (onTbl (fun t => { t with ram := ramWrite s.cfg.params t.ram a (BitVec.ofNat 16 v) }) s)
  else .fault .ramAddress

end Sys2Proof.Machine
end

