-- ==== Sys2Proof/Machine/Assembler.lean ====
section
/-! DEFINITION. The pseudo-operations of the assembler notation (spec/30_encoding.md R110), each as
the events it expands to, applied to the machine in order (log 22). -/

namespace Sys2Proof.Machine

/-- The mode bits `(tm, cond)` of a `.cmd` line (R110). -/
def modeBits : Mode → Bool × Bool
  | .direct => (false, false)
  | .tmap => (true, false)
  | .tmapc => (true, true)

/-- The sixteen assembled data values of a `.cmd MODE` line (R110), each truncated to 16 bits by
its RAM.W (R120). -/
def cmdValues (mode : Mode) (a : CmdArgs) : List Nat :=
  [0, a.code, (a.x % 512).toNat <<< 4, (a.y % 512).toNat <<< 4,
    a.fx.toNat ||| a.fy.toNat <<< 1 ||| (modeBits mode).2.toNat <<< 2 |||
      (modeBits mode).1.toNat <<< 3,
    a.bank, a.w, a.h, a.sx <<< 4, a.sy <<< 4, a.zx, 0, 0, a.zy, 0, 0]

/-- RAM.W events at consecutive addresses from `a` up. -/
def writeValues : Nat → List Nat → State → Out
  | _, [], s => .next s
  | a, v :: vs, s => andThen (execRamW a v s) (writeValues (a + 1) vs)

/-- Sixteen RAM.W events at the origin, which advances by 16 (R110). -/
def assemble (vs : List Nat) (s : State) : Out :=
  andThen (writeValues s.origin vs s) fun s => .next { s with origin := s.origin + Config.cmdWords }

/-- `.cmd MODE ...` (R110). -/
def execCmdMode (mode : Mode) (args : CmdArgs) (s : State) : Out := assemble (cmdValues mode args) s

/-- `.cmd OFF` (R110): sixteen zero words. -/
def execCmdOff (s : State) : Out := assemble (List.replicate 16 0) s

/-- `.org a` (R110): no event. -/
def execOrgA (a : Nat) (s : State) : Out := .next { s with origin := a }

/-- `.list a` (R110): `.org a`, then `GFXLIST.W a`. -/
def execListA (a : Nat) (s : State) : Out := andThen (execOrgA a s) (execGfxlistW a)

/-- `.tmap r, c, code` (R110): `RAM.W TM_BASE + r + TM_ROWS*c, code`. -/
def execTmapEntry (r c code : Nat) (s : State) : Out := execRamW (tmAddr s.cfg.params r c) code s

/-- `LATCH.LAYER k, xoff, ysel, start, stop @n` (R110): three latch writes on one line. -/
def execLatchLayer (k : Fin 4) (xoff ysel start stop n : Nat) (s : State) : Out :=
  andThen (execLatchW (Fin.ofNat 16 k.val) xoff n s) fun s =>
    andThen (execLatchW (Fin.ofNat 16 (4 + k.val)) ysel n s) fun s =>
      execLatchW (Fin.ofNat 16 (8 + k.val)) (stop <<< 4 ||| start) n s

/-- `FLUSH.ALL` (R110): `FLUSH -1`. -/
def execFlushAll (s : State) : Out := execFlush (-1) s

end Sys2Proof.Machine
end

