-- ==== Sys2Proof/Machine/Dispatch.lean ====
section
/-! DEFINITION. One arm per operation of spec/opcode_table.json. -/

namespace Sys2Proof.Machine

/-- The meaning of every operation. -/
def exec (i : Instr) (s : State) : Host.Outcome State Fault Refusal :=
  match i with
  -- format BC
  | .bltSkip0 => Sys2Proof.Machine.execBltSkip0 s
  | .bltSkipg sw sh zx zy => Sys2Proof.Machine.execBltSkipg sw sh zx zy s
  | .bltDirect code xi yi fx fy bank sw sh zx zy => Sys2Proof.Machine.execBltDirect code xi yi fx fy bank sw sh zx zy s
  | .bltTmap xi yi fx fy bank sw sh spx spy zx zy => Sys2Proof.Machine.execBltTmap xi yi fx fy bank sw sh spx spy zx zy s
  | .bltTmapc xi yi fx fy bank sw sh spx spy zx zy => Sys2Proof.Machine.execBltTmapc xi yi fx fy bank sw sh spx spy zx zy s
  -- format RW
  | .latchW idx v n => Sys2Proof.Machine.execLatchW idx v n s
  | .pbankW v => Sys2Proof.Machine.execPbankW v s
  | .cflipW v => Sys2Proof.Machine.execCflipW v s
  | .cbankW v => Sys2Proof.Machine.execCbankW v s
  | .gfxlistW v => Sys2Proof.Machine.execGfxlistW v s
  | .flipscrW v => Sys2Proof.Machine.execFlipscrW v s
  | .blitgoW v => Sys2Proof.Machine.execBlitgoW v s
  | .ramW a v => Sys2Proof.Machine.execRamW a v s
  -- format EV
  | .frameStart => Sys2Proof.Machine.execFrameStart s
  | .flush t => Sys2Proof.Machine.execFlush t s
  | .snapshot line => Sys2Proof.Machine.execSnapshot line s
  | .frameEnd => Sys2Proof.Machine.execFrameEnd s
  -- format SEQ, unit SLC
  | .bgFrame => Sys2Proof.Machine.execBgFrame s
  | .lineInit y => Sys2Proof.Machine.execLineInit y s
  | .layerEn k => Sys2Proof.Machine.execLayerEn k s
  | .layerFetch k => Sys2Proof.Machine.execLayerFetch k s
  | .mixOr => Sys2Proof.Machine.execMixOr s
  | .mixLookup => Sys2Proof.Machine.execMixLookup s
  | .cidx => Sys2Proof.Machine.execCidx s
  | .pal => Sys2Proof.Machine.execPal s
  | .stepFwd k => Sys2Proof.Machine.execStepFwd k s
  | .stepRev k => Sys2Proof.Machine.execStepRev k s
  | .lineRender y => Sys2Proof.Machine.execLineRender y s
  -- format SEQ, unit TBL
  | .listRun => Sys2Proof.Machine.execListRun s
  | .execCmd => Sys2Proof.Machine.execExecCmd s
  | .cmdFetch => Sys2Proof.Machine.execCmdFetch s
  | .cmdDecode => Sys2Proof.Machine.execCmdDecode s
  | .bltFlipadj => Sys2Proof.Machine.execBltFlipadj s
  | .nextcode c => Sys2Proof.Machine.execNextcode c s
  | .zblit code bank fx fy x y zx zy => Sys2Proof.Machine.execZblit code bank fx fy x y zx zy s
  | .fbWrite x y v => Sys2Proof.Machine.execFbWrite x y v s
  -- format PSEUDO
  | .cmdMode mode args => Sys2Proof.Machine.execCmdMode mode args s
  | .cmdOff => Sys2Proof.Machine.execCmdOff s
  | .orgA a => Sys2Proof.Machine.execOrgA a s
  | .listA a => Sys2Proof.Machine.execListA a s
  | .tmapEntry r c code => Sys2Proof.Machine.execTmapEntry r c code s
  | .latchLayer k xoff ysel start stop n => Sys2Proof.Machine.execLatchLayer k xoff ysel start stop n s
  | .flushAll => Sys2Proof.Machine.execFlushAll s

end Sys2Proof.Machine
end

