-- ==== Sys2Proof/Machine/Display.lean ====
section
/-! DEFINITION. What the block hands on (spec/10_state.md R34, spec/41_compositor.md R147, R151): the
visible part of OUT, as palette indices and, through PALETTE, as colours. Pure functions of the
state. -/

namespace Sys2Proof.Machine

/-- Whether scanline `y` and screen column `col` are visible (R9, R151). -/
def isVisible (p : Params) (y col : Nat) : Bool :=
  decide (p.visYMin ≤ y) && decide (y ≤ p.visYMax) && decide (col < p.visW)

/-- The palette index of a visible pixel; screen column `col` is sweep position `VIS_P0 + col`
(R151). -/
def screenPen (s : State) (y col : Nat) : Option Nat :=
  if isVisible s.cfg.params y col then some (outRead s.slc y (s.cfg.params.visP0 + col)) else none

/-- The colour of a visible pixel, `PALETTE[OUT[y][p]]` (R34, R147, D42). -/
def screenColour (s : State) (y col : Nat) : Option Rgb := (screenPen s y col).map (colourOf s.cfg)

end Sys2Proof.Machine
end

