-- ==== Sys2Proof/Machine/Fetch.lean ====
section
/-! DEFINITION. How the next operation reaches the machine: the oldest pending event of the trace
(R7), and how a table word is placed so that it is the next thing to run. -/

namespace Sys2Proof.Machine

/-- The state after the oldest event has been taken from the trace. -/
def takeEvent (s : State) : State := { s with trace := s.trace.tail }

/-- The operation the machine runs next: the oldest pending event, decoded (R7, R105). -/
def fetchInstr (s : State) : Option Instr := s.trace.head?.map decodeEvent

/-- One step: an ill-formed configuration is a fault (R241, R261); with no event pending nothing
happens (R251, log 7); otherwise the oldest event is applied, whole (R7). -/
def stepOnce (s : State) : Out :=
  if boardWf s.cfg then
    match fetchInstr s with
    | none => .next s
    | some next => exec next (takeEvent s)
  else .fault .configuration

/-- The word address of the last whole record of RAM. -/
def lastRecord (p : Params) : Nat := p.ramWords - Config.cmdWords

/-- A record placed as the whole of the next command list, with its trigger as the next event: the
last record of RAM, GFXLIST at it, BLITGO.W at the head of the trace (R125's example; log 24). -/
def placeRecord (w : Command) (s : State) : State :=
  { s with
    tbl := { s.tbl with
      ram := ramPlace s.cfg.params s.tbl.ram (lastRecord s.cfg.params) w
      gfxlist := BitVec.ofNat 16 (lastRecord s.cfg.params) }
    trace := .write .blitgo 0 0 0 :: s.trace }

end Sys2Proof.Machine
end

