-- ==== Sys2Proof/Machine/Step.lean ====
section
/-! DEFINITION. The step of the machine and the placement of a table word, both as Fetch.lean
defines them. -/

namespace Sys2Proof.Machine

/-- One step: the oldest pending event of the trace, applied atomically (R7). -/
def step (s : State) : Host.Outcome State Fault Refusal := stepOnce s

/-- `s` with the table word `w` where the next step fetches: a command list of that one record, and
the BLITGO.W that runs it (log 24). -/
def State.withFetchWord (s : State) (nbits w : Nat) : State := placeRecord (tableRecord nbits w) s

end Sys2Proof.Machine
end

