-- ==== Sys2Proof/Safety.lean ====
section
/-! DEFINITION. What counts as a safe state and a safe run, and the closed forms the statements are
made in: the spec's own laws of the timeline, of a rendered line and of a command's pixel writes,
written from the rules and not from the machine's loops. -/

namespace Sys2Proof.Machine

/-! ## The invariant -/

/-- Every value held by a grid has a property. -/
def gridAll {α : Type} (f : α → Bool) (g : Grid α) : Bool := g.all fun row => row.2.all fun cell => f cell.2

/-- The bits of format ACC that layer `k` may set (R101): its two pixel bits and its flag. -/
def laneMask (k : Fin 4) : Word := 3#16 <<< (2 * k.val) ||| 1#16 <<< (8 + k.val)

/-- What holds of SLC in every state a run reaches: the cursor lies in its range (R28), PBANK in its
width (R25), the raster position in the sweep (R32), each RAW in its lane of format ACC (R101), TL
and OUT are canonical and in range, and every entry of OUT has PBANK_BITS+4 bits (R34). -/
abbrev SlcInv (p : Params) (u : Slc) : Prop :=
  -1 ≤ u.cur ∧ u.cur < p.screenH ∧ u.pbank < 2 ^ p.pbankBits ∧ u.y < p.screenH ∧
  u.p < Config.sweep ∧ (∀ k : Fin 4, u.raw[k] &&& ~~~ laneMask k = 0#16) ∧
  u.acc &&& 0xF000#16 = 0#16 ∧ Memory.wf Latches.zero p.screenH u.tl = true ∧
  gridWf 0 p.screenH Config.sweep u.out = true ∧
  gridAll (fun pen => decide (pen < 2 ^ (p.pbankBits + 4))) u.out = true

/-- What holds of TBL in every state a run reaches: RAM and FB are canonical and in range, and bits
15:11 of every pixel are zero (R39, R100). -/
abbrev TblInv (p : Params) (t : Tbl) : Prop :=
  Memory.wf 0 (2 * p.ramWords) t.ram = true ∧ gridWf 0 p.fbH p.fbW t.fb = true ∧
  gridAll (fun v : Word => v.extractLsb' 11 5 == 0#5) t.fb = true

/-- The invariant of the machine, on a well-formed configuration (R261). -/
abbrev Inv (s : State) : Prop :=
  boardWf s.cfg = true ∧ SlcInv s.cfg.params s.slc ∧ TblInv s.cfg.params s.tbl

/-! ## Safe outcomes -/

/-- The refusals of the spec's list (R242); any other is the model's. -/
def isSpecRefusal (r : Refusal) : Bool :=
  decide (r = .frameOrder) || decide (r = .flushBackwards) || decide (r = .snapshotUnflushed)

/-- A safe outcome: a next state, or a refusal of the spec's list. -/
def isSafe : Out → Bool
  | .next _ => true
  | .fault _ => false
  | .refused r => isSpecRefusal r

/-- Two outcomes that agree: both stop for the same reason, or both answer states that `R` relates. -/
def agree (R : State → State → Prop) : Out → Out → Prop
  | .next s, .next t => R s t
  | .fault r, .fault r' => r = r'
  | .refused r, .refused r' => r = r'
  | .next _, .fault _ => False
  | .next _, .refused _ => False
  | .fault _, .next _ => False
  | .fault _, .refused _ => False
  | .refused _, .next _ => False
  | .refused _, .fault _ => False

/-- Events applied in order (R7). -/
def runEvents (es : List Event) (s : State) : Out := forEach (fun e => exec (decodeEvent e)) es s

/-- Whether an event is a port write (R105). -/
def isPortWrite : Event → Bool
  | .write _ _ _ _ => true
  | .frameStart | .flush _ | .snapshot _ | .frameEnd => false

/-- The latch index, data and line of a LATCH.W event. -/
def latchWriteOf : Event → Option (Fin 16 × Nat × Nat)
  | .write .latch o d n => some (Fin.ofNat 16 o, d, n)
  | .write .pbank _ _ _ | .write .cflip _ _ _ | .write .cbank _ _ _ | .write .gfxlist _ _ _
  | .write .flipscr _ _ _ | .write .blitgo _ _ _ | .write .ram _ _ _ => none
  | .frameStart | .flush _ | .snapshot _ | .frameEnd => none

/-- R136's premise: every LATCH.W among the events has its clamped line above the cursor when it is
applied, the events being applied in order from `s`. -/
def latchesAhead : List Event → State → Prop
  | [], _ => True
  | e :: es, s =>
    (∀ a, latchWriteOf e = some a → s.slc.cur < (min a.2.2 (s.cfg.params.screenH - 1) : Nat)) ∧
    ∀ t, exec (decodeEvent e) s = .next t → latchesAhead es t

/-- Which operations act on SLC alone; the others, but for the assembler's, act on TBL alone
(R8, R105, R106). -/
def actsOnSlc : Instr → Bool
  | .latchW _ _ _ | .pbankW _ | .cflipW _ | .cbankW _ | .frameStart | .flush _ | .snapshot _
  | .frameEnd | .bgFrame | .lineInit _ | .layerEn _ | .layerFetch _ | .mixOr | .mixLookup | .cidx
  | .pal | .stepFwd _ | .stepRev _ | .lineRender _ | .latchLayer _ _ _ _ _ _ | .flushAll => true
  | .bltSkip0 | .bltSkipg _ _ _ _ | .bltDirect _ _ _ _ _ _ _ _ _ _
  | .bltTmap _ _ _ _ _ _ _ _ _ _ _ | .bltTmapc _ _ _ _ _ _ _ _ _ _ _ | .gfxlistW _
  | .flipscrW _ | .blitgoW _ | .ramW _ _ | .listRun | .execCmd | .cmdFetch | .cmdDecode
  | .bltFlipadj | .nextcode _ | .zblit _ _ _ _ _ _ _ _ | .fbWrite _ _ _ | .cmdMode _ _ | .cmdOff
  | .orgA _ | .listA _ | .tmapEntry _ _ _ => false

/-- The operations that write RAM (R38): RAM.W and the assembler lines that expand to it. -/
def writesRam : Instr → Bool
  | .ramW _ _ | .cmdMode _ _ | .cmdOff | .tmapEntry _ _ _ => true
  | .bltSkip0 | .bltSkipg _ _ _ _ | .bltDirect _ _ _ _ _ _ _ _ _ _
  | .bltTmap _ _ _ _ _ _ _ _ _ _ _ | .bltTmapc _ _ _ _ _ _ _ _ _ _ _ | .latchW _ _ _
  | .pbankW _ | .cflipW _ | .cbankW _ | .gfxlistW _ | .flipscrW _ | .blitgoW _ | .frameStart
  | .flush _ | .snapshot _ | .frameEnd | .bgFrame | .lineInit _ | .layerEn _ | .layerFetch _
  | .mixOr | .mixLookup | .cidx | .pal | .stepFwd _ | .stepRev _ | .lineRender _ | .listRun
  | .execCmd | .cmdFetch | .cmdDecode | .bltFlipadj | .nextcode _ | .zblit _ _ _ _ _ _ _ _
  | .fbWrite _ _ _ | .orgA _ | .listA _ | .latchLayer _ _ _ _ _ _ | .flushAll => false

/-- The operations that may write FB (R39): a list run, a drawing command and their parts. -/
def mayDraw : Instr → Bool
  | .bltDirect _ _ _ _ _ _ _ _ _ _ | .bltTmap _ _ _ _ _ _ _ _ _ _ _
  | .bltTmapc _ _ _ _ _ _ _ _ _ _ _ | .blitgoW _ | .listRun | .execCmd
  | .zblit _ _ _ _ _ _ _ _ | .fbWrite _ _ _ => true
  | .bltSkip0 | .bltSkipg _ _ _ _ | .latchW _ _ _ | .pbankW _ | .cflipW _ | .cbankW _
  | .gfxlistW _ | .flipscrW _ | .ramW _ _ | .frameStart | .flush _ | .snapshot _ | .frameEnd
  | .bgFrame | .lineInit _ | .layerEn _ | .layerFetch _ | .mixOr | .mixLookup | .cidx | .pal
  | .stepFwd _ | .stepRev _ | .lineRender _ | .cmdFetch | .cmdDecode | .bltFlipadj | .nextcode _
  | .cmdMode _ _ | .cmdOff | .orgA _ | .listA _ | .tmapEntry _ _ _ | .latchLayer _ _ _ _ _ _
  | .flushAll => false

/-! ## The closed form of a rendered line (R150, R153, R154) -/

/-- Clocks a layer's window counters have received at sweep position `p`: `(a + p) div 32` forward
(R153), `(p + 31 - a) div 32` in reverse (R154), with `a = XOFF mod 32`. -/
def clocksAt (cflip : Bool) (xoff p : Nat) : Nat :=
  if cflip then (p + 31 - xoff % 32) / 32 else (xoff % 32 + p) / 32

/-- The column a layer shows at sweep position `p`: `(XOFF + p) mod 256` forward, `(XOFF - p) mod
256` in reverse. -/
def columnAt (cflip : Bool) (xoff p : Nat) : Nat :=
  if cflip then (((xoff : Int) - p) % 256).toNat else (xoff + p) % 256

/-- `bit4(s0 + c) xor bit4(t0 + c)` with `bit4(v) = (v div 16) mod 2` (R153). -/
def windowAt (s0 t0 c : Nat) : Bool := (s0 + c) / 16 % 2 != (t0 + c) / 16 % 2

/-- Layer `k`'s pixel at sweep position `p`; 0 where its window is closed (R142, R143). -/
def layerPixel (b : Board) (cflip : Bool) (snap : Latches) (p : Nat) (k : Fin 4) : BitVec 2 :=
  let xoff := (xoffOf snap k).toNat
  let mix := (mixOf snap k).toNat
  if windowAt (mix % 16) (mix / 16) (clocksAt cflip xoff p) then
    bgPixel b k (yselOf snap k) (BitVec.ofNat 8 (columnAt cflip xoff p))
  else 0

/-- The mixer index at sweep position `p`: one bit for each layer whose pixel is not zero (R101,
R145). -/
def mixAt (b : Board) (cflip : Bool) (snap : Latches) (p : Nat) : Nat :=
  let bit := fun k => if layerPixel b cflip snap p k = 0 then 0 else 2 ^ k.val
  bit 0 + bit 1 + bit 2 + bit 3

/-- The palette index LINE.RENDER leaves at sweep position `p` (R145 to R147): the bank, then the
number of the layer the PROM selects, then that layer's pixel. -/
def linePen (b : Board) (pbank : Nat) (cflip : Bool) (snap : Latches) (p : Nat) : Nat :=
  let sel := (mixEntry b (BitVec.ofNat 8 (mixAt b cflip snap p))).toNat % 4
  pbank * 16 + sel * 4 + (layerPixel b cflip snap p (Fin.ofNat 4 sel)).toNat

/-! ## The pixel writes of a command (R179, R181, R182) -/

/-- NEXTCODE (R180) on numbers: `+1`, or `+0x100` with the low nibble cleared, modulo 2^16. -/
def nextCodeNat (c : Nat) : Nat :=
  if c % 16 = 15 then (c + 256) % 65536 / 16 * 16 else (c + 1) % 65536

/-- The code of column `n` of a strip. -/
def stripCodeAt (code : Word) : Nat → Nat
  | 0 => code.toNat
  | n + 1 => nextCodeNat (stripCodeAt code n)

/-- A destination coordinate after the screen flip (R174): `(edge - 1) - d - size` when it is set. -/
def placedAt (flipscr : Bool) (edge : Nat) (v : BitVec 9) (size : Word) : Int :=
  let d : Int := if v.toNat ≥ edge then v.toNat - 512 else v.toNat
  if flipscr then (edge : Int) - 1 - d - size.toNat else d

/-- The pixel writes of BLT.DIRECT, in order (R179). -/
def directPlots (b : Board) (flipscr : Bool) (code : Word) (xi yi : BitVec 9) (fx fy : Bool)
    (bank : BitVec 7) (sw sh zx zy : Word) : List Plot :=
  (List.range ((sw.toNat + 15) / 16)).flatMap fun n =>
    tilePlots b (BitVec.ofNat 16 (stripCodeAt code n)) bank (fx ^^ flipscr) (fy ^^ flipscr)
      (placedAt flipscr b.params.fbW xi sw + (n * 16 * (512 - zx.toNat) / 256 : Nat))
      (placedAt flipscr b.params.fbH yi sh) zx zy

/-- The pixel writes of BLT.TMAP (`T = 16`, `M = 1`) and BLT.TMAPC (`T = 8`, `M = 2`), in order
(R181 to R184). -/
def gridPlots (b : Board) (ram : Memory Byte) (pitch mult : Nat) (flipscr : Bool) (xi yi : BitVec 9)
    (fx fy : Bool) (bank : BitVec 7) (sw sh : Word) (spx spy : BitVec 12) (zx zy : Word) : List Plot :=
  (List.range (mult * ((sh.toNat + 15) / 16))).flatMap fun j =>
    (List.range (mult * ((sw.toNat + 15) / 16))).flatMap fun n =>
      tilePlots b
        (ramRead b.params ram
          (b.params.tmBase + (spy.toNat / pitch + j) % b.params.tmRows +
            b.params.tmRows * ((spx.toNat / pitch + n) % b.params.tmCols)))
        bank (fx ^^ flipscr) (fy ^^ flipscr)
        (placedAt flipscr b.params.fbW xi sw + (n * pitch * (512 - zx.toNat) / 256 : Nat))
        (placedAt flipscr b.params.fbH yi sh + (j * pitch * (512 - zy.toNat) / 256 : Nat)) zx zy

/-- The pixel writes of one record, by its class (R104, R175): none for the two skips. -/
def recordPlots (b : Board) (ram : Memory Byte) (flipscr : Bool) (w : Command) : List Plot :=
  match classify w.sw w.sh w.zx w.zy w.tm w.cond with
  | .skip0 => []
  | .skipg => []
  | .direct => directPlots b flipscr w.code w.xi w.yi w.fx w.fy w.bank w.sw w.sh w.zx w.zy
  | .tmap =>
    gridPlots b ram 16 1 flipscr w.xi w.yi w.fx w.fy w.bank w.sw w.sh w.spx w.spy w.zx w.zy
  | .tmapc =>
    gridPlots b ram 8 2 flipscr w.xi w.yi w.fx w.fy w.bank w.sw w.sh w.spx w.spy w.zx w.zy

/-- The number of records a run executes from word address `a` (R170, R173): the whole records
below the end of RAM. -/
def recordCount (p : Params) (a : Nat) : Nat := (p.ramWords - a) / 16

/-- The pixel writes of a whole run, in order (R170, R195). -/
def runPlots (b : Board) (ram : Memory Byte) (flipscr : Bool) (a : Nat) : List Plot :=
  (List.range (recordCount b.params a)).flatMap fun n =>
    recordPlots b ram flipscr (ramRecord b.params ram (a + 16 * n))

end Sys2Proof.Machine
end

