-- ==== Sys2Proof/Certificates/Slice0/Obligations.lean ====
section
/-! DEFINITION. The statements about the model, for the provers. A statement whose right side is
`exec … = .next { s with … }` gives the operation's whole result: every field not named there is as
before. Where a rule of spec/ rests on a decision `D<n>` of spec/92_eei_decisions.md, or a clause on
a log entry of notes/assumptions/, the docstring names it. -/

open Sys2Proof Sys2Proof.Machine

/-! ## Encodings -/

/-- Decoding the encoding of a well-formed operation gives the operation back: as a record laid out
as 32 bytes in either byte order, whatever follows it, and as a host event (R91, R93, R104, R105,
R108; field places D21, D22). -/
def Obligations.EncodedOperationsDecodeBack : Prop :=
  ∀ (p : Params) (order : ByteOrder) (op : Instr) (rest : List Byte), op.wellFormed p = true →
    (∀ w, encode op = some (.record w) →
      decodeBytes order (bytesOfRecord order w ++ rest) = .ok (op, rest)) ∧
    (∀ e, encode op = some (.event e) → decodeEvent e = op)

/-- Every record and every event is an encoding of the operation it decodes to, up to bits that the
formats ignore: the operation's own encoding exists and decodes to the same operation (R93, R107). -/
def Obligations.DecodedOperationsEncode : Prop :=
  (∀ w : Command, ∃ w', encode (decodeCommand w) = some (.record w') ∧
    decodeCommand w' = decodeCommand w) ∧
  (∀ e : Event, ∃ e', encode (decodeEvent e) = some (.event e') ∧ decodeEvent e' = decodeEvent e)

/-- Every 16-word record decodes to exactly one of the five operations by the ordered test of R104,
with the fields of R93's table, and the operation is well formed (field places D21 to D23). -/
def Obligations.RecordsClassify : Prop :=
  ∀ (p : Params) (w : Command),
    let sw := w[6].toNat
    let sh := w[7].toNat
    let guard := sw < 512 ∧ sh < 256 ∧ w[10].toNat < 0x1F0 ∧ w[13].toNat < 0x1F0
    let flag := fun n => decide (w[4].toNat / 2 ^ n % 2 = 1)
    let xi := BitVec.ofNat 9 (w[2].toNat / 16)
    let yi := BitVec.ofNat 9 (w[3].toNat / 16)
    let bank := BitVec.ofNat 7 w[5].toNat
    let spx := BitVec.ofNat 12 (w[8].toNat / 16)
    let spy := BitVec.ofNat 12 (w[9].toNat / 16)
    (decodeCommand w).wellFormed p = true ∧
    decodeCommand w =
      if sw = 0 ∧ sh = 0 then .bltSkip0
      else if ¬ guard then .bltSkipg w[6] w[7] w[10] w[13]
      else if flag 3 = false then
        .bltDirect w[1] xi yi (flag 0) (flag 1) bank w[6] w[7] w[10] w[13]
      else if flag 2 = false then
        .bltTmap xi yi (flag 0) (flag 1) bank w[6] w[7] spx spy w[10] w[13]
      else .bltTmapc xi yi (flag 0) (flag 1) bank w[6] w[7] spx spy w[10] w[13]

/-- Bits that a format ignores change nothing (R107, R93): two records that agree on the bits of
R93's named fields decode to the same operation; in direct mode W8, W9 and the `cond` bit, and in the
tilemap modes W1, may differ as well. -/
def Obligations.IgnoredBitsChangeNothing : Prop :=
  ∀ w w' : Command,
    ((∀ j : Fin 16, w[j] &&& (#v[0, 0xFFFF, 0x1FF0, 0x1FF0, 0x000F, 0x007F, 0xFFFF, 0xFFFF, 0xFFF0,
        0xFFF0, 0xFFFF, 0, 0, 0xFFFF, 0, 0] : Command)[j] =
      w'[j] &&& (#v[0, 0xFFFF, 0x1FF0, 0x1FF0, 0x000F, 0x007F, 0xFFFF, 0xFFFF, 0xFFF0,
        0xFFF0, 0xFFFF, 0, 0, 0xFFFF, 0, 0] : Command)[j]) →
      decodeCommand w = decodeCommand w') ∧
    (w.tm = false →
      (∀ j : Fin 16, w[j] &&& (#v[0, 0xFFFF, 0x1FF0, 0x1FF0, 0x000B, 0x007F, 0xFFFF, 0xFFFF, 0,
        0, 0xFFFF, 0, 0, 0xFFFF, 0, 0] : Command)[j] =
      w'[j] &&& (#v[0, 0xFFFF, 0x1FF0, 0x1FF0, 0x000B, 0x007F, 0xFFFF, 0xFFFF, 0,
        0, 0xFFFF, 0, 0, 0xFFFF, 0, 0] : Command)[j]) →
      decodeCommand w = decodeCommand w') ∧
    (w.tm = true →
      (∀ j : Fin 16, w[j] &&& (#v[0, 0, 0x1FF0, 0x1FF0, 0x000F, 0x007F, 0xFFFF, 0xFFFF, 0xFFF0,
        0xFFF0, 0xFFFF, 0, 0, 0xFFFF, 0, 0] : Command)[j] =
      w'[j] &&& (#v[0, 0, 0x1FF0, 0x1FF0, 0x000F, 0x007F, 0xFFFF, 0xFFFF, 0xFFF0,
        0xFFF0, 0xFFFF, 0, 0, 0xFFFF, 0, 0] : Command)[j]) →
      decodeCommand w = decodeCommand w')

/-- Records written out in spec/95_test_vectors.md (programs P2, P3, P4) and one event of each format
decode to the operations they stand for. -/
def Obligations.SpecWordsDecode : Prop :=
  decodeCommand #v[0, 0x012E, 0x00A0, 0x0140, 0, 5, 0x30, 0x10, 0, 0, 0x100, 0, 0, 0x100, 0, 0] =
    .bltDirect 0x012E 10 20 false false 5 48 16 0x100 0x100 ∧
  decodeCommand (Vector.replicate 16 0) = .bltSkip0 ∧
  decodeCommand #v[0, 7, 0, 0, 0, 0, 0x10, 0x10, 0, 0, 0x1F0, 0, 0, 0x100, 0, 0] =
    .bltSkipg 16 16 0x1F0 0x100 ∧
  decodeCommand #v[0, 0x40, 0x1FC0, 0x0640, 1, 0x7F, 1, 1, 0, 0, 0x180, 0, 0, 0x80, 0, 0] =
    .bltDirect 0x40 508 100 true false 0x7F 1 1 0x180 0x80 ∧
  decodeCommand #v[0, 0, 0x0640, 0x0320, 8, 1, 0x20, 0x20, 0xFF00, 0x1F00, 0x100, 0, 0, 0x100, 0, 0] =
    .bltTmap 100 50 false false 1 32 32 4080 496 0x100 0x100 ∧
  decodeCommand #v[0, 0, 0x0C80, 0x0640, 0xC, 3, 0x10, 0x10, 0x80, 0, 0x180, 0, 0, 0x180, 0, 0] =
    .bltTmapc 200 100 false false 3 16 16 8 0 0x180 0x180 ∧
  decodeEvent (.write .latch 8 0x4F 20) = .latchW 8 0x4F 20 ∧
  decodeEvent (.write .ram 0x7FF6 16 0) = .ramW 0x7FF6 16 ∧
  decodeEvent (.flush (-1)) = .flush (-1)

/-! ## The machine -/

/-- A step runs the decoded event: on a well-formed configuration the oldest pending event leaves the
trace and its operation is executed, whole (R7, R261; the pending trace is the model's, log 7). With
no event pending nothing changes, and on an ill-formed configuration a step faults: both are the
model's choice (logs 7 and 8). -/
def Obligations.StepRunsOldestEvent : Prop :=
  ∀ s : State,
    (∀ (e : Event) (rest : List Event), boardWf s.cfg = true → s.trace = e :: rest →
      (decodeEvent e).wellFormed s.cfg.params = true →
      step s = exec (decodeEvent e) { s with trace := rest }) ∧
    (boardWf s.cfg = true → s.trace = [] → step s = .next s) ∧
    (boardWf s.cfg = false → step s = .fault .configuration)

/-- EXEC.CMD runs the decoded record: where the 32 bytes of RAM at CMDPTR decode to an operation, the
outcome is that of CMD.FETCH, then CMD.DECODE, then that operation, and it is a next state (R175,
R104; byte order R64; that a drawing operation loads its registers again is log 16). -/
def Obligations.ExecCmdRunsDecodedRecord : Prop :=
  ∀ s : State, s.tbl.cmdptr + 16 ≤ s.cfg.params.ramWords →
    ∃ op t,
      decodeBytes s.cfg.params.ramByteOrder
          ((List.range 32).map fun j => memRead 0 s.tbl.ram (2 * s.tbl.cmdptr + j)) = .ok (op, []) ∧
      exec .execCmd s = .next t ∧
      andThen (exec .cmdFetch s) (fun s1 => andThen (exec .cmdDecode s1) (exec op)) = .next t

/-- Reset (R45, R260; D35): nothing is materialised and no frame is open, so FRAME.START completes and
FRAME.END and SNAPSHOT 0 are refused. The zeros of every unspecified register are the model's (logs 2
to 6) and no part of this. -/
def Obligations.ResetState : Prop :=
  State.reset.slc.cur = -1 ∧ State.reset.slc.inframe = false ∧
  exec .frameEnd State.reset = .refused .frameOrder ∧
  exec (.snapshot 0) State.reset = .refused .snapshotUnflushed ∧
  exec .frameStart State.reset =
    .next { State.reset with slc := { State.reset.slc with cur := -1, inframe := true } }

/-- The invariant holds after reset. That the registers and memories of `State.reset` are in range
rests on the model's zeros (logs 2 to 6), CUR = -1 apart (R45), and that its configuration is well
formed on the model's default parameters and blank tables (logs 9 and 10). -/
def Obligations.ResetInvariant : Prop := Inv State.reset

/-- Every operation, of the host, of the sequencers and of the assembler, keeps the invariant: cursor,
bank and raster position in range (R25, R28, R32), RAW and ACC in format ACC (R101), OUT entries of
PBANK_BITS+4 bits (R34), pixels with bits 15:11 zero (R100), every memory canonical and in range. -/
def Obligations.OperationsKeepInvariant : Prop :=
  ∀ (op : Instr) (s s' : State), Inv s → op.wellFormed s.cfg.params = true →
    exec op s = .next s' → Inv s'

/-- Every step keeps the invariant, whatever the pending events. -/
def Obligations.StepKeepsInvariant : Prop :=
  ∀ s s' : State, Inv s → step s = .next s' → Inv s'

/-- The block raises no exception (R240, R242): in every state with the invariant, where the oldest
pending event is well formed (one always is but a RAM.W beyond RAM, a FLUSH below -1 or a SNAPSHOT
beyond the last line), a step answers a next state or one of the three refusals of R242, and a
refusal comes only of FRAME.START, FLUSH, SNAPSHOT and FRAME.END. -/
def Obligations.StepNeverFaults : Prop :=
  ∀ s : State, Inv s → (∀ e, s.trace.head? = some e → (decodeEvent e).wellFormed s.cfg.params = true) →
    isSafe (step s) = true ∧
    (∀ port o d n rest, s.trace = .write port o d n :: rest → ∃ t, step s = .next t)

/-- The configuration never changes (R43; that it is a field of State is log 1) and no operation
touches the pending events (the field `trace` is the model's, log 7). -/
def Obligations.ConfigurationNeverChanges : Prop :=
  ∀ (op : Instr) (s t : State), exec op s = .next t → t.cfg = s.cfg ∧ t.trace = s.trace

/-- SLC and TBL share no state (R8): an operation of SLC leaves TBL as it is and its outcome depends
on SLC and the configuration only; any other operation leaves SLC as it is and its outcome depends on
TBL, the configuration and the assembler's origin only. -/
def Obligations.UnitsShareNoState : Prop :=
  ∀ (op : Instr) (s t : State), s.cfg = t.cfg →
    (actsOnSlc op = true → s.slc = t.slc →
      agree (fun a b => a.slc = b.slc ∧ a.tbl = s.tbl ∧ b.tbl = t.tbl) (exec op s) (exec op t)) ∧
    (actsOnSlc op = false → s.tbl = t.tbl → s.origin = t.origin →
      agree (fun a b => a.tbl = b.tbl ∧ a.slc = s.slc ∧ b.slc = t.slc) (exec op s) (exec op t))

/-- Only RAM.W, and the assembler lines that stand for it, write RAM: TBL reads it and never writes
it (R38, R74). -/
def Obligations.RamWrittenByHostOnly : Prop :=
  ∀ (op : Instr) (s t : State), writesRam op = false → exec op s = .next t →
    ∀ a, memRead 0 t.tbl.ram a = memRead 0 s.tbl.ram a

/-- Persistence (R191): no operation but a list run, a drawing command and their parts changes a
pixel of FB; and a run leaves every pixel that no write of it hits (R39). -/
def Obligations.FrameBufferPersists : Prop :=
  (∀ (op : Instr) (s t : State), mayDraw op = false → exec op s = .next t →
    ∀ x y, fbRead t.tbl x y = fbRead s.tbl x y) ∧
  (∀ (v : Nat) (s t : State) (x y : Nat), exec (.blitgoW v) s = .next t →
    (∀ q ∈ runPlots s.cfg s.tbl.ram s.tbl.flipscr s.tbl.gfxlist.toNat, ¬ (q.x = x ∧ q.y = y)) →
    fbRead t.tbl x y = fbRead s.tbl x y)

/-! ## Host writes to SLC -/

/-- LATCH.W (R121; D2, D6, D8): the clamped line's predecessors that are not yet materialised take the
sixteen old latches, the cursor moves up to the line before, the latch takes the low 8 bits of the
data, and nothing else changes. -/
def Obligations.LatchWrite : Prop :=
  ∀ (idx : Fin 16) (v n : Nat) (s : State),
    let line := min n (s.cfg.params.screenH - 1)
    ∃ t, exec (.latchW idx v n) s = .next t ∧
      (∀ j : Fin 16, t.slc.latch[j].toNat = if j = idx then v % 256 else s.slc.latch[j].toNat) ∧
      t.slc.cur = max s.slc.cur ((line : Int) - 1) ∧
      (∀ l : Nat, tlRead t.slc l =
        if s.slc.cur < l ∧ l < line then s.slc.latch else tlRead s.slc l) ∧
      t = { s with
        slc := { s.slc with latch := t.slc.latch, cur := t.slc.cur, tl := t.slc.tl } }

/-- PBANK.W, CFLIP.W, GFXLIST.W and FLIPSCR.W store the low bits of the data, of the register's width,
and do nothing else (R122, R123, R125, R126; D9, D15, D17, D20). -/
def Obligations.ControlRegisterWrites : Prop :=
  ∀ (v : Nat) (s : State),
    exec (.pbankW v) s =
      .next { s with slc := { s.slc with pbank := v % 2 ^ s.cfg.params.pbankBits } } ∧
    exec (.cflipW v) s = .next { s with slc := { s.slc with cflip := decide (v % 2 = 1) } } ∧
    exec (.gfxlistW v) s =
      .next { s with tbl := { s.tbl with gfxlist := BitVec.ofNat 16 (v % 65536) } } ∧
    exec (.flipscrW v) s = .next { s with tbl := { s.tbl with flipscr := decide (v % 2 = 1) } }

/-- CBANK.W, whole (R124): the event of port P_CBANK; the register takes bits 7:0 of the data and
nothing else changes; and no other operation reads it: with any other value there, every operation
but CBANK.W has the same outcome, CBANK itself apart. -/
def Obligations.CbankWrite : Prop :=
  (∀ operand v n : Nat, decodeEvent (.write .cbank operand v n) = .cbankW v) ∧
  (∀ (v : Nat) (s : State), ∃ c : Byte, c.toNat = v % 256 ∧
    exec (.cbankW v) s = .next { s with slc := { s.slc with cbank := c } }) ∧
  (∀ (op : Instr) (c : Byte) (s : State), (∀ v, op ≠ .cbankW v) →
    agree (fun a b => b = { a with slc := { a.slc with cbank := c } })
      (exec op s) (exec op { s with slc := { s.slc with cbank := c } }))

/-! ## Frame bookkeeping -/

/-- FRAME.START (R129, R120; D7, D39): outside a frame the cursor goes back to -1 and a frame is open;
inside one it is refused. -/
def Obligations.FrameStart : Prop :=
  ∀ s : State,
    (s.slc.inframe = false →
      exec .frameStart s = .next { s with slc := { s.slc with cur := -1, inframe := true } }) ∧
    (s.slc.inframe = true → exec .frameStart s = .refused .frameOrder)

/-- FLUSH and FLUSH.ALL (R130, R110; D7, D8): up to the target, which is the last line for -1 and else
the clamped operand, every line not yet materialised takes the latches; a target below the cursor is
refused. -/
def Obligations.FlushResult : Prop :=
  ∀ (t : Int) (s : State), -1 ≤ t →
    let last := (s.cfg.params.screenH : Int) - 1
    let target := if t = -1 then last else min t last
    (s.slc.cur ≤ target →
      ∃ s', exec (.flush t) s = .next s' ∧ s'.slc.cur = target ∧
        (∀ l : Nat, tlRead s'.slc l =
          if s.slc.cur < l ∧ (l : Int) ≤ target then s.slc.latch else tlRead s.slc l) ∧
        s' = { s with slc := { s.slc with cur := s'.slc.cur, tl := s'.slc.tl } }) ∧
    (target < s.slc.cur → exec (.flush t) s = .refused .flushBackwards) ∧
    exec .flushAll s = exec (.flush (-1)) s ∧
    (s.slc.cur ≤ last → ∃ s', exec .flushAll s = .next s' ∧ s'.slc.cur = last)

/-- SNAPSHOT (R131; D8): a materialised line's sixteen bytes are returned, in `answer` (log 15), and
nothing of the block changes; a line beyond the cursor is refused. -/
def Obligations.SnapshotResult : Prop :=
  ∀ (l : Nat) (s : State),
    ((l : Int) ≤ s.slc.cur → exec (.snapshot l) s = .next { s with answer := tlRead s.slc l }) ∧
    (s.slc.cur < l → exec (.snapshot l) s = .refused .snapshotUnflushed)

/-- FRAME.END on SLC (R132, R140, R150; D2, D39; steps 3 and 4 are adjacent units', log 21): inside a
frame it completes; the frame is closed, every line is materialised, every visible line of OUT holds
the closed form of R153 and R154 from its own snapshot, PBANK and CFLIP (a place outside BG gives the
free value of log 35), the other lines of OUT keep what they held, and the host's registers, CBANK and all of TBL are untouched. Outside a frame it is
refused. -/
def Obligations.FrameEnd : Prop :=
  ∀ s : State,
    (s.slc.inframe = true → s.slc.cur < s.cfg.params.screenH → s.cfg.params.visYMax < s.cfg.params.screenH →
      ∃ t, exec .frameEnd s = .next t ∧
        t.slc.inframe = false ∧ t.slc.cur = (s.cfg.params.screenH : Int) - 1 ∧
        (∀ l : Nat, tlRead t.slc l =
          if s.slc.cur < l ∧ l < s.cfg.params.screenH then s.slc.latch else tlRead s.slc l) ∧
        (∀ y p : Nat, outRead t.slc y p =
          if s.cfg.params.visYMin ≤ y ∧ y ≤ s.cfg.params.visYMax ∧ p < 384 then
            linePen s.cfg s.slc.pbank s.slc.cflip (tlRead t.slc y) p
          else outRead s.slc y p) ∧
        t = { s with
          slc := { t.slc with
            latch := s.slc.latch
            pbank := s.slc.pbank
            cflip := s.slc.cflip
            cbank := s.slc.cbank } }) ∧
    (s.slc.inframe = false → exec .frameEnd s = .refused .frameOrder)

/-- The staircase law (R133): after `LATCH.W i, V @S` above the cursor, and any port writes, FLUSH and
SNAPSHOT events among which no write to register `i` has a line up to `S+K`, a FLUSH.ALL leaves `V`
in register `i` of every snapshot from `S` to `S+K`. -/
def Obligations.StaircaseLaw : Prop :=
  ∀ (s t : State) (idx : Fin 16) (v line count : Nat) (es : List Event),
    s.slc.cur < line → line + count < s.cfg.params.screenH →
    (∀ e ∈ es, e ≠ .frameStart ∧ e ≠ .frameEnd ∧
      ∀ d n, decodeEvent e = .latchW idx d n → line + count < min n (s.cfg.params.screenH - 1)) →
    andThen (exec (.latchW idx v line) s) (fun s1 => andThen (runEvents es s1) (exec .flushAll)) =
      .next t →
    ∀ l, line ≤ l → l ≤ line + count → (tlRead t.slc l)[idx] = BitVec.ofNat 8 v

/-- The closed form of the timeline (R136). In a frame of any port writes, FLUSH and SNAPSHOT events in
which every LATCH.W has its clamped line above the cursor when applied, once a FLUSH.ALL has completed,
each register of each line's snapshot is that of the last LATCH.W to it with clamped line up to that
line, or, without one, what the register held at FRAME.START. A frame of well-formed port writes whose
latch writes come in non-decreasing line order meets that premise and completes. -/
def Obligations.TimelineClosedForm : Prop :=
  ∀ (s : State) (es : List Event), s.slc.inframe = false →
    let started : State := { s with slc := { s.slc with cur := -1, inframe := true } }
    let frame := andThen (exec .frameStart s) fun s1 =>
      andThen (runEvents es s1) (exec .flushAll)
    ((∀ e ∈ es, e ≠ .frameStart ∧ e ≠ .frameEnd) → latchesAhead es started →
      ∀ t, frame = .next t →
        t.slc.cur = (s.cfg.params.screenH : Int) - 1 ∧
        ∀ (l : Nat) (idx : Fin 16), l < s.cfg.params.screenH →
          (tlRead t.slc l)[idx] =
            (((es.filterMap latchWriteOf).filter fun a =>
                decide (a.1 = idx ∧ min a.2.2 (s.cfg.params.screenH - 1) ≤ l)).getLast?.map
              fun a => BitVec.ofNat 8 a.2.1).getD s.slc.latch[idx]) ∧
    ((∀ e ∈ es, isPortWrite e = true ∧ (decodeEvent e).wellFormed s.cfg.params = true) →
      (es.filterMap latchWriteOf).Pairwise (fun a b => a.2.2 ≤ b.2.2) →
      latchesAhead es started ∧ ∃ t, frame = .next t)

/-- No rule reads a snapshot that the frame has not materialised (R46, R28): of two states that differ
only in snapshots beyond the cursor, every operation has the same outcome, again up to snapshots
beyond the cursor. -/
def Obligations.UnmaterialisedLinesUnread : Prop :=
  ∀ (op : Instr) (s t : State),
    let same := fun a b : State =>
      b = { a with slc := { a.slc with tl := b.slc.tl } } ∧
      ∀ l : Nat, (l : Int) ≤ a.slc.cur → tlRead a.slc l = tlRead b.slc l
    same s t → agree same (exec op s) (exec op t)

/-! ## The compositor -/

/-- LINE.INIT (R141; D10, D3, D4): from a materialised line's snapshot every working register is
loaded, the presets with bit 4 zero, and nothing else changes; a line beyond the cursor is refused. -/
def Obligations.LineInit : Prop :=
  ∀ (y : Nat) (s : State),
    ((y : Int) ≤ s.slc.cur →
      ∃ t, exec (.lineInit y) s = .next t ∧ t.slc.y = y ∧ t.slc.p = 0 ∧
        (∀ k : Fin 4,
          t.slc.xc[k] = (tlRead s.slc y)[k.val] ∧ t.slc.row[k] = (tlRead s.slc y)[4 + k.val] ∧
          t.slc.st[k].toNat = (tlRead s.slc y)[8 + k.val].toNat % 16 ∧
          t.slc.sp[k].toNat = (tlRead s.slc y)[8 + k.val].toNat / 16) ∧
        t = { s with
          slc := { s.slc with
            y := t.slc.y, p := t.slc.p, xc := t.slc.xc, row := t.slc.row, st := t.slc.st
            sp := t.slc.sp } }) ∧
    (s.slc.cur < y → exec (.lineInit y) s = .refused .snapshotUnflushed)

/-- LAYER.EN (R142, R42): it computes the layer's enable, true exactly when bit 4 of its start counter
and bit 4 of its stop counter differ; no state of the block changes, since the predicate is stored
nowhere; the model reports it in `enabled`, which no operation reads (log 34). -/
def Obligations.LayerEnable : Prop :=
  ∀ (k : Fin 4) (s : State),
    exec (.layerEn k) s = .next { s with
      enabled := some (decide (s.slc.st[k].toNat / 16 ≠ s.slc.sp[k].toNat / 16)) }

/-- LAYER.FETCH (R143, R42; D11, D12; RAW is a field, log 14): a layer enabled by its counters as they
stand contributes its pixel at bits 2k+1:2k and the flag "not zero" at bit 8+k, a disabled one nothing;
the other layers' contributions and everything else are unchanged. The pixel is that of BG at the row
and column, neither reduced (R29, R9); where BG_ROWS or BG_COLS (256 by default, log 36) is so small that
the place lies outside the layer it is the free value of log 35. -/
def Obligations.LayerFetch : Prop :=
  ∀ (k : Fin 4) (s : State),
    let rows := s.cfg.params.bgRows
    let cols := s.cfg.params.bgCols
    let r := s.slc.row[k]
    let c := s.slc.xc[k]
    let px := (if r.toNat < rows ∧ c.toNat < cols then
        memRead 0 s.cfg.bg (rows * cols * k.val + cols * r.toNat + c.toNat)
      else Config.bgBeyond rows cols s.cfg.bg k r c).toNat
    ∃ t, exec (.layerFetch k) s = .next t ∧
      (∀ j : Fin 4, t.slc.raw[j].toNat =
        if j = k then
          (if s.slc.st[k].toNat / 16 ≠ s.slc.sp[k].toNat / 16 then
            px * 4 ^ k.val + (if px = 0 then 0 else 2 ^ (8 + k.val)) else 0)
        else s.slc.raw[j].toNat) ∧
      t = { s with slc := { s.slc with raw := t.slc.raw } }

/-- MIX.OR, whole (R144): ACC becomes the bitwise OR of the four RAW values and nothing else changes;
where each RAW keeps to its own bits of format ACC the OR is a concatenation, lane `k` of ACC being
RAW[k]; all zero gives zero. -/
def Obligations.MixOr : Prop :=
  ∀ s : State,
    ∃ t, exec .mixOr s = .next t ∧
      t = { s with slc := { s.slc with acc := t.slc.acc } } ∧
      (∀ n : Nat, t.slc.acc.getLsbD n = true ↔ ∃ k : Fin 4, s.slc.raw[k].getLsbD n = true) ∧
      ((∀ k : Fin 4, s.slc.raw[k] &&& ~~~ laneMask k = 0#16) →
        ∀ k : Fin 4, t.slc.acc &&& laneMask k = s.slc.raw[k]) ∧
      ((∀ k : Fin 4, s.slc.raw[k] = 0#16) → t.slc.acc = 0#16)

/-- MIX.LOOKUP (R145; D13): LOOKUP becomes bits 1:0 of the PROM entry that the high byte of ACC names;
nothing else changes. -/
def Obligations.MixLookup : Prop :=
  ∀ s : State,
    ∃ t, exec .mixLookup s = .next t ∧
      t.slc.lookup.toNat =
        (s.cfg.mixprom[s.slc.acc.toNat / 256]'(by have := s.slc.acc.isLt; omega)).toNat % 4 ∧
      t = { s with slc := { s.slc with lookup := t.slc.lookup } }

/-- CIDX, whole (R146): the colour index is LOOKUP above the two bits of ACC that LOOKUP selects; where
they are 0 it is the selected layer's colour 0; nothing else changes. -/
def Obligations.ColourIndex : Prop :=
  ∀ s : State,
    ∃ t, exec .cidx s = .next t ∧
      t.slc.cidx.toNat =
        s.slc.lookup.toNat * 4 + s.slc.acc.toNat / 2 ^ (2 * s.slc.lookup.toNat) % 4 ∧
      (s.slc.acc.toNat / 2 ^ (2 * s.slc.lookup.toNat) % 4 = 0 →
        t.slc.cidx.toNat = s.slc.lookup.toNat * 4) ∧
      t = { s with slc := { s.slc with cidx := t.slc.cidx } }

/-- PAL (R147; D15, D42): the pen is the palette bank above the colour index, it is stored at the
current line and position of OUT, and nothing else changes. -/
def Obligations.PaletteResolve : Prop :=
  ∀ s : State,
    ∃ t, exec .pal s = .next t ∧ t.slc.pen = s.slc.pbank * 16 + s.slc.cidx.toNat ∧
      (∀ y p, outRead t.slc y p =
        if y = s.slc.y ∧ p = s.slc.p then t.slc.pen else outRead s.slc y p) ∧
      t = { s with slc := { s.slc with pen := t.slc.pen, out := t.slc.out } }

/-- STEP.FWD (R148; run alone it steps forward whatever CFLIP holds, where the rule speaks of CFLIP = 0
only, the model's choice, log 33): the layer's horizontal counter goes up by one modulo 256; if its new low 5
bits are 0, both its window counters go up by one modulo 32; the other layers and everything else are
unchanged. The rule's example: from 0x1F, 0x0F, 0x08 the layer's enable predicate becomes true. -/
def Obligations.StepForward : Prop :=
  ∀ (k : Fin 4) (s : State),
    ∃ t, exec (.stepFwd k) s = .next t ∧
      (∀ j : Fin 4,
        let clock := j = k ∧ (s.slc.xc[k].toNat + 1) % 32 = 0
        t.slc.xc[j].toNat = (if j = k then (s.slc.xc[j].toNat + 1) % 256 else s.slc.xc[j].toNat) ∧
        t.slc.st[j].toNat = (if clock then (s.slc.st[j].toNat + 1) % 32 else s.slc.st[j].toNat) ∧
        t.slc.sp[j].toNat = (if clock then (s.slc.sp[j].toNat + 1) % 32 else s.slc.sp[j].toNat)) ∧
      (s.slc.xc[k] = 0x1F#8 → s.slc.st[k] = 0x0F#5 → s.slc.sp[k] = 0x08#5 →
        layerEnabled s.slc.st[k] s.slc.sp[k] = false ∧ layerEnabled t.slc.st[k] t.slc.sp[k] = true) ∧
      t = { s with slc := { s.slc with xc := t.slc.xc, st := t.slc.st, sp := t.slc.sp } }

/-- STEP.REV (R149; D14; run alone it steps backward whatever CFLIP holds, where the rule speaks of
CFLIP = 1 only, the model's choice, log 33): the layer's horizontal counter goes down by one modulo 256; if it left low
bits 0 for low bits 31, both its window counters go up by one modulo 32; the other layers and
everything else are unchanged. -/
def Obligations.StepReverse : Prop :=
  ∀ (k : Fin 4) (s : State),
    ∃ t, exec (.stepRev k) s = .next t ∧
      (∀ j : Fin 4,
        let clock := j = k ∧ s.slc.xc[k].toNat % 32 = 0
        t.slc.xc[j].toNat = (if j = k then (s.slc.xc[j].toNat + 255) % 256 else s.slc.xc[j].toNat) ∧
        t.slc.st[j].toNat = (if clock then (s.slc.st[j].toNat + 1) % 32 else s.slc.st[j].toNat) ∧
        t.slc.sp[j].toNat = (if clock then (s.slc.sp[j].toNat + 1) % 32 else s.slc.sp[j].toNat)) ∧
      t = { s with slc := { s.slc with xc := t.slc.xc, st := t.slc.st, sp := t.slc.sp } }

/-- The closed forms of the counters (R153, R154, R152; D4, D14), in each direction whatever CFLIP holds
(that a step run alone does not look at CFLIP is the model's choice, log 33): after LINE.INIT and `p` steps in one
direction, a layer's column, its two window counters and its window are those of the closed form, and
within one sweep the window is the interval of clock counts between the two counters' wraps. -/
def Obligations.CounterClosedForm : Prop :=
  ∀ (s : State) (y p : Nat) (k : Fin 4) (rev : Bool), (y : Int) ≤ s.slc.cur →
    let xoff := (xoffOf (tlRead s.slc y) k).toNat
    let s0 := (mixOf (tlRead s.slc y) k).toNat % 16
    let t0 := (mixOf (tlRead s.slc y) k).toNat / 16
    let c := clocksAt rev xoff p
    ∃ t, andThen (exec (.lineInit y) s)
        (forEach (fun _ => exec (if rev then .stepRev k else .stepFwd k)) (List.range p)) = .next t ∧
      t.slc.xc[k].toNat = columnAt rev xoff p ∧
      t.slc.st[k].toNat = (s0 + c) % 32 ∧ t.slc.sp[k].toNat = (t0 + c) % 32 ∧
      layerEnabled t.slc.st[k] t.slc.sp[k] = windowAt s0 t0 c ∧
      (p < 384 →
        (layerEnabled t.slc.st[k] t.slc.sp[k] = true ↔
          min (16 - s0) (16 - t0) ≤ c ∧ c < max (16 - s0) (16 - t0)))

/-- LINE.RENDER (R150, R153, R154; D10 to D15): a materialised line is rendered; each of its 384
entries of OUT is the closed form of the line's snapshot, PBANK and CFLIP (a place outside BG gives the
free value of log 35), every other entry is unchanged, and only working registers change besides; a line beyond the cursor is refused. -/
def Obligations.LineRender : Prop :=
  ∀ (y : Nat) (s : State),
    ((y : Int) ≤ s.slc.cur →
      ∃ t, exec (.lineRender y) s = .next t ∧
        (∀ y' p : Nat, outRead t.slc y' p =
          if y' = y ∧ p < 384 then linePen s.cfg s.slc.pbank s.slc.cflip (tlRead s.slc y) p
          else outRead s.slc y' p) ∧
        t.slc.y = y ∧
        t = { s with
          slc := { t.slc with
            latch := s.slc.latch, pbank := s.slc.pbank, cflip := s.slc.cflip, cbank := s.slc.cbank
            tl := s.slc.tl, cur := s.slc.cur, inframe := s.slc.inframe } }) ∧
    (s.slc.cur < y → exec (.lineRender y) s = .refused .snapshotUnflushed)

/-- BG.FRAME (R140; D2): with every visible line materialised, every visible line of OUT is rendered
(a place outside BG gives the free value of log 35) and the others keep what they held; with one beyond the cursor it is refused. R140 requires
`CUR = SCREEN_H-1`: completing with a lower cursor, and the refusal, are the model's choice (log 32). -/
def Obligations.BackgroundFrame : Prop :=
  ∀ s : State,
    let p := s.cfg.params
    ((p.visYMax : Int) ≤ s.slc.cur →
      ∃ t, exec .bgFrame s = .next t ∧
        (∀ y x : Nat, outRead t.slc y x =
          if p.visYMin ≤ y ∧ y ≤ p.visYMax ∧ x < 384 then
            linePen s.cfg s.slc.pbank s.slc.cflip (tlRead s.slc y) x
          else outRead s.slc y x) ∧
        t = { s with
          slc := { t.slc with
            latch := s.slc.latch, pbank := s.slc.pbank, cflip := s.slc.cflip, cbank := s.slc.cbank
            tl := s.slc.tl, cur := s.slc.cur, inframe := s.slc.inframe } }) ∧
    (p.visYMin ≤ p.visYMax → s.slc.cur < p.visYMax → exec .bgFrame s = .refused .snapshotUnflushed)

/-- Determinism (R156, R24): a rendered line is a function of the first twelve bytes of its snapshot,
PBANK, CFLIP, BG with its dimensions BG_ROWS and BG_COLS, and MIXPROM; nothing else of either state
enters, and no other parameter. That a place outside BG answers by BG and the place alone is the
model's choice (log 35). -/
def Obligations.RenderingIsDeterministic : Prop :=
  ∀ (y : Nat) (s t : State), (y : Int) ≤ s.slc.cur → (y : Int) ≤ t.slc.cur →
    s.cfg.params.bgRows = t.cfg.params.bgRows → s.cfg.params.bgCols = t.cfg.params.bgCols →
    s.cfg.bg = t.cfg.bg → s.cfg.mixprom = t.cfg.mixprom → s.slc.pbank = t.slc.pbank →
    s.slc.cflip = t.slc.cflip →
    (∀ j : Fin 16, j.val < 12 → (tlRead s.slc y)[j] = (tlRead t.slc y)[j]) →
    ∃ s' t', exec (.lineRender y) s = .next s' ∧ exec (.lineRender y) t = .next t' ∧
      ∀ p, p < 384 → outRead s'.slc y p = outRead t'.slc y p

/-! ## The blitter -/

/-- RAM.W (R128, R64; log 11): below RAM_WORDS the word takes the low 16 bits of the data, its two
bytes and no other byte of RAM change, and nothing else does. -/
def Obligations.RamWrite : Prop :=
  ∀ (a v : Nat) (s : State), a < s.cfg.params.ramWords →
    ∃ t, exec (.ramW a v) s = .next t ∧
      (ramRead s.cfg.params t.tbl.ram a).toNat = v % 65536 ∧
      (∀ c, c ≠ 2 * a → c ≠ 2 * a + 1 → memRead 0 t.tbl.ram c = memRead 0 s.tbl.ram c) ∧
      t = { s with tbl := { s.tbl with ram := t.tbl.ram } }

/-- The stops of the blitter's operations, each by name. An access to a word of RAM that does not
exist faults (R62, R128, R173; log 13): RAM.W at or above RAM_WORDS, a `.tmap` line whose entry lies
there (R110, R183), and CMD.FETCH, EXEC.CMD and the `.cmd` lines of a record that does not lie below it. An operation whose operands no record gives is refused (R104, R185; log 17): the drawing
commands outside their class, and ZBLIT with a zoom word at or above 0x1F0. -/
def Obligations.BlitterStops : Prop :=
  (∀ s : State,
    (∀ a v, s.cfg.params.ramWords ≤ a → exec (.ramW a v) s = .fault .ramAddress) ∧
    (∀ r c code, s.cfg.params.ramWords ≤ s.cfg.params.tmBase + r + s.cfg.params.tmRows * c →
      exec (.tmapEntry r c code) s = .fault .ramAddress) ∧
    (s.cfg.params.ramWords < s.tbl.cmdptr + 16 →
      exec .cmdFetch s = .fault .ramAddress ∧ exec .execCmd s = .fault .ramAddress) ∧
    (s.cfg.params.ramWords < s.origin + 16 →
      exec .cmdOff s = .fault .ramAddress ∧
      ∀ mode args, exec (.cmdMode mode args) s = .fault .ramAddress)) ∧
  (∀ (code : Word) (xi yi : BitVec 9) (fx fy : Bool) (bank : BitVec 7) (sw sh : Word)
    (spx spy : BitVec 12) (zx zy : Word) (x y : Int) (s : State),
    ((sw.toNat = 0 ∧ sh.toNat = 0) ∨ 512 ≤ sw.toNat ∨ 256 ≤ sh.toNat ∨ 0x1F0 ≤ zx.toNat ∨
        0x1F0 ≤ zy.toNat →
      exec (.bltDirect code xi yi fx fy bank sw sh zx zy) s = .refused .wrongClass ∧
      exec (.bltTmap xi yi fx fy bank sw sh spx spy zx zy) s = .refused .wrongClass ∧
      exec (.bltTmapc xi yi fx fy bank sw sh spx spy zx zy) s = .refused .wrongClass) ∧
    (0x1F0 ≤ zx.toNat ∨ 0x1F0 ≤ zy.toNat →
      exec (.zblit code bank fx fy x y zx zy) s = .refused .wrongClass))

/-- CMD.FETCH, whole (R171): word `j` of W becomes `RAM[CMDPTR + j]` for all sixteen, the ignored ones
too, and nothing else changes; the run's loop condition is that all sixteen lie below RAM_WORDS. -/
def Obligations.CommandFetch : Prop :=
  ∀ s : State, s.tbl.cmdptr + 16 ≤ s.cfg.params.ramWords →
    ∃ t, exec .cmdFetch s = .next t ∧
      (∀ j : Fin 16, t.tbl.w[j] = ramRead s.cfg.params s.tbl.ram (s.tbl.cmdptr + j.val)) ∧
      t = { s with tbl := { s.tbl with w := t.tbl.w } }

/-- CMD.DECODE (R172, R176; D21, D23): every field of W goes to its register, the destination
coordinates less 512 at or beyond the buffer's edge; nothing else changes. -/
def Obligations.CommandDecode : Prop :=
  ∀ s : State,
    let w := s.tbl.w
    let xi := w[2].toNat / 16 % 512
    let yi := w[3].toNat / 16 % 512
    exec .cmdDecode s = .next { s with
      tbl := { s.tbl with
        code := w[1]
        dx := if s.cfg.params.fbW ≤ xi then (xi : Int) - 512 else xi
        dy := if s.cfg.params.fbH ≤ yi then (yi : Int) - 512 else yi
        flipx := decide (w[4].toNat % 2 = 1)
        flipy := decide (w[4].toNat / 2 % 2 = 1)
        cond := decide (w[4].toNat / 4 % 2 = 1)
        tmap := decide (w[4].toNat / 8 % 2 = 1)
        bank := BitVec.ofNat 7 (w[5].toNat % 128)
        sw := w[6]
        sh := w[7]
        spx := BitVec.ofNat 12 (w[8].toNat / 16)
        spy := BitVec.ofNat 12 (w[9].toNat / 16)
        zx := w[10]
        zy := w[13] } }

/-- BLT.FLIPADJ (R174; D29): with FLIPSCR set the destination is reflected and both flip flags are
inverted, with it clear nothing changes; applied twice it restores the command. -/
def Obligations.FlipAdjust : Prop :=
  ∀ s : State,
    (s.tbl.flipscr = false → exec .bltFlipadj s = .next s) ∧
    (s.tbl.flipscr = true →
      exec .bltFlipadj s = .next { s with
        tbl := { s.tbl with
          dx := (s.cfg.params.fbW : Int) - 1 - s.tbl.dx - s.tbl.sw.toNat
          dy := (s.cfg.params.fbH : Int) - 1 - s.tbl.dy - s.tbl.sh.toNat
          flipx := !s.tbl.flipx
          flipy := !s.tbl.flipy } }) ∧
    andThen (exec .bltFlipadj s) (exec .bltFlipadj) = .next s

/-- NEXTCODE (R180; the result is kept in `stripCode`, log 18): one more, or, when the low nibble is
0xF, 0x100 more with that nibble cleared, modulo 2^16; the rollover never changes bits 7:4. -/
def Obligations.NextCode : Prop :=
  ∀ (c : Word) (s : State),
    ∃ r : Word, exec (.nextcode c) s = .next { s with tbl := { s.tbl with stripCode := r } } ∧
      r.toNat = (if c.toNat % 16 = 15 then (c.toNat + 256) % 65536 / 16 * 16 else (c.toNat + 1) % 65536) ∧
      (c.toNat % 16 = 15 → r.toNat / 16 % 16 = c.toNat / 16 % 16)

/-- FB.WRITE (R196; D25, D38): a pixel inside the buffer takes the value and every other pixel keeps
its own; a pixel outside is dropped; nothing else changes. -/
def Obligations.FrameBufferWrite : Prop :=
  ∀ (x y : Int) (v : Word) (s : State),
    ∃ t, exec (.fbWrite x y v) s = .next t ∧
      (∀ x' y' : Nat, fbRead t.tbl x' y' =
        if x = x' ∧ y = y' ∧ x' < s.cfg.params.fbW ∧ y' < s.cfg.params.fbH then v
        else fbRead s.tbl x' y') ∧
      t = { s with tbl := { s.tbl with fb := t.tbl.fb } }

/-- ZBLIT (R185 to R190; D24, D26, D29, D33, D37): every pixel of the buffer inside the tile's scaled
footprint takes the bank above the nearest source pixel's pen, flipped as asked, unless that pen is
the transparent one; every other pixel keeps its own; nothing else changes. -/
def Obligations.ZoomBlit : Prop :=
  ∀ (code : Word) (bank : BitVec 7) (fx fy : Bool) (x y : Int) (zx zy : Word) (s : State),
    zx.toNat < 0x1F0 → zy.toNat < 0x1F0 →
    let dw := (512 - zx.toNat + 8) / 16
    let dh := (512 - zy.toNat + 8) / 16
    ∃ t, exec (.zblit code bank fx fy x y zx zy) s = .next t ∧
      (∀ px py : Nat, px < s.cfg.params.fbW → py < s.cfg.params.fbH →
        let sc := (px - x).toNat * 16 / dw
        let sr := (py - y).toNat * 16 / dh
        let pen := memRead 0 s.cfg.ts (code.toNat % s.cfg.params.nTiles * 256 +
          (if fy then 15 - sr else sr) * 16 + (if fx then 15 - sc else sc))
        if x ≤ px ∧ px < x + dw ∧ y ≤ py ∧ py < y + dh ∧ s.cfg.params.transpen ≠ some pen then
          (fbRead t.tbl px py).toNat = bank.toNat * 16 + pen.toNat
        else fbRead t.tbl px py = fbRead s.tbl px py) ∧
      (∀ px py : Nat, s.cfg.params.fbW ≤ px ∨ s.cfg.params.fbH ≤ py →
        fbRead t.tbl px py = fbRead s.tbl px py) ∧
      t = { s with tbl := { s.tbl with fb := t.tbl.fb } }

/-- BLT.SKIP0, whole (R177): the operation changes nothing; a record is the sentinel exactly when both
its sizes are zero, all its other words free; EXEC.CMD of one writes no pixel and leaves RAM,
GFXLIST, FLIPSCR, CMDPTR, and all of SLC as they are; and the list goes on: a run that starts at one
ends like the run that starts at the next record. -/
def Obligations.SentinelSkips : Prop :=
  (∀ s : State, exec .bltSkip0 s = .next s) ∧
  (∀ w : Command, decodeCommand w = .bltSkip0 ↔ w[6] = 0#16 ∧ w[7] = 0#16) ∧
  (∀ s : State, s.tbl.cmdptr + 16 ≤ s.cfg.params.ramWords →
    ramRead s.cfg.params s.tbl.ram (s.tbl.cmdptr + 6) = 0#16 →
    ramRead s.cfg.params s.tbl.ram (s.tbl.cmdptr + 7) = 0#16 →
    ∃ t, exec .execCmd s = .next t ∧ t.slc = s.slc ∧ t.tbl.fb = s.tbl.fb ∧ t.tbl.ram = s.tbl.ram ∧
      t.tbl.gfxlist = s.tbl.gfxlist ∧ t.tbl.flipscr = s.tbl.flipscr ∧ t.tbl.cmdptr = s.tbl.cmdptr) ∧
  (∀ s t u : State, s.tbl.gfxlist.toNat + 16 ≤ s.cfg.params.ramWords → s.tbl.gfxlist.toNat + 16 < 65536 →
    decodeCommand (ramRecord s.cfg.params s.tbl.ram s.tbl.gfxlist.toNat) = .bltSkip0 →
    exec .listRun s = .next t →
    exec .listRun { s with tbl := { s.tbl with gfxlist := s.tbl.gfxlist + 16 } } = .next u →
    t.tbl.fb = u.tbl.fb ∧ t.tbl.cmdptr = u.tbl.cmdptr)

/-- BLT.SKIPG, whole (R178): the operation changes nothing; a record is rejected exactly when it is not
the sentinel and one of its four unsigned bounds fails; EXEC.CMD of one writes no pixel and leaves
RAM, GFXLIST, FLIPSCR, CMDPTR and all of SLC as they are; and the list goes on: a run that starts at
one ends like the run that starts at the next record. -/
def Obligations.GuardSkips : Prop :=
  (∀ (sw sh zx zy : Word) (s : State), exec (.bltSkipg sw sh zx zy) s = .next s) ∧
  (∀ w : Command, (∃ sw sh zx zy, decodeCommand w = .bltSkipg sw sh zx zy) ↔
    ¬ (w[6] = 0#16 ∧ w[7] = 0#16) ∧
    ¬ (w[6].toNat < 512 ∧ w[7].toNat < 256 ∧ w[10].toNat < 0x1F0 ∧ w[13].toNat < 0x1F0)) ∧
  (∀ s : State, s.tbl.cmdptr + 16 ≤ s.cfg.params.ramWords →
    (∃ sw sh zx zy, decodeCommand (ramRecord s.cfg.params s.tbl.ram s.tbl.cmdptr) =
      .bltSkipg sw sh zx zy) →
    ∃ t, exec .execCmd s = .next t ∧ t.slc = s.slc ∧ t.tbl.fb = s.tbl.fb ∧ t.tbl.ram = s.tbl.ram ∧
      t.tbl.gfxlist = s.tbl.gfxlist ∧ t.tbl.flipscr = s.tbl.flipscr ∧ t.tbl.cmdptr = s.tbl.cmdptr) ∧
  (∀ s t u : State, s.tbl.gfxlist.toNat + 16 ≤ s.cfg.params.ramWords → s.tbl.gfxlist.toNat + 16 < 65536 →
    (∃ sw sh zx zy, decodeCommand (ramRecord s.cfg.params s.tbl.ram s.tbl.gfxlist.toNat) =
      .bltSkipg sw sh zx zy) →
    exec .listRun s = .next t →
    exec .listRun { s with tbl := { s.tbl with gfxlist := s.tbl.gfxlist + 16 } } = .next u →
    t.tbl.fb = u.tbl.fb ∧ t.tbl.cmdptr = u.tbl.cmdptr)

/-- BLT.DIRECT (R179, R174, R184; D25, D27, D29): in its class the command's fields go to the
registers, mirrored when FLIPSCR is set (log 16), the pixel writes are those of the strip in order,
and nothing else changes; `stripCode` ends at the code after the last column (log 18). -/
def Obligations.DirectMode : Prop :=
  ∀ (code : Word) (xi yi : BitVec 9) (fx fy : Bool) (bank : BitVec 7) (sw sh zx zy : Word) (s : State),
    ¬ (sw.toNat = 0 ∧ sh.toNat = 0) → sw.toNat < 512 → sh.toNat < 256 → zx.toNat < 0x1F0 →
    zy.toNat < 0x1F0 →
    exec (.bltDirect code xi yi fx fy bank sw sh zx zy) s = .next { s with
      tbl := { s.tbl with
        code := code
        dx := placedAt s.tbl.flipscr s.cfg.params.fbW xi sw
        dy := placedAt s.tbl.flipscr s.cfg.params.fbH yi sh
        flipx := fx ^^ s.tbl.flipscr
        flipy := fy ^^ s.tbl.flipscr
        tmap := false
        bank := bank, sw := sw, sh := sh, zx := zx, zy := zy
        stripCode := BitVec.ofNat 16 (stripCodeAt code ((sw.toNat + 15) / 16))
        fb := drawPlots s.cfg.params
          (directPlots s.cfg s.tbl.flipscr code xi yi fx fy bank sw sh zx zy) s.tbl.fb } }

/-- BLT.TMAP and BLT.TMAPC (R181, R182, R183; D30 to D32): in their class the command's fields go to
the registers, mirrored when FLIPSCR is set (log 16), the pixel writes are those of the grid in order,
with pitch 16 and with pitch 8 and twice the tiles on each axis, and nothing else changes. -/
def Obligations.TilemapModes : Prop :=
  ∀ (xi yi : BitVec 9) (fx fy : Bool) (bank : BitVec 7) (sw sh : Word) (spx spy : BitVec 12)
    (zx zy : Word) (s : State),
    ¬ (sw.toNat = 0 ∧ sh.toNat = 0) → sw.toNat < 512 → sh.toNat < 256 → zx.toNat < 0x1F0 →
    zy.toNat < 0x1F0 →
    let after := fun (condensed : Bool) (ps : List Plot) => { s with
      tbl := { s.tbl with
        dx := placedAt s.tbl.flipscr s.cfg.params.fbW xi sw
        dy := placedAt s.tbl.flipscr s.cfg.params.fbH yi sh
        flipx := fx ^^ s.tbl.flipscr
        flipy := fy ^^ s.tbl.flipscr
        tmap := true
        cond := condensed
        bank := bank, sw := sw, sh := sh, spx := spx, spy := spy, zx := zx, zy := zy
        fb := drawPlots s.cfg.params ps s.tbl.fb } }
    exec (.bltTmap xi yi fx fy bank sw sh spx spy zx zy) s =
      .next (after false (gridPlots s.cfg s.tbl.ram 16 1 s.tbl.flipscr xi yi fx fy bank sw sh spx spy zx zy)) ∧
    exec (.bltTmapc xi yi fx fy bank sw sh spx spy zx zy) s =
      .next (after true (gridPlots s.cfg s.tbl.ram 8 2 s.tbl.flipscr xi yi fx fy bank sw sh spx spy zx zy))

/-- LIST.RUN and BLITGO.W (R170, R173, R127; D19, D20, D34): from every state, whatever the data, the
run completes; it executes the whole records from GFXLIST to the end of RAM in ascending address, so
FB takes their pixel writes in that order; CMDPTR ends just after the last of them, or at GFXLIST
where there is none, be it above RAM_WORDS (log 20); RAM, GFXLIST, FLIPSCR and everything outside TBL
are unchanged. -/
def Obligations.ListRun : Prop :=
  ∀ (v : Nat) (s : State),
    ∃ t, exec (.blitgoW v) s = .next t ∧ exec .listRun s = .next t ∧
      t.tbl.fb = drawPlots s.cfg.params
        (runPlots s.cfg s.tbl.ram s.tbl.flipscr s.tbl.gfxlist.toNat) s.tbl.fb ∧
      t.tbl.cmdptr = s.tbl.gfxlist.toNat + 16 * recordCount s.cfg.params s.tbl.gfxlist.toNat ∧
      t.tbl.ram = s.tbl.ram ∧ t.tbl.gfxlist = s.tbl.gfxlist ∧ t.tbl.flipscr = s.tbl.flipscr ∧
      t = { s with tbl := t.tbl }

/-- Running a list twice with nothing between leaves FB as after the first run (R67). -/
def Obligations.RunTwiceIsRunOnce : Prop :=
  ∀ (v v' : Nat) (s t u : State), exec (.blitgoW v) s = .next t → exec (.blitgoW v') t = .next u →
    ∀ x y, fbRead u.tbl x y = fbRead t.tbl x y

/-- The sentinel property and empty draws (R197, R192, R177): EXEC.CMD draws the pixel writes of the
record at CMDPTR, in order. A record with both sizes zero, one the guard rejects, one with zero width
and a tilemap one with zero height make no pixel write; with both sizes one, zooms in range and no
transparent pen, a direct and an uncondensed tilemap record make exactly one tile's worth of writes and
a condensed one four tiles' worth. -/
def Obligations.SentinelProperty : Prop :=
  ∀ s : State, s.tbl.cmdptr + 16 ≤ s.cfg.params.ramWords →
    let w := ramRecord s.cfg.params s.tbl.ram s.tbl.cmdptr
    let writes := recordPlots s.cfg s.tbl.ram s.tbl.flipscr w
    ∃ t, exec .execCmd s = .next t ∧
      t.tbl.fb = drawPlots s.cfg.params writes s.tbl.fb ∧
      (w[6] = 0#16 → w[7] = 0#16 → writes = [] ∧ t.tbl.fb = s.tbl.fb) ∧
      (¬ (w[6].toNat < 512 ∧ w[7].toNat < 256 ∧ w[10].toNat < 0x1F0 ∧ w[13].toNat < 0x1F0) →
        writes = [] ∧ t.tbl.fb = s.tbl.fb) ∧
      (w[6] = 0#16 → writes = [] ∧ t.tbl.fb = s.tbl.fb) ∧
      (w[7] = 0#16 → w.tm = true → writes = [] ∧ t.tbl.fb = s.tbl.fb) ∧
      (s.cfg.params.transpen = none → w[6] = 1#16 → w[7] = 1#16 → w[10].toNat < 0x1F0 →
        w[13].toNat < 0x1F0 →
        writes.length =
          (if w.tm && w.cond then 4 else 1) *
            ((512 - w[10].toNat + 8) / 16 * ((512 - w[13].toNat + 8) / 16)))

/-- Bounds (R193, R173). A run, started by LIST.RUN or BLITGO.W, always completes; CMDPTR has gone on by
16 words for each of at most `RAM_WORDS div 16` records; FB has taken at most 2097152 pixel writes for
each of these, every one of a value with bits 15:11 zero. One EXEC.CMD makes at most 2097152 pixel
writes, and at most 32768 of a direct record. -/
def Obligations.RunIsBounded : Prop :=
  (∀ (v : Nat) (s : State),
    let writes := runPlots s.cfg s.tbl.ram s.tbl.flipscr s.tbl.gfxlist.toNat
    ∃ t n, exec .listRun s = .next t ∧ exec (.blitgoW v) s = .next t ∧
      n ≤ s.cfg.params.ramWords / 16 ∧ t.tbl.cmdptr = s.tbl.gfxlist.toNat + 16 * n ∧
      t.tbl.fb = drawPlots s.cfg.params writes s.tbl.fb ∧
      writes.length ≤ 2097152 * n ∧ ∀ q ∈ writes, q.v.toNat < 2048) ∧
  (∀ s : State, s.tbl.cmdptr + 16 ≤ s.cfg.params.ramWords →
    let w := ramRecord s.cfg.params s.tbl.ram s.tbl.cmdptr
    let writes := recordPlots s.cfg s.tbl.ram s.tbl.flipscr w
    ∃ t, exec .execCmd s = .next t ∧ t.tbl.fb = drawPlots s.cfg.params writes s.tbl.fb ∧
      writes.length ≤ 2097152 ∧ (w.tm = false → writes.length ≤ 32768))

/-! ## The assembler lines -/

/-- `.cmd MODE` (R110; D40; executed at the origin, log 22): the sixteen words at the origin are those
of R110, every other byte of RAM is unchanged, the origin goes on by 16 and nothing else changes. -/
def Obligations.CommandLine : Prop :=
  ∀ (mode : Mode) (a : CmdArgs) (s : State), s.origin + 16 ≤ s.cfg.params.ramWords →
    ∃ t, exec (.cmdMode mode a) s = .next t ∧
      ramRecord s.cfg.params t.tbl.ram s.origin =
        Vector.map (fun v : Nat => BitVec.ofNat 16 v)
          #v[0, a.code, (a.x % 512).toNat * 16, (a.y % 512).toNat * 16,
            a.fx.toNat + 2 * a.fy.toNat +
              (match mode with | .direct => 0 | .tmap => 8 | .tmapc => 12),
            a.bank, a.w, a.h, a.sx * 16, a.sy * 16, a.zx, 0, 0, a.zy, 0, 0] ∧
      (∀ c, c < 2 * s.origin ∨ 2 * s.origin + 32 ≤ c →
        memRead 0 t.tbl.ram c = memRead 0 s.tbl.ram c) ∧
      t = { s with origin := s.origin + 16, tbl := { s.tbl with ram := t.tbl.ram } }

/-- A `.cmd` line assembles to the record of its own operation (R110, R93, R104; D40; executed at the
origin in one step, log 22): operands in range and
sizes and zooms inside the guard, the record at the old origin decodes to the mode's operation with
the line's operands. -/
def Obligations.CommandLineDecodes : Prop :=
  ∀ (mode : Mode) (a : CmdArgs) (s t : State), (Instr.cmdMode mode a).wellFormed s.cfg.params = true →
    ¬ (a.w = 0 ∧ a.h = 0) → a.w < 512 → a.h < 256 → a.zx < 0x1F0 → a.zy < 0x1F0 →
    exec (.cmdMode mode a) s = .next t →
    let word := fun n : Nat => BitVec.ofNat 16 n
    let xi := BitVec.ofNat 9 (a.x % 512).toNat
    let yi := BitVec.ofNat 9 (a.y % 512).toNat
    let bank := BitVec.ofNat 7 a.bank
    let spx := BitVec.ofNat 12 a.sx
    let spy := BitVec.ofNat 12 a.sy
    decodeCommand (ramRecord s.cfg.params t.tbl.ram s.origin) =
      match mode with
      | .direct =>
        .bltDirect (word a.code) xi yi a.fx a.fy bank (word a.w) (word a.h) (word a.zx) (word a.zy)
      | .tmap => .bltTmap xi yi a.fx a.fy bank (word a.w) (word a.h) spx spy (word a.zx) (word a.zy)
      | .tmapc => .bltTmapc xi yi a.fx a.fy bank (word a.w) (word a.h) spx spy (word a.zx) (word a.zy)

/-- `.cmd OFF` (R110, R177; D40; log 22): the sixteen words at the origin are zero, a sentinel command;
every other byte of RAM is unchanged, the origin goes on by 16 and nothing else changes. -/
def Obligations.OffLine : Prop :=
  ∀ s : State, s.origin + 16 ≤ s.cfg.params.ramWords →
    ∃ t, exec .cmdOff s = .next t ∧
      ramRecord s.cfg.params t.tbl.ram s.origin = Vector.replicate 16 0#16 ∧
      decodeCommand (ramRecord s.cfg.params t.tbl.ram s.origin) = .bltSkip0 ∧
      (∀ c, c < 2 * s.origin ∨ 2 * s.origin + 32 ≤ c →
        memRead 0 t.tbl.ram c = memRead 0 s.tbl.ram c) ∧
      t = { s with origin := s.origin + 16, tbl := { s.tbl with ram := t.tbl.ram } }

/-- `.org`, `.list` and `.tmap` (R110, R183; D30, D40; log 22): `.org a` sets the origin; `.list a` sets
it and GFXLIST; on a well-formed configuration `.tmap r, c, code` writes the word at
`TM_BASE + r + TM_ROWS*c` and no other byte of RAM. -/
def Obligations.OriginAndTilemapLines : Prop :=
  ∀ (s : State) (a r c code : Nat),
    exec (.orgA a) s = .next { s with origin := a } ∧
    exec (.listA a) s = .next { s with
      origin := a, tbl := { s.tbl with gfxlist := BitVec.ofNat 16 a } } ∧
    (s.cfg.params.wf = true → r < s.cfg.params.tmRows → c < s.cfg.params.tmCols →
      let addr := s.cfg.params.tmBase + r + s.cfg.params.tmRows * c
      ∃ t, exec (.tmapEntry r c code) s = .next t ∧ addr < s.cfg.params.ramWords ∧
        (ramRead s.cfg.params t.tbl.ram addr).toNat = code % 65536 ∧
        (∀ n, n ≠ 2 * addr → n ≠ 2 * addr + 1 → memRead 0 t.tbl.ram n = memRead 0 s.tbl.ram n) ∧
        t = { s with tbl := { s.tbl with ram := t.tbl.ram } })

/-- `LATCH.LAYER k, xoff, ysel, start, stop @n` (R110, R121, R23; D3, D4, D40; its three LATCH.W events
executed in one step, log 22): the layer's three
latches take the operands, MIX with the stop preset above the start preset; the earlier lines not yet
materialised take the sixteen latches as they were before the first write; nothing else changes. -/
def Obligations.LatchLayerLine : Prop :=
  ∀ (k : Fin 4) (xoff ysel start stop n : Nat) (s : State), xoff < 256 → ysel < 256 → start < 16 →
    stop < 16 →
    let line := min n (s.cfg.params.screenH - 1)
    ∃ t, exec (.latchLayer k xoff ysel start stop n) s = .next t ∧
      (∀ j : Fin 16, t.slc.latch[j].toNat =
        if j.val = k.val then xoff
        else if j.val = 4 + k.val then ysel
        else if j.val = 8 + k.val then 16 * stop + start
        else s.slc.latch[j].toNat) ∧
      t.slc.cur = max s.slc.cur ((line : Int) - 1) ∧
      (∀ l : Nat, tlRead t.slc l =
        if s.slc.cur < l ∧ l < line then s.slc.latch else tlRead s.slc l) ∧
      t = { s with
        slc := { s.slc with latch := t.slc.latch, cur := t.slc.cur, tl := t.slc.tl } }
end

