-- ==== Sys2Proof/Laws/State.lean ====
section
/-! SUPPORT. One lemma per field per update of the state: what an update of SLC, of TBL or of the
whole leaves in each field. Every one is true by definition and tagged for simp, so that no later
proof unfolds a record update. -/

namespace Sys2Proof.Machine

/-! ## Updates of the whole state -/

@[simp] theorem onSlc_cfg (f : Slc → Slc) (s : State) : (onSlc f s).cfg = s.cfg := rfl
@[simp] theorem onSlc_slc (f : Slc → Slc) (s : State) : (onSlc f s).slc = f s.slc := rfl
@[simp] theorem onSlc_tbl (f : Slc → Slc) (s : State) : (onSlc f s).tbl = s.tbl := rfl
@[simp] theorem onSlc_trace (f : Slc → Slc) (s : State) : (onSlc f s).trace = s.trace := rfl
@[simp] theorem onSlc_origin (f : Slc → Slc) (s : State) : (onSlc f s).origin = s.origin := rfl
@[simp] theorem onSlc_answer (f : Slc → Slc) (s : State) : (onSlc f s).answer = s.answer := rfl
@[simp] theorem onSlc_enabled (f : Slc → Slc) (s : State) : (onSlc f s).enabled = s.enabled := rfl
@[simp] theorem onTbl_cfg (f : Tbl → Tbl) (s : State) : (onTbl f s).cfg = s.cfg := rfl
@[simp] theorem onTbl_slc (f : Tbl → Tbl) (s : State) : (onTbl f s).slc = s.slc := rfl
@[simp] theorem onTbl_tbl (f : Tbl → Tbl) (s : State) : (onTbl f s).tbl = f s.tbl := rfl
@[simp] theorem onTbl_trace (f : Tbl → Tbl) (s : State) : (onTbl f s).trace = s.trace := rfl
@[simp] theorem onTbl_origin (f : Tbl → Tbl) (s : State) : (onTbl f s).origin = s.origin := rfl
@[simp] theorem onTbl_answer (f : Tbl → Tbl) (s : State) : (onTbl f s).answer = s.answer := rfl
@[simp] theorem onTbl_enabled (f : Tbl → Tbl) (s : State) : (onTbl f s).enabled = s.enabled := rfl
@[simp] theorem takeEvent_cfg (s : State) : (takeEvent s).cfg = s.cfg := rfl
@[simp] theorem takeEvent_slc (s : State) : (takeEvent s).slc = s.slc := rfl
@[simp] theorem takeEvent_tbl (s : State) : (takeEvent s).tbl = s.tbl := rfl
@[simp] theorem takeEvent_trace (s : State) : (takeEvent s).trace = s.trace.tail := rfl
@[simp] theorem takeEvent_origin (s : State) : (takeEvent s).origin = s.origin := rfl
@[simp] theorem takeEvent_answer (s : State) : (takeEvent s).answer = s.answer := rfl
@[simp] theorem takeEvent_enabled (s : State) : (takeEvent s).enabled = s.enabled := rfl

/-- Two operations of SLC in a row are one. -/
theorem onSlc_onSlc (f g : Slc → Slc) (s : State) : onSlc f (onSlc g s) = onSlc (fun u => f (g u)) s := rfl

/-- Two operations of TBL in a row are one. -/
theorem onTbl_onTbl (f g : Tbl → Tbl) (s : State) : onTbl f (onTbl g s) = onTbl (fun t => f (g t)) s := rfl

/-- The two units share no state, so their operations commute (R8). -/
theorem onSlc_onTbl (f : Slc → Slc) (g : Tbl → Tbl) (s : State) : onSlc f (onTbl g s) = onTbl g (onSlc f s) := rfl

/-! ## Updates of SLC -/

@[simp] theorem materialise_latch (lo hi : Nat) (u : Slc) : (materialise lo hi u).latch = u.latch := rfl
@[simp] theorem materialise_pbank (lo hi : Nat) (u : Slc) : (materialise lo hi u).pbank = u.pbank := rfl
@[simp] theorem materialise_cflip (lo hi : Nat) (u : Slc) : (materialise lo hi u).cflip = u.cflip := rfl
@[simp] theorem materialise_cbank (lo hi : Nat) (u : Slc) : (materialise lo hi u).cbank = u.cbank := rfl
@[simp] theorem materialise_cur (lo hi : Nat) (u : Slc) : (materialise lo hi u).cur = u.cur := rfl
@[simp] theorem materialise_inframe (lo hi : Nat) (u : Slc) : (materialise lo hi u).inframe = u.inframe := rfl
@[simp] theorem materialise_out (lo hi : Nat) (u : Slc) : (materialise lo hi u).out = u.out := rfl
@[simp] theorem materialise_y (lo hi : Nat) (u : Slc) : (materialise lo hi u).y = u.y := rfl
@[simp] theorem materialise_p (lo hi : Nat) (u : Slc) : (materialise lo hi u).p = u.p := rfl
@[simp] theorem materialise_xc (lo hi : Nat) (u : Slc) : (materialise lo hi u).xc = u.xc := rfl
@[simp] theorem materialise_st (lo hi : Nat) (u : Slc) : (materialise lo hi u).st = u.st := rfl
@[simp] theorem materialise_sp (lo hi : Nat) (u : Slc) : (materialise lo hi u).sp = u.sp := rfl
@[simp] theorem materialise_row (lo hi : Nat) (u : Slc) : (materialise lo hi u).row = u.row := rfl
@[simp] theorem materialise_raw (lo hi : Nat) (u : Slc) : (materialise lo hi u).raw = u.raw := rfl
@[simp] theorem materialise_acc (lo hi : Nat) (u : Slc) : (materialise lo hi u).acc = u.acc := rfl
@[simp] theorem materialise_lookup (lo hi : Nat) (u : Slc) : (materialise lo hi u).lookup = u.lookup := rfl
@[simp] theorem materialise_cidx (lo hi : Nat) (u : Slc) : (materialise lo hi u).cidx = u.cidx := rfl
@[simp] theorem materialise_pen (lo hi : Nat) (u : Slc) : (materialise lo hi u).pen = u.pen := rfl

@[simp] theorem flushLines_latch (t : Int) (u : Slc) : (flushLines t u).latch = u.latch := rfl
@[simp] theorem flushLines_pbank (t : Int) (u : Slc) : (flushLines t u).pbank = u.pbank := rfl
@[simp] theorem flushLines_cflip (t : Int) (u : Slc) : (flushLines t u).cflip = u.cflip := rfl
@[simp] theorem flushLines_cbank (t : Int) (u : Slc) : (flushLines t u).cbank = u.cbank := rfl
@[simp] theorem flushLines_tl (t : Int) (u : Slc) : (flushLines t u).tl = (materialise (nextLine u) (t + 1).toNat u).tl := rfl
@[simp] theorem flushLines_cur (t : Int) (u : Slc) : (flushLines t u).cur = t := rfl
@[simp] theorem flushLines_inframe (t : Int) (u : Slc) : (flushLines t u).inframe = u.inframe := rfl
@[simp] theorem flushLines_out (t : Int) (u : Slc) : (flushLines t u).out = u.out := rfl
@[simp] theorem flushLines_y (t : Int) (u : Slc) : (flushLines t u).y = u.y := rfl
@[simp] theorem flushLines_p (t : Int) (u : Slc) : (flushLines t u).p = u.p := rfl
@[simp] theorem flushLines_xc (t : Int) (u : Slc) : (flushLines t u).xc = u.xc := rfl
@[simp] theorem flushLines_st (t : Int) (u : Slc) : (flushLines t u).st = u.st := rfl
@[simp] theorem flushLines_sp (t : Int) (u : Slc) : (flushLines t u).sp = u.sp := rfl
@[simp] theorem flushLines_row (t : Int) (u : Slc) : (flushLines t u).row = u.row := rfl
@[simp] theorem flushLines_raw (t : Int) (u : Slc) : (flushLines t u).raw = u.raw := rfl
@[simp] theorem flushLines_acc (t : Int) (u : Slc) : (flushLines t u).acc = u.acc := rfl
@[simp] theorem flushLines_lookup (t : Int) (u : Slc) : (flushLines t u).lookup = u.lookup := rfl
@[simp] theorem flushLines_cidx (t : Int) (u : Slc) : (flushLines t u).cidx = u.cidx := rfl
@[simp] theorem flushLines_pen (t : Int) (u : Slc) : (flushLines t u).pen = u.pen := rfl

@[simp] theorem latchWrite_latch (p : Params) (idx : Fin 16) (v n : Nat) (u : Slc) : (latchWrite p idx v n u).latch = u.latch.set idx (BitVec.ofNat 8 v) := rfl
@[simp] theorem latchWrite_pbank (p : Params) (idx : Fin 16) (v n : Nat) (u : Slc) : (latchWrite p idx v n u).pbank = u.pbank := rfl
@[simp] theorem latchWrite_cflip (p : Params) (idx : Fin 16) (v n : Nat) (u : Slc) : (latchWrite p idx v n u).cflip = u.cflip := rfl
@[simp] theorem latchWrite_cbank (p : Params) (idx : Fin 16) (v n : Nat) (u : Slc) : (latchWrite p idx v n u).cbank = u.cbank := rfl
@[simp] theorem latchWrite_tl (p : Params) (idx : Fin 16) (v n : Nat) (u : Slc) : (latchWrite p idx v n u).tl = (materialise (nextLine u) (min n (p.screenH - 1)) u).tl := rfl
@[simp] theorem latchWrite_cur (p : Params) (idx : Fin 16) (v n : Nat) (u : Slc) : (latchWrite p idx v n u).cur = max u.cur (((min n (p.screenH - 1) : Nat) : Int) - 1) := rfl
@[simp] theorem latchWrite_inframe (p : Params) (idx : Fin 16) (v n : Nat) (u : Slc) : (latchWrite p idx v n u).inframe = u.inframe := rfl
@[simp] theorem latchWrite_out (p : Params) (idx : Fin 16) (v n : Nat) (u : Slc) : (latchWrite p idx v n u).out = u.out := rfl
@[simp] theorem latchWrite_y (p : Params) (idx : Fin 16) (v n : Nat) (u : Slc) : (latchWrite p idx v n u).y = u.y := rfl
@[simp] theorem latchWrite_p (p : Params) (idx : Fin 16) (v n : Nat) (u : Slc) : (latchWrite p idx v n u).p = u.p := rfl
@[simp] theorem latchWrite_xc (p : Params) (idx : Fin 16) (v n : Nat) (u : Slc) : (latchWrite p idx v n u).xc = u.xc := rfl
@[simp] theorem latchWrite_st (p : Params) (idx : Fin 16) (v n : Nat) (u : Slc) : (latchWrite p idx v n u).st = u.st := rfl
@[simp] theorem latchWrite_sp (p : Params) (idx : Fin 16) (v n : Nat) (u : Slc) : (latchWrite p idx v n u).sp = u.sp := rfl
@[simp] theorem latchWrite_row (p : Params) (idx : Fin 16) (v n : Nat) (u : Slc) : (latchWrite p idx v n u).row = u.row := rfl
@[simp] theorem latchWrite_raw (p : Params) (idx : Fin 16) (v n : Nat) (u : Slc) : (latchWrite p idx v n u).raw = u.raw := rfl
@[simp] theorem latchWrite_acc (p : Params) (idx : Fin 16) (v n : Nat) (u : Slc) : (latchWrite p idx v n u).acc = u.acc := rfl
@[simp] theorem latchWrite_lookup (p : Params) (idx : Fin 16) (v n : Nat) (u : Slc) : (latchWrite p idx v n u).lookup = u.lookup := rfl
@[simp] theorem latchWrite_cidx (p : Params) (idx : Fin 16) (v n : Nat) (u : Slc) : (latchWrite p idx v n u).cidx = u.cidx := rfl
@[simp] theorem latchWrite_pen (p : Params) (idx : Fin 16) (v n : Nat) (u : Slc) : (latchWrite p idx v n u).pen = u.pen := rfl

@[simp] theorem lineLoad_latch (y : Nat) (snap : Latches) (u : Slc) : (lineLoad y snap u).latch = u.latch := rfl
@[simp] theorem lineLoad_pbank (y : Nat) (snap : Latches) (u : Slc) : (lineLoad y snap u).pbank = u.pbank := rfl
@[simp] theorem lineLoad_cflip (y : Nat) (snap : Latches) (u : Slc) : (lineLoad y snap u).cflip = u.cflip := rfl
@[simp] theorem lineLoad_cbank (y : Nat) (snap : Latches) (u : Slc) : (lineLoad y snap u).cbank = u.cbank := rfl
@[simp] theorem lineLoad_tl (y : Nat) (snap : Latches) (u : Slc) : (lineLoad y snap u).tl = u.tl := rfl
@[simp] theorem lineLoad_cur (y : Nat) (snap : Latches) (u : Slc) : (lineLoad y snap u).cur = u.cur := rfl
@[simp] theorem lineLoad_inframe (y : Nat) (snap : Latches) (u : Slc) : (lineLoad y snap u).inframe = u.inframe := rfl
@[simp] theorem lineLoad_out (y : Nat) (snap : Latches) (u : Slc) : (lineLoad y snap u).out = u.out := rfl
@[simp] theorem lineLoad_y (y : Nat) (snap : Latches) (u : Slc) : (lineLoad y snap u).y = y := rfl
@[simp] theorem lineLoad_p (y : Nat) (snap : Latches) (u : Slc) : (lineLoad y snap u).p = 0 := rfl
@[simp] theorem lineLoad_xc (y : Nat) (snap : Latches) (u : Slc) : (lineLoad y snap u).xc = Vector.ofFn (xoffOf snap) := rfl
@[simp] theorem lineLoad_st (y : Nat) (snap : Latches) (u : Slc) : (lineLoad y snap u).st = Vector.ofFn (startPreset snap) := rfl
@[simp] theorem lineLoad_sp (y : Nat) (snap : Latches) (u : Slc) : (lineLoad y snap u).sp = Vector.ofFn (stopPreset snap) := rfl
@[simp] theorem lineLoad_row (y : Nat) (snap : Latches) (u : Slc) : (lineLoad y snap u).row = Vector.ofFn (yselOf snap) := rfl
@[simp] theorem lineLoad_raw (y : Nat) (snap : Latches) (u : Slc) : (lineLoad y snap u).raw = u.raw := rfl
@[simp] theorem lineLoad_acc (y : Nat) (snap : Latches) (u : Slc) : (lineLoad y snap u).acc = u.acc := rfl
@[simp] theorem lineLoad_lookup (y : Nat) (snap : Latches) (u : Slc) : (lineLoad y snap u).lookup = u.lookup := rfl
@[simp] theorem lineLoad_cidx (y : Nat) (snap : Latches) (u : Slc) : (lineLoad y snap u).cidx = u.cidx := rfl
@[simp] theorem lineLoad_pen (y : Nat) (snap : Latches) (u : Slc) : (lineLoad y snap u).pen = u.pen := rfl

@[simp] theorem layerRaw_latch (b : Board) (k : Fin 4) (u : Slc) : (layerRaw b k u).latch = u.latch := rfl
@[simp] theorem layerRaw_pbank (b : Board) (k : Fin 4) (u : Slc) : (layerRaw b k u).pbank = u.pbank := rfl
@[simp] theorem layerRaw_cflip (b : Board) (k : Fin 4) (u : Slc) : (layerRaw b k u).cflip = u.cflip := rfl
@[simp] theorem layerRaw_cbank (b : Board) (k : Fin 4) (u : Slc) : (layerRaw b k u).cbank = u.cbank := rfl
@[simp] theorem layerRaw_tl (b : Board) (k : Fin 4) (u : Slc) : (layerRaw b k u).tl = u.tl := rfl
@[simp] theorem layerRaw_cur (b : Board) (k : Fin 4) (u : Slc) : (layerRaw b k u).cur = u.cur := rfl
@[simp] theorem layerRaw_inframe (b : Board) (k : Fin 4) (u : Slc) : (layerRaw b k u).inframe = u.inframe := rfl
@[simp] theorem layerRaw_out (b : Board) (k : Fin 4) (u : Slc) : (layerRaw b k u).out = u.out := rfl
@[simp] theorem layerRaw_y (b : Board) (k : Fin 4) (u : Slc) : (layerRaw b k u).y = u.y := rfl
@[simp] theorem layerRaw_p (b : Board) (k : Fin 4) (u : Slc) : (layerRaw b k u).p = u.p := rfl
@[simp] theorem layerRaw_xc (b : Board) (k : Fin 4) (u : Slc) : (layerRaw b k u).xc = u.xc := rfl
@[simp] theorem layerRaw_st (b : Board) (k : Fin 4) (u : Slc) : (layerRaw b k u).st = u.st := rfl
@[simp] theorem layerRaw_sp (b : Board) (k : Fin 4) (u : Slc) : (layerRaw b k u).sp = u.sp := rfl
@[simp] theorem layerRaw_row (b : Board) (k : Fin 4) (u : Slc) : (layerRaw b k u).row = u.row := rfl
@[simp] theorem layerRaw_raw (b : Board) (k : Fin 4) (u : Slc) : (layerRaw b k u).raw = u.raw.set k (if layerOn k u then rawOf k (bgPixel b k u.row[k] u.xc[k]) else 0) := rfl
@[simp] theorem layerRaw_acc (b : Board) (k : Fin 4) (u : Slc) : (layerRaw b k u).acc = u.acc := rfl
@[simp] theorem layerRaw_lookup (b : Board) (k : Fin 4) (u : Slc) : (layerRaw b k u).lookup = u.lookup := rfl
@[simp] theorem layerRaw_cidx (b : Board) (k : Fin 4) (u : Slc) : (layerRaw b k u).cidx = u.cidx := rfl
@[simp] theorem layerRaw_pen (b : Board) (k : Fin 4) (u : Slc) : (layerRaw b k u).pen = u.pen := rfl

@[simp] theorem mixCombine_latch (u : Slc) : (mixCombine u).latch = u.latch := rfl
@[simp] theorem mixCombine_pbank (u : Slc) : (mixCombine u).pbank = u.pbank := rfl
@[simp] theorem mixCombine_cflip (u : Slc) : (mixCombine u).cflip = u.cflip := rfl
@[simp] theorem mixCombine_cbank (u : Slc) : (mixCombine u).cbank = u.cbank := rfl
@[simp] theorem mixCombine_tl (u : Slc) : (mixCombine u).tl = u.tl := rfl
@[simp] theorem mixCombine_cur (u : Slc) : (mixCombine u).cur = u.cur := rfl
@[simp] theorem mixCombine_inframe (u : Slc) : (mixCombine u).inframe = u.inframe := rfl
@[simp] theorem mixCombine_out (u : Slc) : (mixCombine u).out = u.out := rfl
@[simp] theorem mixCombine_y (u : Slc) : (mixCombine u).y = u.y := rfl
@[simp] theorem mixCombine_p (u : Slc) : (mixCombine u).p = u.p := rfl
@[simp] theorem mixCombine_xc (u : Slc) : (mixCombine u).xc = u.xc := rfl
@[simp] theorem mixCombine_st (u : Slc) : (mixCombine u).st = u.st := rfl
@[simp] theorem mixCombine_sp (u : Slc) : (mixCombine u).sp = u.sp := rfl
@[simp] theorem mixCombine_row (u : Slc) : (mixCombine u).row = u.row := rfl
@[simp] theorem mixCombine_raw (u : Slc) : (mixCombine u).raw = u.raw := rfl
@[simp] theorem mixCombine_acc (u : Slc) : (mixCombine u).acc = u.raw[0] ||| u.raw[1] ||| u.raw[2] ||| u.raw[3] := rfl
@[simp] theorem mixCombine_lookup (u : Slc) : (mixCombine u).lookup = u.lookup := rfl
@[simp] theorem mixCombine_cidx (u : Slc) : (mixCombine u).cidx = u.cidx := rfl
@[simp] theorem mixCombine_pen (u : Slc) : (mixCombine u).pen = u.pen := rfl

@[simp] theorem mixSelect_latch (b : Board) (u : Slc) : (mixSelect b u).latch = u.latch := rfl
@[simp] theorem mixSelect_pbank (b : Board) (u : Slc) : (mixSelect b u).pbank = u.pbank := rfl
@[simp] theorem mixSelect_cflip (b : Board) (u : Slc) : (mixSelect b u).cflip = u.cflip := rfl
@[simp] theorem mixSelect_cbank (b : Board) (u : Slc) : (mixSelect b u).cbank = u.cbank := rfl
@[simp] theorem mixSelect_tl (b : Board) (u : Slc) : (mixSelect b u).tl = u.tl := rfl
@[simp] theorem mixSelect_cur (b : Board) (u : Slc) : (mixSelect b u).cur = u.cur := rfl
@[simp] theorem mixSelect_inframe (b : Board) (u : Slc) : (mixSelect b u).inframe = u.inframe := rfl
@[simp] theorem mixSelect_out (b : Board) (u : Slc) : (mixSelect b u).out = u.out := rfl
@[simp] theorem mixSelect_y (b : Board) (u : Slc) : (mixSelect b u).y = u.y := rfl
@[simp] theorem mixSelect_p (b : Board) (u : Slc) : (mixSelect b u).p = u.p := rfl
@[simp] theorem mixSelect_xc (b : Board) (u : Slc) : (mixSelect b u).xc = u.xc := rfl
@[simp] theorem mixSelect_st (b : Board) (u : Slc) : (mixSelect b u).st = u.st := rfl
@[simp] theorem mixSelect_sp (b : Board) (u : Slc) : (mixSelect b u).sp = u.sp := rfl
@[simp] theorem mixSelect_row (b : Board) (u : Slc) : (mixSelect b u).row = u.row := rfl
@[simp] theorem mixSelect_raw (b : Board) (u : Slc) : (mixSelect b u).raw = u.raw := rfl
@[simp] theorem mixSelect_acc (b : Board) (u : Slc) : (mixSelect b u).acc = u.acc := rfl
@[simp] theorem mixSelect_lookup (b : Board) (u : Slc) : (mixSelect b u).lookup = lookupOf (mixEntry b (mixIndex u.acc)) := rfl
@[simp] theorem mixSelect_cidx (b : Board) (u : Slc) : (mixSelect b u).cidx = u.cidx := rfl
@[simp] theorem mixSelect_pen (b : Board) (u : Slc) : (mixSelect b u).pen = u.pen := rfl

@[simp] theorem formIndex_latch (u : Slc) : (formIndex u).latch = u.latch := rfl
@[simp] theorem formIndex_pbank (u : Slc) : (formIndex u).pbank = u.pbank := rfl
@[simp] theorem formIndex_cflip (u : Slc) : (formIndex u).cflip = u.cflip := rfl
@[simp] theorem formIndex_cbank (u : Slc) : (formIndex u).cbank = u.cbank := rfl
@[simp] theorem formIndex_tl (u : Slc) : (formIndex u).tl = u.tl := rfl
@[simp] theorem formIndex_cur (u : Slc) : (formIndex u).cur = u.cur := rfl
@[simp] theorem formIndex_inframe (u : Slc) : (formIndex u).inframe = u.inframe := rfl
@[simp] theorem formIndex_out (u : Slc) : (formIndex u).out = u.out := rfl
@[simp] theorem formIndex_y (u : Slc) : (formIndex u).y = u.y := rfl
@[simp] theorem formIndex_p (u : Slc) : (formIndex u).p = u.p := rfl
@[simp] theorem formIndex_xc (u : Slc) : (formIndex u).xc = u.xc := rfl
@[simp] theorem formIndex_st (u : Slc) : (formIndex u).st = u.st := rfl
@[simp] theorem formIndex_sp (u : Slc) : (formIndex u).sp = u.sp := rfl
@[simp] theorem formIndex_row (u : Slc) : (formIndex u).row = u.row := rfl
@[simp] theorem formIndex_raw (u : Slc) : (formIndex u).raw = u.raw := rfl
@[simp] theorem formIndex_acc (u : Slc) : (formIndex u).acc = u.acc := rfl
@[simp] theorem formIndex_lookup (u : Slc) : (formIndex u).lookup = u.lookup := rfl
@[simp] theorem formIndex_cidx (u : Slc) : (formIndex u).cidx = cidxOf u.lookup u.acc := rfl
@[simp] theorem formIndex_pen (u : Slc) : (formIndex u).pen = u.pen := rfl

@[simp] theorem emitPen_latch (u : Slc) : (emitPen u).latch = u.latch := rfl
@[simp] theorem emitPen_pbank (u : Slc) : (emitPen u).pbank = u.pbank := rfl
@[simp] theorem emitPen_cflip (u : Slc) : (emitPen u).cflip = u.cflip := rfl
@[simp] theorem emitPen_cbank (u : Slc) : (emitPen u).cbank = u.cbank := rfl
@[simp] theorem emitPen_tl (u : Slc) : (emitPen u).tl = u.tl := rfl
@[simp] theorem emitPen_cur (u : Slc) : (emitPen u).cur = u.cur := rfl
@[simp] theorem emitPen_inframe (u : Slc) : (emitPen u).inframe = u.inframe := rfl
@[simp] theorem emitPen_out (u : Slc) : (emitPen u).out = gridWrite 0 u.out u.y u.p (penOf u.pbank u.cidx) := rfl
@[simp] theorem emitPen_y (u : Slc) : (emitPen u).y = u.y := rfl
@[simp] theorem emitPen_p (u : Slc) : (emitPen u).p = u.p := rfl
@[simp] theorem emitPen_xc (u : Slc) : (emitPen u).xc = u.xc := rfl
@[simp] theorem emitPen_st (u : Slc) : (emitPen u).st = u.st := rfl
@[simp] theorem emitPen_sp (u : Slc) : (emitPen u).sp = u.sp := rfl
@[simp] theorem emitPen_row (u : Slc) : (emitPen u).row = u.row := rfl
@[simp] theorem emitPen_raw (u : Slc) : (emitPen u).raw = u.raw := rfl
@[simp] theorem emitPen_acc (u : Slc) : (emitPen u).acc = u.acc := rfl
@[simp] theorem emitPen_lookup (u : Slc) : (emitPen u).lookup = u.lookup := rfl
@[simp] theorem emitPen_cidx (u : Slc) : (emitPen u).cidx = u.cidx := rfl
@[simp] theorem emitPen_pen (u : Slc) : (emitPen u).pen = penOf u.pbank u.cidx := rfl

@[simp] theorem stepTo_latch (k : Fin 4) (x : Byte) (clocked : Bool) (u : Slc) : (stepTo k x clocked u).latch = u.latch := rfl
@[simp] theorem stepTo_pbank (k : Fin 4) (x : Byte) (clocked : Bool) (u : Slc) : (stepTo k x clocked u).pbank = u.pbank := rfl
@[simp] theorem stepTo_cflip (k : Fin 4) (x : Byte) (clocked : Bool) (u : Slc) : (stepTo k x clocked u).cflip = u.cflip := rfl
@[simp] theorem stepTo_cbank (k : Fin 4) (x : Byte) (clocked : Bool) (u : Slc) : (stepTo k x clocked u).cbank = u.cbank := rfl
@[simp] theorem stepTo_tl (k : Fin 4) (x : Byte) (clocked : Bool) (u : Slc) : (stepTo k x clocked u).tl = u.tl := rfl
@[simp] theorem stepTo_cur (k : Fin 4) (x : Byte) (clocked : Bool) (u : Slc) : (stepTo k x clocked u).cur = u.cur := rfl
@[simp] theorem stepTo_inframe (k : Fin 4) (x : Byte) (clocked : Bool) (u : Slc) : (stepTo k x clocked u).inframe = u.inframe := rfl
@[simp] theorem stepTo_out (k : Fin 4) (x : Byte) (clocked : Bool) (u : Slc) : (stepTo k x clocked u).out = u.out := rfl
@[simp] theorem stepTo_y (k : Fin 4) (x : Byte) (clocked : Bool) (u : Slc) : (stepTo k x clocked u).y = u.y := rfl
@[simp] theorem stepTo_p (k : Fin 4) (x : Byte) (clocked : Bool) (u : Slc) : (stepTo k x clocked u).p = u.p := rfl
@[simp] theorem stepTo_xc (k : Fin 4) (x : Byte) (clocked : Bool) (u : Slc) : (stepTo k x clocked u).xc = u.xc.set k x := rfl
@[simp] theorem stepTo_st (k : Fin 4) (x : Byte) (clocked : Bool) (u : Slc) : (stepTo k x clocked u).st = if clocked then u.st.set k (u.st[k] + 1) else u.st := rfl
@[simp] theorem stepTo_sp (k : Fin 4) (x : Byte) (clocked : Bool) (u : Slc) : (stepTo k x clocked u).sp = if clocked then u.sp.set k (u.sp[k] + 1) else u.sp := rfl
@[simp] theorem stepTo_row (k : Fin 4) (x : Byte) (clocked : Bool) (u : Slc) : (stepTo k x clocked u).row = u.row := rfl
@[simp] theorem stepTo_raw (k : Fin 4) (x : Byte) (clocked : Bool) (u : Slc) : (stepTo k x clocked u).raw = u.raw := rfl
@[simp] theorem stepTo_acc (k : Fin 4) (x : Byte) (clocked : Bool) (u : Slc) : (stepTo k x clocked u).acc = u.acc := rfl
@[simp] theorem stepTo_lookup (k : Fin 4) (x : Byte) (clocked : Bool) (u : Slc) : (stepTo k x clocked u).lookup = u.lookup := rfl
@[simp] theorem stepTo_cidx (k : Fin 4) (x : Byte) (clocked : Bool) (u : Slc) : (stepTo k x clocked u).cidx = u.cidx := rfl
@[simp] theorem stepTo_pen (k : Fin 4) (x : Byte) (clocked : Bool) (u : Slc) : (stepTo k x clocked u).pen = u.pen := rfl

theorem stepLayer_eq (k : Fin 4) (u : Slc) : stepLayer k u = stepTo k (if u.cflip then u.xc[k] - 1 else u.xc[k] + 1)
    (if u.cflip then clockRev (u.xc[k] - 1) else clockFwd (u.xc[k] + 1)) u := by
  unfold stepLayer stepReverse stepForward; cases u.cflip <;> rfl

@[simp] theorem stepLayer_latch (k : Fin 4) (u : Slc) : (stepLayer k u).latch = u.latch := by simp [stepLayer_eq]
@[simp] theorem stepLayer_pbank (k : Fin 4) (u : Slc) : (stepLayer k u).pbank = u.pbank := by simp [stepLayer_eq]
@[simp] theorem stepLayer_cflip (k : Fin 4) (u : Slc) : (stepLayer k u).cflip = u.cflip := by simp [stepLayer_eq]
@[simp] theorem stepLayer_cbank (k : Fin 4) (u : Slc) : (stepLayer k u).cbank = u.cbank := by simp [stepLayer_eq]
@[simp] theorem stepLayer_tl (k : Fin 4) (u : Slc) : (stepLayer k u).tl = u.tl := by simp [stepLayer_eq]
@[simp] theorem stepLayer_cur (k : Fin 4) (u : Slc) : (stepLayer k u).cur = u.cur := by simp [stepLayer_eq]
@[simp] theorem stepLayer_inframe (k : Fin 4) (u : Slc) : (stepLayer k u).inframe = u.inframe := by simp [stepLayer_eq]
@[simp] theorem stepLayer_out (k : Fin 4) (u : Slc) : (stepLayer k u).out = u.out := by simp [stepLayer_eq]
@[simp] theorem stepLayer_y (k : Fin 4) (u : Slc) : (stepLayer k u).y = u.y := by simp [stepLayer_eq]
@[simp] theorem stepLayer_p (k : Fin 4) (u : Slc) : (stepLayer k u).p = u.p := by simp [stepLayer_eq]
@[simp] theorem stepLayer_row (k : Fin 4) (u : Slc) : (stepLayer k u).row = u.row := by simp [stepLayer_eq]
@[simp] theorem stepLayer_raw (k : Fin 4) (u : Slc) : (stepLayer k u).raw = u.raw := by simp [stepLayer_eq]
@[simp] theorem stepLayer_acc (k : Fin 4) (u : Slc) : (stepLayer k u).acc = u.acc := by simp [stepLayer_eq]
@[simp] theorem stepLayer_lookup (k : Fin 4) (u : Slc) : (stepLayer k u).lookup = u.lookup := by simp [stepLayer_eq]
@[simp] theorem stepLayer_cidx (k : Fin 4) (u : Slc) : (stepLayer k u).cidx = u.cidx := by simp [stepLayer_eq]
@[simp] theorem stepLayer_pen (k : Fin 4) (u : Slc) : (stepLayer k u).pen = u.pen := by simp [stepLayer_eq]

@[simp] theorem stepLayers_latch (u : Slc) : (stepLayers u).latch = u.latch := by simp [stepLayers, layers]
@[simp] theorem stepLayers_pbank (u : Slc) : (stepLayers u).pbank = u.pbank := by simp [stepLayers, layers]
@[simp] theorem stepLayers_cflip (u : Slc) : (stepLayers u).cflip = u.cflip := by simp [stepLayers, layers]
@[simp] theorem stepLayers_cbank (u : Slc) : (stepLayers u).cbank = u.cbank := by simp [stepLayers, layers]
@[simp] theorem stepLayers_tl (u : Slc) : (stepLayers u).tl = u.tl := by simp [stepLayers, layers]
@[simp] theorem stepLayers_cur (u : Slc) : (stepLayers u).cur = u.cur := by simp [stepLayers, layers]
@[simp] theorem stepLayers_inframe (u : Slc) : (stepLayers u).inframe = u.inframe := by simp [stepLayers, layers]
@[simp] theorem stepLayers_out (u : Slc) : (stepLayers u).out = u.out := by simp [stepLayers, layers]
@[simp] theorem stepLayers_y (u : Slc) : (stepLayers u).y = u.y := by simp [stepLayers, layers]
@[simp] theorem stepLayers_p (u : Slc) : (stepLayers u).p = u.p := by simp [stepLayers, layers]
@[simp] theorem stepLayers_row (u : Slc) : (stepLayers u).row = u.row := by simp [stepLayers, layers]
@[simp] theorem stepLayers_raw (u : Slc) : (stepLayers u).raw = u.raw := by simp [stepLayers, layers]
@[simp] theorem stepLayers_acc (u : Slc) : (stepLayers u).acc = u.acc := by simp [stepLayers, layers]
@[simp] theorem stepLayers_lookup (u : Slc) : (stepLayers u).lookup = u.lookup := by simp [stepLayers, layers]
@[simp] theorem stepLayers_cidx (u : Slc) : (stepLayers u).cidx = u.cidx := by simp [stepLayers, layers]
@[simp] theorem stepLayers_pen (u : Slc) : (stepLayers u).pen = u.pen := by simp [stepLayers, layers]

@[simp] theorem formPixel_latch (b : Board) (p : Nat) (u : Slc) : (formPixel b p u).latch = u.latch := by simp [formPixel, layers]
@[simp] theorem formPixel_pbank (b : Board) (p : Nat) (u : Slc) : (formPixel b p u).pbank = u.pbank := by simp [formPixel, layers]
@[simp] theorem formPixel_cflip (b : Board) (p : Nat) (u : Slc) : (formPixel b p u).cflip = u.cflip := by simp [formPixel, layers]
@[simp] theorem formPixel_cbank (b : Board) (p : Nat) (u : Slc) : (formPixel b p u).cbank = u.cbank := by simp [formPixel, layers]
@[simp] theorem formPixel_tl (b : Board) (p : Nat) (u : Slc) : (formPixel b p u).tl = u.tl := by simp [formPixel, layers]
@[simp] theorem formPixel_cur (b : Board) (p : Nat) (u : Slc) : (formPixel b p u).cur = u.cur := by simp [formPixel, layers]
@[simp] theorem formPixel_inframe (b : Board) (p : Nat) (u : Slc) : (formPixel b p u).inframe = u.inframe := by simp [formPixel, layers]
@[simp] theorem formPixel_y (b : Board) (p : Nat) (u : Slc) : (formPixel b p u).y = u.y := by simp [formPixel, layers]
@[simp] theorem formPixel_xc (b : Board) (p : Nat) (u : Slc) : (formPixel b p u).xc = u.xc := by simp [formPixel, layers]
@[simp] theorem formPixel_st (b : Board) (p : Nat) (u : Slc) : (formPixel b p u).st = u.st := by simp [formPixel, layers]
@[simp] theorem formPixel_sp (b : Board) (p : Nat) (u : Slc) : (formPixel b p u).sp = u.sp := by simp [formPixel, layers]
@[simp] theorem formPixel_row (b : Board) (p : Nat) (u : Slc) : (formPixel b p u).row = u.row := by simp [formPixel, layers]
@[simp] theorem formPixel_p (b : Board) (p : Nat) (u : Slc) : (formPixel b p u).p = p := by simp [formPixel, layers]

/-! ## Updates of TBL -/

@[simp] theorem fetchCommand_gfxlist (b : Board) (t : Tbl) : (fetchCommand b t).gfxlist = t.gfxlist := rfl
@[simp] theorem fetchCommand_flipscr (b : Board) (t : Tbl) : (fetchCommand b t).flipscr = t.flipscr := rfl
@[simp] theorem fetchCommand_ram (b : Board) (t : Tbl) : (fetchCommand b t).ram = t.ram := rfl
@[simp] theorem fetchCommand_fb (b : Board) (t : Tbl) : (fetchCommand b t).fb = t.fb := rfl
@[simp] theorem fetchCommand_cmdptr (b : Board) (t : Tbl) : (fetchCommand b t).cmdptr = t.cmdptr := rfl
@[simp] theorem fetchCommand_w (b : Board) (t : Tbl) : (fetchCommand b t).w = ramRecord b.params t.ram t.cmdptr := rfl
@[simp] theorem fetchCommand_code (b : Board) (t : Tbl) : (fetchCommand b t).code = t.code := rfl
@[simp] theorem fetchCommand_flipx (b : Board) (t : Tbl) : (fetchCommand b t).flipx = t.flipx := rfl
@[simp] theorem fetchCommand_flipy (b : Board) (t : Tbl) : (fetchCommand b t).flipy = t.flipy := rfl
@[simp] theorem fetchCommand_cond (b : Board) (t : Tbl) : (fetchCommand b t).cond = t.cond := rfl
@[simp] theorem fetchCommand_tmap (b : Board) (t : Tbl) : (fetchCommand b t).tmap = t.tmap := rfl
@[simp] theorem fetchCommand_bank (b : Board) (t : Tbl) : (fetchCommand b t).bank = t.bank := rfl
@[simp] theorem fetchCommand_dx (b : Board) (t : Tbl) : (fetchCommand b t).dx = t.dx := rfl
@[simp] theorem fetchCommand_dy (b : Board) (t : Tbl) : (fetchCommand b t).dy = t.dy := rfl
@[simp] theorem fetchCommand_sw (b : Board) (t : Tbl) : (fetchCommand b t).sw = t.sw := rfl
@[simp] theorem fetchCommand_sh (b : Board) (t : Tbl) : (fetchCommand b t).sh = t.sh := rfl
@[simp] theorem fetchCommand_zx (b : Board) (t : Tbl) : (fetchCommand b t).zx = t.zx := rfl
@[simp] theorem fetchCommand_zy (b : Board) (t : Tbl) : (fetchCommand b t).zy = t.zy := rfl
@[simp] theorem fetchCommand_spx (b : Board) (t : Tbl) : (fetchCommand b t).spx = t.spx := rfl
@[simp] theorem fetchCommand_spy (b : Board) (t : Tbl) : (fetchCommand b t).spy = t.spy := rfl
@[simp] theorem fetchCommand_stripCode (b : Board) (t : Tbl) : (fetchCommand b t).stripCode = t.stripCode := rfl

@[simp] theorem loadCommon_gfxlist (p : Params) (xi yi : BitVec 9) (fx fy : Bool) (bank : BitVec 7) (sw sh zx zy : Word) (t : Tbl) : (loadCommon p xi yi fx fy bank sw sh zx zy t).gfxlist = t.gfxlist := rfl
@[simp] theorem loadCommon_flipscr (p : Params) (xi yi : BitVec 9) (fx fy : Bool) (bank : BitVec 7) (sw sh zx zy : Word) (t : Tbl) : (loadCommon p xi yi fx fy bank sw sh zx zy t).flipscr = t.flipscr := rfl
@[simp] theorem loadCommon_ram (p : Params) (xi yi : BitVec 9) (fx fy : Bool) (bank : BitVec 7) (sw sh zx zy : Word) (t : Tbl) : (loadCommon p xi yi fx fy bank sw sh zx zy t).ram = t.ram := rfl
@[simp] theorem loadCommon_fb (p : Params) (xi yi : BitVec 9) (fx fy : Bool) (bank : BitVec 7) (sw sh zx zy : Word) (t : Tbl) : (loadCommon p xi yi fx fy bank sw sh zx zy t).fb = t.fb := rfl
@[simp] theorem loadCommon_cmdptr (p : Params) (xi yi : BitVec 9) (fx fy : Bool) (bank : BitVec 7) (sw sh zx zy : Word) (t : Tbl) : (loadCommon p xi yi fx fy bank sw sh zx zy t).cmdptr = t.cmdptr := rfl
@[simp] theorem loadCommon_w (p : Params) (xi yi : BitVec 9) (fx fy : Bool) (bank : BitVec 7) (sw sh zx zy : Word) (t : Tbl) : (loadCommon p xi yi fx fy bank sw sh zx zy t).w = t.w := rfl
@[simp] theorem loadCommon_code (p : Params) (xi yi : BitVec 9) (fx fy : Bool) (bank : BitVec 7) (sw sh zx zy : Word) (t : Tbl) : (loadCommon p xi yi fx fy bank sw sh zx zy t).code = t.code := rfl
@[simp] theorem loadCommon_flipx (p : Params) (xi yi : BitVec 9) (fx fy : Bool) (bank : BitVec 7) (sw sh zx zy : Word) (t : Tbl) : (loadCommon p xi yi fx fy bank sw sh zx zy t).flipx = fx := rfl
@[simp] theorem loadCommon_flipy (p : Params) (xi yi : BitVec 9) (fx fy : Bool) (bank : BitVec 7) (sw sh zx zy : Word) (t : Tbl) : (loadCommon p xi yi fx fy bank sw sh zx zy t).flipy = fy := rfl
@[simp] theorem loadCommon_cond (p : Params) (xi yi : BitVec 9) (fx fy : Bool) (bank : BitVec 7) (sw sh zx zy : Word) (t : Tbl) : (loadCommon p xi yi fx fy bank sw sh zx zy t).cond = t.cond := rfl
@[simp] theorem loadCommon_tmap (p : Params) (xi yi : BitVec 9) (fx fy : Bool) (bank : BitVec 7) (sw sh zx zy : Word) (t : Tbl) : (loadCommon p xi yi fx fy bank sw sh zx zy t).tmap = t.tmap := rfl
@[simp] theorem loadCommon_bank (p : Params) (xi yi : BitVec 9) (fx fy : Bool) (bank : BitVec 7) (sw sh zx zy : Word) (t : Tbl) : (loadCommon p xi yi fx fy bank sw sh zx zy t).bank = bank := rfl
@[simp] theorem loadCommon_dx (p : Params) (xi yi : BitVec 9) (fx fy : Bool) (bank : BitVec 7) (sw sh zx zy : Word) (t : Tbl) : (loadCommon p xi yi fx fy bank sw sh zx zy t).dx = destCoord p.fbW xi := rfl
@[simp] theorem loadCommon_dy (p : Params) (xi yi : BitVec 9) (fx fy : Bool) (bank : BitVec 7) (sw sh zx zy : Word) (t : Tbl) : (loadCommon p xi yi fx fy bank sw sh zx zy t).dy = destCoord p.fbH yi := rfl
@[simp] theorem loadCommon_sw (p : Params) (xi yi : BitVec 9) (fx fy : Bool) (bank : BitVec 7) (sw sh zx zy : Word) (t : Tbl) : (loadCommon p xi yi fx fy bank sw sh zx zy t).sw = sw := rfl
@[simp] theorem loadCommon_sh (p : Params) (xi yi : BitVec 9) (fx fy : Bool) (bank : BitVec 7) (sw sh zx zy : Word) (t : Tbl) : (loadCommon p xi yi fx fy bank sw sh zx zy t).sh = sh := rfl
@[simp] theorem loadCommon_zx (p : Params) (xi yi : BitVec 9) (fx fy : Bool) (bank : BitVec 7) (sw sh zx zy : Word) (t : Tbl) : (loadCommon p xi yi fx fy bank sw sh zx zy t).zx = zx := rfl
@[simp] theorem loadCommon_zy (p : Params) (xi yi : BitVec 9) (fx fy : Bool) (bank : BitVec 7) (sw sh zx zy : Word) (t : Tbl) : (loadCommon p xi yi fx fy bank sw sh zx zy t).zy = zy := rfl
@[simp] theorem loadCommon_spx (p : Params) (xi yi : BitVec 9) (fx fy : Bool) (bank : BitVec 7) (sw sh zx zy : Word) (t : Tbl) : (loadCommon p xi yi fx fy bank sw sh zx zy t).spx = t.spx := rfl
@[simp] theorem loadCommon_spy (p : Params) (xi yi : BitVec 9) (fx fy : Bool) (bank : BitVec 7) (sw sh zx zy : Word) (t : Tbl) : (loadCommon p xi yi fx fy bank sw sh zx zy t).spy = t.spy := rfl
@[simp] theorem loadCommon_stripCode (p : Params) (xi yi : BitVec 9) (fx fy : Bool) (bank : BitVec 7) (sw sh zx zy : Word) (t : Tbl) : (loadCommon p xi yi fx fy bank sw sh zx zy t).stripCode = t.stripCode := rfl

@[simp] theorem loadTilemap_gfxlist (p : Params) (xi yi : BitVec 9) (fx fy cond : Bool) (bank : BitVec 7) (sw sh : Word) (spx spy : BitVec 12) (zx zy : Word) (t : Tbl) : (loadTilemap p xi yi fx fy cond bank sw sh spx spy zx zy t).gfxlist = t.gfxlist := rfl
@[simp] theorem loadTilemap_flipscr (p : Params) (xi yi : BitVec 9) (fx fy cond : Bool) (bank : BitVec 7) (sw sh : Word) (spx spy : BitVec 12) (zx zy : Word) (t : Tbl) : (loadTilemap p xi yi fx fy cond bank sw sh spx spy zx zy t).flipscr = t.flipscr := rfl
@[simp] theorem loadTilemap_ram (p : Params) (xi yi : BitVec 9) (fx fy cond : Bool) (bank : BitVec 7) (sw sh : Word) (spx spy : BitVec 12) (zx zy : Word) (t : Tbl) : (loadTilemap p xi yi fx fy cond bank sw sh spx spy zx zy t).ram = t.ram := rfl
@[simp] theorem loadTilemap_fb (p : Params) (xi yi : BitVec 9) (fx fy cond : Bool) (bank : BitVec 7) (sw sh : Word) (spx spy : BitVec 12) (zx zy : Word) (t : Tbl) : (loadTilemap p xi yi fx fy cond bank sw sh spx spy zx zy t).fb = t.fb := rfl
@[simp] theorem loadTilemap_cmdptr (p : Params) (xi yi : BitVec 9) (fx fy cond : Bool) (bank : BitVec 7) (sw sh : Word) (spx spy : BitVec 12) (zx zy : Word) (t : Tbl) : (loadTilemap p xi yi fx fy cond bank sw sh spx spy zx zy t).cmdptr = t.cmdptr := rfl
@[simp] theorem loadTilemap_w (p : Params) (xi yi : BitVec 9) (fx fy cond : Bool) (bank : BitVec 7) (sw sh : Word) (spx spy : BitVec 12) (zx zy : Word) (t : Tbl) : (loadTilemap p xi yi fx fy cond bank sw sh spx spy zx zy t).w = t.w := rfl
@[simp] theorem loadTilemap_code (p : Params) (xi yi : BitVec 9) (fx fy cond : Bool) (bank : BitVec 7) (sw sh : Word) (spx spy : BitVec 12) (zx zy : Word) (t : Tbl) : (loadTilemap p xi yi fx fy cond bank sw sh spx spy zx zy t).code = t.code := rfl
@[simp] theorem loadTilemap_flipx (p : Params) (xi yi : BitVec 9) (fx fy cond : Bool) (bank : BitVec 7) (sw sh : Word) (spx spy : BitVec 12) (zx zy : Word) (t : Tbl) : (loadTilemap p xi yi fx fy cond bank sw sh spx spy zx zy t).flipx = fx := rfl
@[simp] theorem loadTilemap_flipy (p : Params) (xi yi : BitVec 9) (fx fy cond : Bool) (bank : BitVec 7) (sw sh : Word) (spx spy : BitVec 12) (zx zy : Word) (t : Tbl) : (loadTilemap p xi yi fx fy cond bank sw sh spx spy zx zy t).flipy = fy := rfl
@[simp] theorem loadTilemap_cond (p : Params) (xi yi : BitVec 9) (fx fy cond : Bool) (bank : BitVec 7) (sw sh : Word) (spx spy : BitVec 12) (zx zy : Word) (t : Tbl) : (loadTilemap p xi yi fx fy cond bank sw sh spx spy zx zy t).cond = cond := rfl
@[simp] theorem loadTilemap_tmap (p : Params) (xi yi : BitVec 9) (fx fy cond : Bool) (bank : BitVec 7) (sw sh : Word) (spx spy : BitVec 12) (zx zy : Word) (t : Tbl) : (loadTilemap p xi yi fx fy cond bank sw sh spx spy zx zy t).tmap = true := rfl
@[simp] theorem loadTilemap_bank (p : Params) (xi yi : BitVec 9) (fx fy cond : Bool) (bank : BitVec 7) (sw sh : Word) (spx spy : BitVec 12) (zx zy : Word) (t : Tbl) : (loadTilemap p xi yi fx fy cond bank sw sh spx spy zx zy t).bank = bank := rfl
@[simp] theorem loadTilemap_dx (p : Params) (xi yi : BitVec 9) (fx fy cond : Bool) (bank : BitVec 7) (sw sh : Word) (spx spy : BitVec 12) (zx zy : Word) (t : Tbl) : (loadTilemap p xi yi fx fy cond bank sw sh spx spy zx zy t).dx = destCoord p.fbW xi := rfl
@[simp] theorem loadTilemap_dy (p : Params) (xi yi : BitVec 9) (fx fy cond : Bool) (bank : BitVec 7) (sw sh : Word) (spx spy : BitVec 12) (zx zy : Word) (t : Tbl) : (loadTilemap p xi yi fx fy cond bank sw sh spx spy zx zy t).dy = destCoord p.fbH yi := rfl
@[simp] theorem loadTilemap_sw (p : Params) (xi yi : BitVec 9) (fx fy cond : Bool) (bank : BitVec 7) (sw sh : Word) (spx spy : BitVec 12) (zx zy : Word) (t : Tbl) : (loadTilemap p xi yi fx fy cond bank sw sh spx spy zx zy t).sw = sw := rfl
@[simp] theorem loadTilemap_sh (p : Params) (xi yi : BitVec 9) (fx fy cond : Bool) (bank : BitVec 7) (sw sh : Word) (spx spy : BitVec 12) (zx zy : Word) (t : Tbl) : (loadTilemap p xi yi fx fy cond bank sw sh spx spy zx zy t).sh = sh := rfl
@[simp] theorem loadTilemap_zx (p : Params) (xi yi : BitVec 9) (fx fy cond : Bool) (bank : BitVec 7) (sw sh : Word) (spx spy : BitVec 12) (zx zy : Word) (t : Tbl) : (loadTilemap p xi yi fx fy cond bank sw sh spx spy zx zy t).zx = zx := rfl
@[simp] theorem loadTilemap_zy (p : Params) (xi yi : BitVec 9) (fx fy cond : Bool) (bank : BitVec 7) (sw sh : Word) (spx spy : BitVec 12) (zx zy : Word) (t : Tbl) : (loadTilemap p xi yi fx fy cond bank sw sh spx spy zx zy t).zy = zy := rfl
@[simp] theorem loadTilemap_spx (p : Params) (xi yi : BitVec 9) (fx fy cond : Bool) (bank : BitVec 7) (sw sh : Word) (spx spy : BitVec 12) (zx zy : Word) (t : Tbl) : (loadTilemap p xi yi fx fy cond bank sw sh spx spy zx zy t).spx = spx := rfl
@[simp] theorem loadTilemap_spy (p : Params) (xi yi : BitVec 9) (fx fy cond : Bool) (bank : BitVec 7) (sw sh : Word) (spx spy : BitVec 12) (zx zy : Word) (t : Tbl) : (loadTilemap p xi yi fx fy cond bank sw sh spx spy zx zy t).spy = spy := rfl
@[simp] theorem loadTilemap_stripCode (p : Params) (xi yi : BitVec 9) (fx fy cond : Bool) (bank : BitVec 7) (sw sh : Word) (spx spy : BitVec 12) (zx zy : Word) (t : Tbl) : (loadTilemap p xi yi fx fy cond bank sw sh spx spy zx zy t).stripCode = t.stripCode := rfl

@[simp] theorem decodeFields_gfxlist (b : Board) (t : Tbl) : (decodeFields b t).gfxlist = t.gfxlist := rfl
@[simp] theorem decodeFields_flipscr (b : Board) (t : Tbl) : (decodeFields b t).flipscr = t.flipscr := rfl
@[simp] theorem decodeFields_ram (b : Board) (t : Tbl) : (decodeFields b t).ram = t.ram := rfl
@[simp] theorem decodeFields_fb (b : Board) (t : Tbl) : (decodeFields b t).fb = t.fb := rfl
@[simp] theorem decodeFields_cmdptr (b : Board) (t : Tbl) : (decodeFields b t).cmdptr = t.cmdptr := rfl
@[simp] theorem decodeFields_w (b : Board) (t : Tbl) : (decodeFields b t).w = t.w := rfl
@[simp] theorem decodeFields_code (b : Board) (t : Tbl) : (decodeFields b t).code = t.w.code := rfl
@[simp] theorem decodeFields_flipx (b : Board) (t : Tbl) : (decodeFields b t).flipx = t.w.fx := rfl
@[simp] theorem decodeFields_flipy (b : Board) (t : Tbl) : (decodeFields b t).flipy = t.w.fy := rfl
@[simp] theorem decodeFields_cond (b : Board) (t : Tbl) : (decodeFields b t).cond = t.w.cond := rfl
@[simp] theorem decodeFields_tmap (b : Board) (t : Tbl) : (decodeFields b t).tmap = t.w.tm := rfl
@[simp] theorem decodeFields_bank (b : Board) (t : Tbl) : (decodeFields b t).bank = t.w.bank := rfl
@[simp] theorem decodeFields_dx (b : Board) (t : Tbl) : (decodeFields b t).dx = destCoord b.params.fbW t.w.xi := rfl
@[simp] theorem decodeFields_dy (b : Board) (t : Tbl) : (decodeFields b t).dy = destCoord b.params.fbH t.w.yi := rfl
@[simp] theorem decodeFields_sw (b : Board) (t : Tbl) : (decodeFields b t).sw = t.w.sw := rfl
@[simp] theorem decodeFields_sh (b : Board) (t : Tbl) : (decodeFields b t).sh = t.w.sh := rfl
@[simp] theorem decodeFields_zx (b : Board) (t : Tbl) : (decodeFields b t).zx = t.w.zx := rfl
@[simp] theorem decodeFields_zy (b : Board) (t : Tbl) : (decodeFields b t).zy = t.w.zy := rfl
@[simp] theorem decodeFields_spx (b : Board) (t : Tbl) : (decodeFields b t).spx = t.w.spx := rfl
@[simp] theorem decodeFields_spy (b : Board) (t : Tbl) : (decodeFields b t).spy = t.w.spy := rfl
@[simp] theorem decodeFields_stripCode (b : Board) (t : Tbl) : (decodeFields b t).stripCode = t.stripCode := rfl

@[simp] theorem drawTile_gfxlist (b : Board) (code : Word) (bank : BitVec 7) (fx fy : Bool) (x y : Int) (zx zy : Word) (t : Tbl) : (drawTile b code bank fx fy x y zx zy t).gfxlist = t.gfxlist := rfl
@[simp] theorem drawTile_flipscr (b : Board) (code : Word) (bank : BitVec 7) (fx fy : Bool) (x y : Int) (zx zy : Word) (t : Tbl) : (drawTile b code bank fx fy x y zx zy t).flipscr = t.flipscr := rfl
@[simp] theorem drawTile_ram (b : Board) (code : Word) (bank : BitVec 7) (fx fy : Bool) (x y : Int) (zx zy : Word) (t : Tbl) : (drawTile b code bank fx fy x y zx zy t).ram = t.ram := rfl
@[simp] theorem drawTile_fb (b : Board) (code : Word) (bank : BitVec 7) (fx fy : Bool) (x y : Int) (zx zy : Word) (t : Tbl) : (drawTile b code bank fx fy x y zx zy t).fb = drawPlots b.params (tilePlots b code bank fx fy x y zx zy) t.fb := rfl
@[simp] theorem drawTile_cmdptr (b : Board) (code : Word) (bank : BitVec 7) (fx fy : Bool) (x y : Int) (zx zy : Word) (t : Tbl) : (drawTile b code bank fx fy x y zx zy t).cmdptr = t.cmdptr := rfl
@[simp] theorem drawTile_w (b : Board) (code : Word) (bank : BitVec 7) (fx fy : Bool) (x y : Int) (zx zy : Word) (t : Tbl) : (drawTile b code bank fx fy x y zx zy t).w = t.w := rfl
@[simp] theorem drawTile_code (b : Board) (code : Word) (bank : BitVec 7) (fx fy : Bool) (x y : Int) (zx zy : Word) (t : Tbl) : (drawTile b code bank fx fy x y zx zy t).code = t.code := rfl
@[simp] theorem drawTile_flipx (b : Board) (code : Word) (bank : BitVec 7) (fx fy : Bool) (x y : Int) (zx zy : Word) (t : Tbl) : (drawTile b code bank fx fy x y zx zy t).flipx = t.flipx := rfl
@[simp] theorem drawTile_flipy (b : Board) (code : Word) (bank : BitVec 7) (fx fy : Bool) (x y : Int) (zx zy : Word) (t : Tbl) : (drawTile b code bank fx fy x y zx zy t).flipy = t.flipy := rfl
@[simp] theorem drawTile_cond (b : Board) (code : Word) (bank : BitVec 7) (fx fy : Bool) (x y : Int) (zx zy : Word) (t : Tbl) : (drawTile b code bank fx fy x y zx zy t).cond = t.cond := rfl
@[simp] theorem drawTile_tmap (b : Board) (code : Word) (bank : BitVec 7) (fx fy : Bool) (x y : Int) (zx zy : Word) (t : Tbl) : (drawTile b code bank fx fy x y zx zy t).tmap = t.tmap := rfl
@[simp] theorem drawTile_bank (b : Board) (code : Word) (bank : BitVec 7) (fx fy : Bool) (x y : Int) (zx zy : Word) (t : Tbl) : (drawTile b code bank fx fy x y zx zy t).bank = t.bank := rfl
@[simp] theorem drawTile_dx (b : Board) (code : Word) (bank : BitVec 7) (fx fy : Bool) (x y : Int) (zx zy : Word) (t : Tbl) : (drawTile b code bank fx fy x y zx zy t).dx = t.dx := rfl
@[simp] theorem drawTile_dy (b : Board) (code : Word) (bank : BitVec 7) (fx fy : Bool) (x y : Int) (zx zy : Word) (t : Tbl) : (drawTile b code bank fx fy x y zx zy t).dy = t.dy := rfl
@[simp] theorem drawTile_sw (b : Board) (code : Word) (bank : BitVec 7) (fx fy : Bool) (x y : Int) (zx zy : Word) (t : Tbl) : (drawTile b code bank fx fy x y zx zy t).sw = t.sw := rfl
@[simp] theorem drawTile_sh (b : Board) (code : Word) (bank : BitVec 7) (fx fy : Bool) (x y : Int) (zx zy : Word) (t : Tbl) : (drawTile b code bank fx fy x y zx zy t).sh = t.sh := rfl
@[simp] theorem drawTile_zx (b : Board) (code : Word) (bank : BitVec 7) (fx fy : Bool) (x y : Int) (zx zy : Word) (t : Tbl) : (drawTile b code bank fx fy x y zx zy t).zx = t.zx := rfl
@[simp] theorem drawTile_zy (b : Board) (code : Word) (bank : BitVec 7) (fx fy : Bool) (x y : Int) (zx zy : Word) (t : Tbl) : (drawTile b code bank fx fy x y zx zy t).zy = t.zy := rfl
@[simp] theorem drawTile_spx (b : Board) (code : Word) (bank : BitVec 7) (fx fy : Bool) (x y : Int) (zx zy : Word) (t : Tbl) : (drawTile b code bank fx fy x y zx zy t).spx = t.spx := rfl
@[simp] theorem drawTile_spy (b : Board) (code : Word) (bank : BitVec 7) (fx fy : Bool) (x y : Int) (zx zy : Word) (t : Tbl) : (drawTile b code bank fx fy x y zx zy t).spy = t.spy := rfl
@[simp] theorem drawTile_stripCode (b : Board) (code : Word) (bank : BitVec 7) (fx fy : Bool) (x y : Int) (zx zy : Word) (t : Tbl) : (drawTile b code bank fx fy x y zx zy t).stripCode = t.stripCode := rfl

@[simp] theorem drawAt_gfxlist (b : Board) (code : Word) (ox oy : Nat) (t : Tbl) : (drawAt b code ox oy t).gfxlist = t.gfxlist := rfl
@[simp] theorem drawAt_flipscr (b : Board) (code : Word) (ox oy : Nat) (t : Tbl) : (drawAt b code ox oy t).flipscr = t.flipscr := rfl
@[simp] theorem drawAt_ram (b : Board) (code : Word) (ox oy : Nat) (t : Tbl) : (drawAt b code ox oy t).ram = t.ram := rfl
@[simp] theorem drawAt_fb (b : Board) (code : Word) (ox oy : Nat) (t : Tbl) : (drawAt b code ox oy t).fb = drawPlots b.params (tilePlots b code t.bank t.flipx t.flipy (t.dx + ox) (t.dy + oy) t.zx t.zy) t.fb := rfl
@[simp] theorem drawAt_cmdptr (b : Board) (code : Word) (ox oy : Nat) (t : Tbl) : (drawAt b code ox oy t).cmdptr = t.cmdptr := rfl
@[simp] theorem drawAt_w (b : Board) (code : Word) (ox oy : Nat) (t : Tbl) : (drawAt b code ox oy t).w = t.w := rfl
@[simp] theorem drawAt_code (b : Board) (code : Word) (ox oy : Nat) (t : Tbl) : (drawAt b code ox oy t).code = t.code := rfl
@[simp] theorem drawAt_flipx (b : Board) (code : Word) (ox oy : Nat) (t : Tbl) : (drawAt b code ox oy t).flipx = t.flipx := rfl
@[simp] theorem drawAt_flipy (b : Board) (code : Word) (ox oy : Nat) (t : Tbl) : (drawAt b code ox oy t).flipy = t.flipy := rfl
@[simp] theorem drawAt_cond (b : Board) (code : Word) (ox oy : Nat) (t : Tbl) : (drawAt b code ox oy t).cond = t.cond := rfl
@[simp] theorem drawAt_tmap (b : Board) (code : Word) (ox oy : Nat) (t : Tbl) : (drawAt b code ox oy t).tmap = t.tmap := rfl
@[simp] theorem drawAt_bank (b : Board) (code : Word) (ox oy : Nat) (t : Tbl) : (drawAt b code ox oy t).bank = t.bank := rfl
@[simp] theorem drawAt_dx (b : Board) (code : Word) (ox oy : Nat) (t : Tbl) : (drawAt b code ox oy t).dx = t.dx := rfl
@[simp] theorem drawAt_dy (b : Board) (code : Word) (ox oy : Nat) (t : Tbl) : (drawAt b code ox oy t).dy = t.dy := rfl
@[simp] theorem drawAt_sw (b : Board) (code : Word) (ox oy : Nat) (t : Tbl) : (drawAt b code ox oy t).sw = t.sw := rfl
@[simp] theorem drawAt_sh (b : Board) (code : Word) (ox oy : Nat) (t : Tbl) : (drawAt b code ox oy t).sh = t.sh := rfl
@[simp] theorem drawAt_zx (b : Board) (code : Word) (ox oy : Nat) (t : Tbl) : (drawAt b code ox oy t).zx = t.zx := rfl
@[simp] theorem drawAt_zy (b : Board) (code : Word) (ox oy : Nat) (t : Tbl) : (drawAt b code ox oy t).zy = t.zy := rfl
@[simp] theorem drawAt_spx (b : Board) (code : Word) (ox oy : Nat) (t : Tbl) : (drawAt b code ox oy t).spx = t.spx := rfl
@[simp] theorem drawAt_spy (b : Board) (code : Word) (ox oy : Nat) (t : Tbl) : (drawAt b code ox oy t).spy = t.spy := rfl
@[simp] theorem drawAt_stripCode (b : Board) (code : Word) (ox oy : Nat) (t : Tbl) : (drawAt b code ox oy t).stripCode = t.stripCode := rfl

@[simp] theorem advanceCode_gfxlist (c : Word) (t : Tbl) : (advanceCode c t).gfxlist = t.gfxlist := rfl
@[simp] theorem advanceCode_flipscr (c : Word) (t : Tbl) : (advanceCode c t).flipscr = t.flipscr := rfl
@[simp] theorem advanceCode_ram (c : Word) (t : Tbl) : (advanceCode c t).ram = t.ram := rfl
@[simp] theorem advanceCode_fb (c : Word) (t : Tbl) : (advanceCode c t).fb = t.fb := rfl
@[simp] theorem advanceCode_cmdptr (c : Word) (t : Tbl) : (advanceCode c t).cmdptr = t.cmdptr := rfl
@[simp] theorem advanceCode_w (c : Word) (t : Tbl) : (advanceCode c t).w = t.w := rfl
@[simp] theorem advanceCode_code (c : Word) (t : Tbl) : (advanceCode c t).code = t.code := rfl
@[simp] theorem advanceCode_flipx (c : Word) (t : Tbl) : (advanceCode c t).flipx = t.flipx := rfl
@[simp] theorem advanceCode_flipy (c : Word) (t : Tbl) : (advanceCode c t).flipy = t.flipy := rfl
@[simp] theorem advanceCode_cond (c : Word) (t : Tbl) : (advanceCode c t).cond = t.cond := rfl
@[simp] theorem advanceCode_tmap (c : Word) (t : Tbl) : (advanceCode c t).tmap = t.tmap := rfl
@[simp] theorem advanceCode_bank (c : Word) (t : Tbl) : (advanceCode c t).bank = t.bank := rfl
@[simp] theorem advanceCode_dx (c : Word) (t : Tbl) : (advanceCode c t).dx = t.dx := rfl
@[simp] theorem advanceCode_dy (c : Word) (t : Tbl) : (advanceCode c t).dy = t.dy := rfl
@[simp] theorem advanceCode_sw (c : Word) (t : Tbl) : (advanceCode c t).sw = t.sw := rfl
@[simp] theorem advanceCode_sh (c : Word) (t : Tbl) : (advanceCode c t).sh = t.sh := rfl
@[simp] theorem advanceCode_zx (c : Word) (t : Tbl) : (advanceCode c t).zx = t.zx := rfl
@[simp] theorem advanceCode_zy (c : Word) (t : Tbl) : (advanceCode c t).zy = t.zy := rfl
@[simp] theorem advanceCode_spx (c : Word) (t : Tbl) : (advanceCode c t).spx = t.spx := rfl
@[simp] theorem advanceCode_spy (c : Word) (t : Tbl) : (advanceCode c t).spy = t.spy := rfl
@[simp] theorem advanceCode_stripCode (c : Word) (t : Tbl) : (advanceCode c t).stripCode = nextCodeOf c := rfl

@[simp] theorem advancePtr_gfxlist (t : Tbl) : (advancePtr t).gfxlist = t.gfxlist := rfl
@[simp] theorem advancePtr_flipscr (t : Tbl) : (advancePtr t).flipscr = t.flipscr := rfl
@[simp] theorem advancePtr_ram (t : Tbl) : (advancePtr t).ram = t.ram := rfl
@[simp] theorem advancePtr_fb (t : Tbl) : (advancePtr t).fb = t.fb := rfl
@[simp] theorem advancePtr_cmdptr (t : Tbl) : (advancePtr t).cmdptr = t.cmdptr + Config.cmdWords := rfl
@[simp] theorem advancePtr_w (t : Tbl) : (advancePtr t).w = t.w := rfl
@[simp] theorem advancePtr_code (t : Tbl) : (advancePtr t).code = t.code := rfl
@[simp] theorem advancePtr_flipx (t : Tbl) : (advancePtr t).flipx = t.flipx := rfl
@[simp] theorem advancePtr_flipy (t : Tbl) : (advancePtr t).flipy = t.flipy := rfl
@[simp] theorem advancePtr_cond (t : Tbl) : (advancePtr t).cond = t.cond := rfl
@[simp] theorem advancePtr_tmap (t : Tbl) : (advancePtr t).tmap = t.tmap := rfl
@[simp] theorem advancePtr_bank (t : Tbl) : (advancePtr t).bank = t.bank := rfl
@[simp] theorem advancePtr_dx (t : Tbl) : (advancePtr t).dx = t.dx := rfl
@[simp] theorem advancePtr_dy (t : Tbl) : (advancePtr t).dy = t.dy := rfl
@[simp] theorem advancePtr_sw (t : Tbl) : (advancePtr t).sw = t.sw := rfl
@[simp] theorem advancePtr_sh (t : Tbl) : (advancePtr t).sh = t.sh := rfl
@[simp] theorem advancePtr_zx (t : Tbl) : (advancePtr t).zx = t.zx := rfl
@[simp] theorem advancePtr_zy (t : Tbl) : (advancePtr t).zy = t.zy := rfl
@[simp] theorem advancePtr_spx (t : Tbl) : (advancePtr t).spx = t.spx := rfl
@[simp] theorem advancePtr_spy (t : Tbl) : (advancePtr t).spy = t.spy := rfl
@[simp] theorem advancePtr_stripCode (t : Tbl) : (advancePtr t).stripCode = t.stripCode := rfl

@[simp] theorem flipAdjust_gfxlist (b : Board) (t : Tbl) : (flipAdjust b t).gfxlist = t.gfxlist := by unfold flipAdjust; split <;> rfl
@[simp] theorem flipAdjust_flipscr (b : Board) (t : Tbl) : (flipAdjust b t).flipscr = t.flipscr := by unfold flipAdjust; split <;> rfl
@[simp] theorem flipAdjust_ram (b : Board) (t : Tbl) : (flipAdjust b t).ram = t.ram := by unfold flipAdjust; split <;> rfl
@[simp] theorem flipAdjust_fb (b : Board) (t : Tbl) : (flipAdjust b t).fb = t.fb := by unfold flipAdjust; split <;> rfl
@[simp] theorem flipAdjust_cmdptr (b : Board) (t : Tbl) : (flipAdjust b t).cmdptr = t.cmdptr := by unfold flipAdjust; split <;> rfl
@[simp] theorem flipAdjust_w (b : Board) (t : Tbl) : (flipAdjust b t).w = t.w := by unfold flipAdjust; split <;> rfl
@[simp] theorem flipAdjust_code (b : Board) (t : Tbl) : (flipAdjust b t).code = t.code := by unfold flipAdjust; split <;> rfl
@[simp] theorem flipAdjust_cond (b : Board) (t : Tbl) : (flipAdjust b t).cond = t.cond := by unfold flipAdjust; split <;> rfl
@[simp] theorem flipAdjust_tmap (b : Board) (t : Tbl) : (flipAdjust b t).tmap = t.tmap := by unfold flipAdjust; split <;> rfl
@[simp] theorem flipAdjust_bank (b : Board) (t : Tbl) : (flipAdjust b t).bank = t.bank := by unfold flipAdjust; split <;> rfl
@[simp] theorem flipAdjust_sw (b : Board) (t : Tbl) : (flipAdjust b t).sw = t.sw := by unfold flipAdjust; split <;> rfl
@[simp] theorem flipAdjust_sh (b : Board) (t : Tbl) : (flipAdjust b t).sh = t.sh := by unfold flipAdjust; split <;> rfl
@[simp] theorem flipAdjust_zx (b : Board) (t : Tbl) : (flipAdjust b t).zx = t.zx := by unfold flipAdjust; split <;> rfl
@[simp] theorem flipAdjust_zy (b : Board) (t : Tbl) : (flipAdjust b t).zy = t.zy := by unfold flipAdjust; split <;> rfl
@[simp] theorem flipAdjust_spx (b : Board) (t : Tbl) : (flipAdjust b t).spx = t.spx := by unfold flipAdjust; split <;> rfl
@[simp] theorem flipAdjust_spy (b : Board) (t : Tbl) : (flipAdjust b t).spy = t.spy := by unfold flipAdjust; split <;> rfl
@[simp] theorem flipAdjust_stripCode (b : Board) (t : Tbl) : (flipAdjust b t).stripCode = t.stripCode := by unfold flipAdjust; split <;> rfl

theorem flipAdjust_dx (b : Board) (t : Tbl) : (flipAdjust b t).dx = if t.flipscr then mirrored b.params.fbW t.dx t.sw else t.dx := by
  unfold flipAdjust; split <;> rfl
theorem flipAdjust_dy (b : Board) (t : Tbl) : (flipAdjust b t).dy = if t.flipscr then mirrored b.params.fbH t.dy t.sh else t.dy := by
  unfold flipAdjust; split <;> rfl
@[simp] theorem flipAdjust_flipx (b : Board) (t : Tbl) : (flipAdjust b t).flipx = effectiveFlip t.flipscr t.flipx := by
  unfold flipAdjust effectiveFlip; cases h : t.flipscr <;> simp
@[simp] theorem flipAdjust_flipy (b : Board) (t : Tbl) : (flipAdjust b t).flipy = effectiveFlip t.flipscr t.flipy := by
  unfold flipAdjust effectiveFlip; cases h : t.flipscr <;> simp

end Sys2Proof.Machine
end

