-- ==== Sys2Proof/Laws/Control.lean ====
section
/-! SUPPORT. The laws of the control operations: sequencing, `forEach` and `loop`. -/

namespace Sys2Proof.Machine

/-! ## andThen -/

@[simp] theorem andThen_next (s : State) (f : State → Out) : andThen (.next s) f = f s := rfl
@[simp] theorem andThen_fault (r : Fault) (f : State → Out) : andThen (.fault r) f = .fault r := rfl
@[simp] theorem andThen_refused (r : Refusal) (f : State → Out) : andThen (.refused r) f = .refused r := rfl

/-- A sequence answers a next state exactly when both parts do. -/
theorem andThen_eq_next {o : Out} {f : State → Out} {s' : State} :
    andThen o f = .next s' ↔ ∃ s, o = .next s ∧ f s = .next s' := by
  cases o <;> simp [andThen]

/-! ## forEach -/

variable {α : Type}

@[simp] theorem forEach_nil (f : α → State → Out) (s : State) : forEach f [] s = .next s := rfl

@[simp] theorem forEach_cons (f : α → State → Out) (a : α) (l : List α) (s : State) :
    forEach f (a :: l) s = andThen (f a s) (forEach f l) := rfl

/-- What every operation of a `forEach` keeps, the whole keeps. -/
theorem forEach_keeps (P : State → Prop) {f : α → State → Out} {l : List α}
    (hf : ∀ a ∈ l, ∀ s s', P s → f a s = .next s' → P s') {s s' : State} (hs : P s)
    (h : forEach f l s = .next s') : P s' := by
  induction l generalizing s with
  | nil => cases h; exact hs
  | cons a l ih =>
    rw [forEach_cons, andThen_eq_next] at h
    obtain ⟨t, h1, h2⟩ := h
    exact ih (fun b hb => hf b (List.mem_cons_of_mem _ hb)) (hf a (List.mem_cons_self ..) s t hs h1) h2

/-- A `forEach` completes when every operation completes from every state with a property that
every operation keeps. -/
theorem forEach_completes (P : State → Prop) {f : α → State → Out} {l : List α}
    (hf : ∀ a ∈ l, ∀ s, P s → ∃ s', f a s = .next s' ∧ P s') {s : State} (hs : P s) :
    ∃ s', forEach f l s = .next s' ∧ P s' := by
  induction l generalizing s with
  | nil => exact ⟨s, rfl, hs⟩
  | cons a l ih =>
    obtain ⟨t, h1, h2⟩ := hf a (List.mem_cons_self ..) s hs
    obtain ⟨s', h3, h4⟩ := ih (fun b hb => hf b (List.mem_cons_of_mem _ hb)) h2
    exact ⟨s', by rw [forEach_cons, h1, andThen_next, h3], h4⟩

/-! ## loop -/

@[simp] theorem loop_zero (f : Nat → α → α) (a : α) : loop 0 f a = a := rfl

theorem loop_succ (n : Nat) (f : Nat → α → α) (a : α) : loop (n + 1) f a = f n (loop n f a) := by
  simp [loop, List.range_succ, List.foldl_append]

/-- The rule of a counted loop: what holds before pass 0 and is carried by each pass holds after the
last. -/
theorem loop_rule (P : Nat → α → Prop) {n : Nat} {f : Nat → α → α} {a : α} (h0 : P 0 a)
    (hs : ∀ k < n, ∀ x, P k x → P (k + 1) (f k x)) : P n (loop n f a) := by
  induction n with
  | zero => exact h0
  | succ n ih =>
    rw [loop_succ]
    exact hs n (Nat.lt_succ_self n) _ (ih fun k hk => hs k (Nat.lt_succ_of_lt hk))

/-- What every pass keeps, the loop keeps. -/
theorem loop_keeps (P : α → Prop) {n : Nat} {f : Nat → α → α} {a : α} (h0 : P a)
    (hs : ∀ k < n, ∀ x, P x → P (f k x)) : P (loop n f a) :=
  loop_rule (fun _ => P) h0 hs

/-- A field that no pass changes is the same after the loop. -/
theorem loop_field {β : Type} (g : α → β) {n : Nat} {f : Nat → α → α} (hs : ∀ k x, g (f k x) = g x)
    (a : α) : g (loop n f a) = g a :=
  loop_keeps (fun x => g x = g a) rfl fun k _ x hx => (hs k x).trans hx

end Sys2Proof.Machine
end

