-- ==== Sys2Proof/Laws/Memory.lean ====
section
/-! SUPPORT. The laws of the sparse memories: a read after a write, the canonical form every write
keeps, and that canonical memories with equal reads are equal data. -/

namespace Sys2Proof.Machine

variable {α : Type}

@[simp] theorem memRead_nil (d : α) (a : Nat) : memRead d [] a = d := rfl

theorem memRead_cons (d : α) (k : Nat) (v : α) (m : Memory α) (a : Nat) :
    memRead d ((k, v) :: m) a = if k = a then v else memRead d m a := rfl

/-! ## Read after write -/

theorem memRead_memPut (d : α) (m : Memory α) (a b : Nat) (v : α) :
    memRead d (memPut m a v) b = if a = b then v else memRead d m b := by
  induction m with
  | nil => simp [memPut, memRead]
  | cons cell m ih =>
    obtain ⟨k, u⟩ := cell
    simp only [memPut]
    split
    · simp only [memRead]
    · split
      · subst k; simp only [memRead]; split <;> rfl
      · simp only [memRead, ih]; split <;> split <;> first | rfl | omega

theorem memRead_filter_ne (d : α) (m : Memory α) (a b : Nat) :
    memRead d (m.filter fun cell => cell.1 != a) b = if a = b then d else memRead d m b := by
  induction m with
  | nil => simp
  | cons cell m ih =>
    obtain ⟨k, u⟩ := cell
    by_cases hk : k = a
    · subst k
      simp only [List.filter_cons, bne_self_eq_false, Bool.false_eq_true, if_false, ih, memRead]
      split <;> rfl
    · simp only [List.filter_cons, bne_iff_ne, ne_eq, hk, not_false_eq_true, if_true, memRead, ih]
      split <;> split <;> first | rfl | omega

variable [DecidableEq α]

/-- A write changes the cell it names and no other, whatever the list. -/
theorem memRead_memWrite (d : α) (m : Memory α) (a b : Nat) (v : α) :
    memRead d (memWrite d m a v) b = if a = b then v else memRead d m b := by
  unfold memWrite
  split
  · next h => subst h; exact memRead_filter_ne v m a b
  · exact memRead_memPut d m a b v

@[simp] theorem memRead_memWrite_same (d : α) (m : Memory α) (a : Nat) (v : α) :
    memRead d (memWrite d m a v) a = v := by simp [memRead_memWrite]

theorem memRead_memWrite_of_ne (d : α) (m : Memory α) {a b : Nat} (v : α) (h : a ≠ b) :
    memRead d (memWrite d m a v) b = memRead d m b := by simp [memRead_memWrite, h]

/-! ## Canonical form -/

@[simp] theorem memWfFrom_nil (d : α) (hi lo : Nat) : memWfFrom d hi lo [] = true := rfl

@[simp] theorem memWfFrom_cons (d : α) (hi lo k : Nat) (v : α) (m : Memory α) :
    memWfFrom d hi lo ((k, v) :: m) = true ↔
      lo ≤ k ∧ k < hi ∧ v ≠ d ∧ memWfFrom d hi (k + 1) m = true := by
  simp [memWfFrom, and_assoc]

theorem memWfFrom_mono (d : α) {hi lo lo' : Nat} {m : Memory α} (h : memWfFrom d hi lo m = true)
    (hl : lo' ≤ lo) : memWfFrom d hi lo' m = true := by
  cases m with
  | nil => rfl
  | cons cell m =>
    obtain ⟨k, v⟩ := cell
    rw [memWfFrom_cons] at h ⊢
    exact ⟨hl.trans h.1, h.2⟩

theorem memWfFrom_memPut (d : α) {hi lo : Nat} {m : Memory α} {a : Nat} {v : α}
    (h : memWfFrom d hi lo m = true) (hlo : lo ≤ a) (hhi : a < hi) (hv : v ≠ d) :
    memWfFrom d hi lo (memPut m a v) = true := by
  induction m generalizing lo with
  | nil => simp [memPut, hlo, hhi, hv]
  | cons cell m ih =>
    obtain ⟨k, u⟩ := cell
    rw [memWfFrom_cons] at h
    obtain ⟨h1, h2, h3, h4⟩ := h
    simp only [memPut]
    split
    · simp only [memWfFrom_cons]
      exact ⟨hlo, hhi, hv, by omega, h2, h3, h4⟩
    · split
      · subst k; rw [memWfFrom_cons]; exact ⟨h1, h2, hv, h4⟩
      · rw [memWfFrom_cons]
        exact ⟨h1, h2, h3, ih h4 (by omega)⟩

theorem memWfFrom_filter (d : α) {hi lo : Nat} {m : Memory α} (f : Nat × α → Bool)
    (h : memWfFrom d hi lo m = true) : memWfFrom d hi lo (m.filter f) = true := by
  induction m generalizing lo with
  | nil => rfl
  | cons cell m ih =>
    obtain ⟨k, u⟩ := cell
    rw [memWfFrom_cons] at h
    obtain ⟨h1, h2, h3, h4⟩ := h
    rw [List.filter_cons]
    split
    · rw [memWfFrom_cons]; exact ⟨h1, h2, h3, ih h4⟩
    · exact ih (memWfFrom_mono d h4 (by omega))

/-- Every write keeps the canonical form. -/
theorem memory_wf_memWrite (d : α) {size : Nat} {m : Memory α} {a : Nat} (v : α)
    (h : Memory.wf d size m = true) (ha : a < size) :
    Memory.wf d size (memWrite d m a v) = true := by
  unfold memWrite
  split
  · exact memWfFrom_filter d _ h
  · next hv => exact memWfFrom_memPut d h (Nat.zero_le a) ha hv

/-- The empty memory is canonical. -/
@[simp] theorem memory_wf_nil (d : α) (size : Nat) : Memory.wf d size [] = true := rfl

theorem memRead_of_lt (d : α) {hi lo : Nat} {m : Memory α} (h : memWfFrom d hi lo m = true)
    {a : Nat} (ha : a < lo) : memRead d m a = d := by
  induction m generalizing lo with
  | nil => rfl
  | cons cell m ih =>
    obtain ⟨k, u⟩ := cell
    rw [memWfFrom_cons] at h
    rw [memRead_cons, if_neg (by omega)]
    exact ih h.2.2.2 (by omega)

theorem memWfFrom_ext (d : α) {hi lo : Nat} {m m' : Memory α} (h : memWfFrom d hi lo m = true)
    (h' : memWfFrom d hi lo m' = true) (heq : ∀ a, memRead d m a = memRead d m' a) : m = m' := by
  induction m generalizing lo m' with
  | nil =>
    cases m' with
    | nil => rfl
    | cons cell m' =>
      obtain ⟨k, u⟩ := cell
      have hk := heq k
      rw [memWfFrom_cons] at h'
      simp only [memRead_nil, memRead_cons, if_true] at hk
      exact absurd hk.symm h'.2.2.1
  | cons cell m ih =>
    obtain ⟨k, u⟩ := cell
    rw [memWfFrom_cons] at h
    cases m' with
    | nil =>
      have hk := heq k
      simp only [memRead_nil, memRead_cons, if_true] at hk
      exact absurd hk h.2.2.1
    | cons cell' m' =>
      obtain ⟨k', u'⟩ := cell'
      rw [memWfFrom_cons] at h'
      have hkk : k = k' := by
        rcases Nat.lt_trichotomy k k' with hlt | heq' | hgt
        · have hk := heq k
          rw [memRead_cons, memRead_cons, if_pos rfl, if_neg (by omega),
            memRead_of_lt d h'.2.2.2 (by omega)] at hk
          exact absurd hk h.2.2.1
        · exact heq'
        · have hk := heq k'
          rw [memRead_cons, memRead_cons, if_pos rfl, if_neg (by omega),
            memRead_of_lt d h.2.2.2 (by omega)] at hk
          exact absurd hk.symm h'.2.2.1
      subst hkk
      have hu := heq k
      rw [memRead_cons, memRead_cons, if_pos rfl, if_pos rfl] at hu
      subst hu
      congr 1
      refine ih h.2.2.2 h'.2.2.2 fun a => ?_
      by_cases ha : a ≤ k
      · rw [memRead_of_lt d h.2.2.2 (by omega), memRead_of_lt d h'.2.2.2 (by omega)]
      · have := heq a
        rwa [memRead_cons, memRead_cons, if_neg (by omega), if_neg (by omega)] at this

/-- Two canonical memories that read the same everywhere are equal data. -/
theorem memory_ext (d : α) {size : Nat} {m m' : Memory α} (h : Memory.wf d size m = true)
    (h' : Memory.wf d size m' = true) (heq : ∀ a, memRead d m a = memRead d m' a) : m = m' :=
  memWfFrom_ext d h h' heq

/-- An index beyond the size of a canonical memory is not listed. -/
theorem memWfFrom_read_ge (d : α) {hi lo : Nat} {m : Memory α} (h : memWfFrom d hi lo m = true)
    {a : Nat} (ha : hi ≤ a) : memRead d m a = d := by
  induction m generalizing lo with
  | nil => rfl
  | cons cell m ih =>
    obtain ⟨k, u⟩ := cell
    rw [memWfFrom_cons] at h
    rw [memRead_cons, if_neg (by omega)]
    exact ih h.2.2.2

theorem memWfFrom_mem (d : α) {hi lo : Nat} {m : Memory α} (h : memWfFrom d hi lo m = true)
    {k : Nat} {v : α} (hm : (k, v) ∈ m) : lo ≤ k ∧ memRead d m k = v := by
  induction m generalizing lo with
  | nil => cases hm
  | cons cell m ih =>
    obtain ⟨j, u⟩ := cell
    rw [memWfFrom_cons] at h
    rcases List.mem_cons.1 hm with heq | hm
    · cases heq; exact ⟨h.1, by simp [memRead]⟩
    · obtain ⟨h5, h6⟩ := ih h.2.2.2 hm
      exact ⟨by omega, by rw [memRead_cons, if_neg (by omega), h6]⟩

/-! ## Grids -/

/-- A write changes the cell it names and no other. -/
theorem gridRead_gridWrite (d : α) (g : Grid α) (y x y' x' : Nat) (v : α) :
    gridRead d (gridWrite d g y x v) y' x' = if y = y' ∧ x = x' then v else gridRead d g y' x' := by
  unfold gridRead gridWrite
  rw [memRead_memWrite]
  by_cases hy : y = y'
  · subst hy; simp [memRead_memWrite]
  · simp [hy]

/-- Each row of a canonical grid is a canonical memory, the unlisted ones too. -/
theorem gridWf_row (d : α) {rows cols : Nat} {g : Grid α} (h : gridWf d rows cols g = true) (y : Nat) :
    Memory.wf d cols (memRead [] g y) = true := by
  simp only [gridWf, Bool.and_eq_true, List.all_eq_true] at h
  obtain ⟨-, hr⟩ := h
  induction g with
  | nil => rfl
  | cons cell g ih =>
    obtain ⟨k, row⟩ := cell
    rw [memRead_cons]
    split
    · exact hr (k, row) (List.mem_cons_self ..)
    · exact ih fun r hm => hr r (List.mem_cons_of_mem _ hm)

omit [DecidableEq α] in
theorem memPut_all {m : Memory α} {a : Nat} {v : α} (f : Nat × α → Bool) (h : m.all f = true)
    (hv : f (a, v) = true) : (memPut m a v).all f = true := by
  induction m with
  | nil => simp [memPut, hv]
  | cons cell m ih =>
    obtain ⟨k, u⟩ := cell
    simp only [List.all_cons, Bool.and_eq_true] at h
    simp only [memPut]
    split
    · simp [hv, h.1, h.2]
    · split
      · simp [hv, h.2]
      · simp only [List.all_cons, Bool.and_eq_true]; exact ⟨h.1, ih h.2⟩

theorem memWrite_all (d : α) {m : Memory α} {a : Nat} {v : α} (f : Nat × α → Bool)
    (h : m.all f = true) (hv : f (a, v) = true) : (memWrite d m a v).all f = true := by
  unfold memWrite
  split
  · simp only [List.all_eq_true] at h ⊢
    exact fun c hc => h c (List.mem_of_mem_filter hc)
  · exact memPut_all f h hv

/-- Every write keeps the canonical form of a grid. -/
theorem gridWf_gridWrite (d : α) {rows cols : Nat} {g : Grid α} {y x : Nat} (v : α)
    (h : gridWf d rows cols g = true) (hy : y < rows) (hx : x < cols) :
    gridWf d rows cols (gridWrite d g y x v) = true := by
  have hrow := memory_wf_memWrite d v (gridWf_row d h y) hx
  simp only [gridWf, Bool.and_eq_true] at h ⊢
  exact ⟨memory_wf_memWrite [] _ h.1 hy, memWrite_all [] _ h.2 hrow⟩

/-- The empty grid is canonical. -/
@[simp] theorem gridWf_nil (d : α) (rows cols : Nat) : gridWf d rows cols [] = true := rfl

/-- Two canonical grids that read the same everywhere are equal data. -/
theorem grid_ext (d : α) {rows cols : Nat} {g g' : Grid α} (h : gridWf d rows cols g = true)
    (h' : gridWf d rows cols g' = true) (heq : ∀ y x, gridRead d g y x = gridRead d g' y x) :
    g = g' := by
  have h1 : Memory.wf [] rows g = true := by simp only [gridWf, Bool.and_eq_true] at h; exact h.1
  have h2 : Memory.wf [] rows g' = true := by simp only [gridWf, Bool.and_eq_true] at h'; exact h'.1
  exact memory_ext [] h1 h2 fun y =>
    memory_ext d (gridWf_row d h y) (gridWf_row d h' y) fun x => heq y x

end Sys2Proof.Machine
end

