-- ==== Sys2Proof/Laws/Ram.lean ====
section
/-! SUPPORT. The laws of the blitter RAM: a word read back from its two bytes in either byte order,
and what a word write changes. -/

namespace Sys2Proof.Machine

theorem append_extract (v : Word) : v.extractLsb' 8 8 ++ v.extractLsb' 0 8 = v := by
  apply BitVec.eq_of_getLsbD_eq
  intro n hn
  simp only [BitVec.getLsbD_append, BitVec.getLsbD_extractLsb']
  split
  · simp [*]
  · have h1 : n - 8 < 8 := by omega
    have h2 : 8 + (n - 8) = n := by omega
    simp [h1, h2]

theorem joinWord_bytes (order : ByteOrder) (v : Word) :
    joinWord order (lowerByte order v) (higherByte order v) = v := by
  cases order <;> exact append_extract v

theorem ramRead_ramWrite (p : Params) (m : Memory Byte) (a b : Nat) (v : Word) :
    ramRead p (ramWrite p m a v) b = if a = b then v else ramRead p m b := by
  unfold ramRead ramWrite
  simp only [memRead_memWrite]
  by_cases h : a = b
  · subst h
    simp [joinWord_bytes]
  · have h1 : ¬ 2 * a + 1 = 2 * b := by omega
    have h2 : ¬ 2 * a = 2 * b := by omega
    have h4 : ¬ 2 * a = 2 * b + 1 := by omega
    simp [h, h1, h2, h4]

/-- A word write changes its two bytes and no other. -/
theorem byte_ramWrite_of_ne (p : Params) (m : Memory Byte) (a : Nat) (v : Word) {c : Nat}
    (h1 : c ≠ 2 * a) (h2 : c ≠ 2 * a + 1) :
    memRead 0 (ramWrite p m a v) c = memRead 0 m c := by
  unfold ramWrite
  rw [memRead_memWrite_of_ne _ _ _ (Ne.symm h2), memRead_memWrite_of_ne _ _ _ (Ne.symm h1)]

/-- A word write inside RAM keeps the canonical form. -/
theorem memory_wf_ramWrite (p : Params) {m : Memory Byte} {a : Nat} (v : Word)
    (h : Memory.wf 0 (2 * p.ramWords) m = true) (ha : a < p.ramWords) :
    Memory.wf 0 (2 * p.ramWords) (ramWrite p m a v) = true :=
  memory_wf_memWrite 0 _ (memory_wf_memWrite 0 _ h (by omega)) (by omega)

/-- CMD.FETCH reads word `j` of a record from `a + j`. -/
theorem ramRecord_get (p : Params) (m : Memory Byte) (a : Nat) (j : Fin 16) :
    (ramRecord p m a)[j] = ramRead p m (a + j.val) := by simp [ramRecord]

end Sys2Proof.Machine
end

