-- ==== Sys2Proof/Laws/Assembler.lean ====
section
/-! SUPPORT. What the assembler's shared operation can do: RAM.W events at consecutive addresses
(spec/30_encoding.md R110, spec/40_host_writes.md R128). -/

namespace Sys2Proof.Machine

/-- Values written at consecutive addresses inside RAM: each word takes its value, and no byte outside
those words changes. -/
theorem writeValues_inside {a : Nat} {vs : List Nat} {s : State}
    (h : a + vs.length ≤ s.cfg.params.ramWords) :
    ∃ m, writeValues a vs s = .next { s with tbl := { s.tbl with ram := m } } ∧
      (∀ (j : Nat) (hj : j < vs.length), ramRead s.cfg.params m (a + j) = BitVec.ofNat 16 vs[j]) ∧
      ∀ c, c < 2 * a ∨ 2 * (a + vs.length) ≤ c → memRead 0 m c = memRead 0 s.tbl.ram c := by
  induction vs generalizing a s with
  | nil => exact ⟨s.tbl.ram, rfl, fun j hj => absurd hj (Nat.not_lt_zero j), fun _ _ => rfl⟩
  | cons v vs ih =>
    simp only [List.length_cons] at h
    have ha : a < s.cfg.params.ramWords := by omega
    let s1 : State := { s with
      tbl := { s.tbl with ram := ramWrite s.cfg.params s.tbl.ram a (BitVec.ofNat 16 v) } }
    have h1 : execRamW a v s = .next s1 := if_pos ha
    obtain ⟨m, h2, h3, h4⟩ := ih (a := a + 1) (s := s1) (show a + 1 + vs.length ≤ _ by
      show _ ≤ s.cfg.params.ramWords; omega)
    refine ⟨m, ?_, ?_, ?_⟩
    · show andThen (execRamW a v s) _ = _
      rw [h1, andThen_next, h2]
    · intro j hj
      cases j with
      | zero =>
        have hb : ∀ c, c < 2 * (a + 1) → memRead 0 m c = memRead 0 s1.tbl.ram c :=
          fun c hc => h4 c (.inl hc)
        show ramRead s.cfg.params m a = _
        have hr : ramRead s.cfg.params m a = ramRead s.cfg.params s1.tbl.ram a := by
          unfold ramRead
          rw [hb (2 * a) (by omega), hb (2 * a + 1) (by omega)]
        rw [hr]
        show ramRead s.cfg.params (ramWrite _ _ _ _) a = _
        rw [ramRead_ramWrite, if_pos rfl]
        rfl
      | succ j =>
        have := h3 j (by simpa using hj)
        rw [show a + (j + 1) = a + 1 + j by omega]
        exact this
    · intro c hc
      simp only [List.length_cons] at hc
      rw [h4 c (by omega)]
      exact byte_ramWrite_of_ne _ _ _ _ (by omega) (by omega)

/-- Values some of which would lie beyond RAM: the write of the first of those faults. -/
theorem writeValues_beyond {a : Nat} {vs : List Nat} {s : State}
    (h : s.cfg.params.ramWords < a + vs.length) (hv : vs ≠ []) :
    writeValues a vs s = .fault .ramAddress := by
  induction vs generalizing a s with
  | nil => exact absurd rfl hv
  | cons v vs ih =>
    simp only [List.length_cons] at h
    by_cases ha : a < s.cfg.params.ramWords
    · rw [show writeValues a (v :: vs) s = andThen (execRamW a v s) (writeValues (a + 1) vs) from rfl,
        show execRamW a v s = _ from if_pos ha, andThen_next]
      refine ih (by rw [onTbl_cfg]; omega) ?_
      rintro rfl
      simp at h
      omega
    · rw [show writeValues a (v :: vs) s = andThen (execRamW a v s) (writeValues (a + 1) vs) from rfl,
        show execRamW a v s = _ from if_neg ha, andThen_fault]

end Sys2Proof.Machine
end

