-- ==== Sys2Proof/Laws/Blitter.lean ====
section
/-! SUPPORT. What the blitter's shared operations can do: frame-buffer writes, tiles, the screen flip,
drawing commands and the list loop (spec/42_blitter.md). -/

namespace Sys2Proof.Machine

/-- FB.WRITE changes the pixel it names, when that lies inside the buffer, and no other (R196). -/
theorem gridRead_fbPlot (p : Params) (x y : Int) (v : Word) (fb : Grid Word) (x' y' : Nat) :
    gridRead 0 (fbPlot p x y v fb) y' x' =
      if x = x' ∧ y = y' ∧ x' < p.fbW ∧ y' < p.fbH then v else gridRead 0 fb y' x' := by
  unfold fbPlot
  split
  · rw [gridRead_gridWrite]
    by_cases h : x = x' ∧ y = y' ∧ x' < p.fbW ∧ y' < p.fbH
    · rw [if_pos h, if_pos (by omega)]
    · rw [if_neg h, if_neg (by omega)]
  · next h1 =>
    rw [if_neg]
    omega

/-- FB.WRITE keeps the frame buffer canonical. -/
theorem gridWf_fbPlot (p : Params) {x y : Int} {v : Word} {fb : Grid Word}
    (h : gridWf 0 p.fbH p.fbW fb = true) : gridWf 0 p.fbH p.fbW (fbPlot p x y v fb) = true := by
  unfold fbPlot
  split
  · exact gridWf_gridWrite 0 v h (by omega) (by omega)
  · exact h

@[simp] theorem drawPlots_nil (p : Params) (fb : Grid Word) : drawPlots p [] fb = fb := rfl

@[simp] theorem drawPlots_cons (p : Params) (q : Plot) (ps : List Plot) (fb : Grid Word) :
    drawPlots p (q :: ps) fb = drawPlots p ps (fbPlot p q.x q.y q.v fb) := rfl

theorem drawPlots_append (p : Params) (ps qs : List Plot) (fb : Grid Word) :
    drawPlots p (ps ++ qs) fb = drawPlots p qs (drawPlots p ps fb) := by
  simp [drawPlots, List.foldl_append]

/-- Writes made in order: a pixel holds the value of the last write that hits it, or what it held
before (R195). -/
theorem gridRead_drawPlots (p : Params) (ps : List Plot) (fb : Grid Word) (x y : Nat) :
    gridRead 0 (drawPlots p ps fb) y x =
      (((ps.filter fun q : Plot => decide (q.x = x ∧ q.y = y ∧ x < p.fbW ∧ y < p.fbH)).getLast?).map
        Plot.v).getD (gridRead 0 fb y x) := by
  induction ps using List.reverseRecOn with
  | nil => simp
  | append_singleton ps q ih =>
    rw [drawPlots_append, drawPlots_cons, drawPlots_nil, gridRead_fbPlot, List.filter_append]
    by_cases h : q.x = x ∧ q.y = y ∧ x < p.fbW ∧ y < p.fbH
    · simp [h]
    · simp only [h, if_false, ih]
      simp [h]

/-- A pixel that no write hits keeps its value. -/
theorem gridRead_drawPlots_of_not_hit (p : Params) (ps : List Plot) (fb : Grid Word) (x y : Nat)
    (h : ∀ q ∈ ps, ¬ (q.x = x ∧ q.y = y)) :
    gridRead 0 (drawPlots p ps fb) y x = gridRead 0 fb y x := by
  rw [gridRead_drawPlots, List.filter_eq_nil_iff.2]
  · rfl
  · intro q hq
    simp only [decide_eq_true_eq, not_and]
    intro h1 h2
    exact absurd ⟨h1, h2⟩ (h q hq)

/-- Writes in order keep the frame buffer canonical. -/
theorem gridWf_drawPlots (p : Params) (ps : List Plot) {fb : Grid Word}
    (h : gridWf 0 p.fbH p.fbW fb = true) : gridWf 0 p.fbH p.fbW (drawPlots p ps fb) = true := by
  induction ps generalizing fb with
  | nil => exact h
  | cons q ps ih => exact ih (gridWf_fbPlot p h)

/-- Every write of a tile lies in its footprint and carries the command's bank. -/
theorem tilePlots_mem {b : Board} {code : Word} {bank : BitVec 7} {fx fy : Bool} {x y : Int}
    {zx zy : Word} {q : Plot} (h : q ∈ tilePlots b code bank fx fy x y zx zy) :
    ∃ r c, r < tileSize zy ∧ c < tileSize zx ∧ q.x = x + c ∧ q.y = y + r ∧
      q.v = fbPix bank (tsPen b code (sourceIndex fy r (tileSize zy)) (sourceIndex fx c (tileSize zx))) := by
  simp only [tilePlots, List.mem_flatMap, List.mem_filterMap, List.mem_range, tilePlot] at h
  obtain ⟨r, hr, c, hc, h⟩ := h
  split at h
  · cases h
  · cases h; exact ⟨r, c, hr, hc, rfl, rfl, rfl⟩

/-- The list loop: what a fetched and executed command keeps, a run keeps. -/
theorem runFrom_keeps (P : Tbl → Prop) {b : Board}
    (hstep : ∀ t, P t → recordInRam b t = true → P (advancePtr (runCommand b t))) {n : Nat} {t : Tbl}
    (h : P t) : P (runFrom b n t) := by
  induction n generalizing t with
  | zero => exact h
  | succ n ih =>
    unfold runFrom
    split
    · next hr => exact ih (hstep t h hr)
    · exact h

/-- A field that no pass of a strip and no screen flip changes. -/
theorem drawStrip_field {β : Type} (g : Tbl → β)
    (hd : ∀ (b : Board) (c : Word) (ox oy : Nat) (t : Tbl), g (drawAt b c ox oy t) = g t)
    (hc : ∀ (c : Word) (t : Tbl), g { t with stripCode := c } = g t) (b : Board) (t : Tbl) :
    g (drawStrip b t) = g t := by
  unfold drawStrip
  rw [loop_field g]
  · exact hc _ _
  · intro k x
    exact (hc _ _).trans (hd ..)

/-- A field that no tile of a grid changes. -/
theorem drawGrid_field {β : Type} (g : Tbl → β)
    (hd : ∀ (b : Board) (c : Word) (ox oy : Nat) (t : Tbl), g (drawAt b c ox oy t) = g t) (b : Board)
    (pitch mult : Nat) (t : Tbl) : g (drawGrid b pitch mult t) = g t := by
  unfold drawGrid
  exact loop_field g (fun j x => loop_field g (fun k y => hd ..) x) t

/-- A field that neither a tile, nor the strip's code, nor the screen flip changes is the same after
any command's steps 4 to 6. -/
theorem runClass_field {β : Type} (g : Tbl → β)
    (hd : ∀ (b : Board) (c : Word) (ox oy : Nat) (t : Tbl), g (drawAt b c ox oy t) = g t)
    (hc : ∀ (c : Word) (t : Tbl), g { t with stripCode := c } = g t)
    (hf : ∀ (b : Board) (t : Tbl), g (flipAdjust b t) = g t) (b : Board) (cl : CmdClass) (t : Tbl) :
    g (runClass b cl t) = g t := by
  cases cl
  · rfl
  · rfl
  · exact (drawStrip_field g hd hc b _).trans (hf b t)
  · exact (drawGrid_field g hd b _ _ _).trans (hf b t)
  · exact (drawGrid_field g hd b _ _ _).trans (hf b t)

@[simp] theorem runCommand_ram (b : Board) (t : Tbl) : (runCommand b t).ram = t.ram := by
  unfold runCommand
  rw [runClass_field Tbl.ram (by simp) (by simp) (by simp)]
  simp

@[simp] theorem runCommand_gfxlist (b : Board) (t : Tbl) : (runCommand b t).gfxlist = t.gfxlist := by
  unfold runCommand
  rw [runClass_field Tbl.gfxlist (by simp) (by simp) (by simp)]
  simp

@[simp] theorem runCommand_flipscr (b : Board) (t : Tbl) : (runCommand b t).flipscr = t.flipscr := by
  unfold runCommand
  rw [runClass_field Tbl.flipscr (by simp) (by simp) (by simp)]
  simp

@[simp] theorem runCommand_cmdptr (b : Board) (t : Tbl) : (runCommand b t).cmdptr = t.cmdptr := by
  unfold runCommand
  rw [runClass_field Tbl.cmdptr (by simp) (by simp) (by simp)]
  simp

end Sys2Proof.Machine
end

