-- ==== Sys2Proof/Laws/Timeline.lean ====
section
/-! SUPPORT. What the operations on the latch timeline can do: materialising lines, the latch write
and the flush (spec/40_host_writes.md R121, R130). -/

namespace Sys2Proof.Machine

/-- Materialising lines `lo` to `hi - 1` copies the latches into exactly those lines. -/
theorem tlRead_materialise (lo hi : Nat) (u : Slc) (line : Nat) :
    tlRead (materialise lo hi u) line =
      if lo ≤ line ∧ line < hi then u.latch else tlRead u line := by
  have key : ∀ (n : Nat) (m : Memory Latches),
      memRead Latches.zero
        ((List.range' lo n).foldl (fun m l => memWrite Latches.zero m l u.latch) m) line =
      if lo ≤ line ∧ line < lo + n then u.latch else memRead Latches.zero m line := by
    intro n m
    induction n with
    | zero => rw [if_neg (by omega)]; rfl
    | succ n ih =>
      rw [List.range'_concat, List.foldl_append]
      simp only [List.foldl_cons, List.foldl_nil, memRead_memWrite, ih, Nat.one_mul]
      split
      · rw [if_pos (by omega)]
      · split
        · rw [if_pos (by omega)]
        · rw [if_neg (by omega)]
  unfold tlRead materialise
  rw [key]
  by_cases h : lo ≤ line ∧ line < hi
  · rw [if_pos h, if_pos (by omega)]
  · rw [if_neg h, if_neg (by omega)]

/-- Materialising lines of the frame keeps the timeline canonical. -/
theorem memory_wf_materialise {size lo hi : Nat} {u : Slc}
    (h : Memory.wf Latches.zero size u.tl = true) (hhi : hi ≤ size) :
    Memory.wf Latches.zero size (materialise lo hi u).tl = true := by
  have key : ∀ (n : Nat), lo + n ≤ size ∨ n = 0 →
      Memory.wf Latches.zero size
        ((List.range' lo n).foldl (fun m l => memWrite Latches.zero m l u.latch) u.tl) = true := by
    intro n hn
    induction n with
    | zero => exact h
    | succ n ih =>
      rw [List.range'_concat, List.foldl_append]
      exact memory_wf_memWrite _ _ (ih (by omega)) (by omega)
  exact key _ (by omega)

/-- The timeline after a latch write: the lines from `CUR + 1` up to the line before the clamped
one take the old latches (R121). -/
theorem tlRead_latchWrite (p : Params) (idx : Fin 16) (v n : Nat) (u : Slc) (line : Nat) :
    tlRead (latchWrite p idx v n u) line =
      if nextLine u ≤ line ∧ line < min n (p.screenH - 1) then u.latch else tlRead u line :=
  tlRead_materialise (nextLine u) (min n (p.screenH - 1)) u line

/-- The timeline after a flush up to line `t`: the lines from `CUR + 1` up to `t` take the latches
(R130). -/
theorem tlRead_flushLines (t : Int) (u : Slc) (line : Nat) :
    tlRead (flushLines t u) line =
      if nextLine u ≤ line ∧ (line : Int) ≤ t then u.latch else tlRead u line := by
  show tlRead (materialise (nextLine u) (t + 1).toNat u) line = _
  rw [tlRead_materialise]
  by_cases h : nextLine u ≤ line ∧ (line : Int) ≤ t
  · rw [if_pos h, if_pos (by omega)]
  · rw [if_neg h, if_neg (by omega)]

/-- The latch a write names, and the others. -/
theorem latch_latchWrite (p : Params) (idx j : Fin 16) (v n : Nat) (u : Slc) :
    (latchWrite p idx v n u).latch[j] = if idx = j then BitVec.ofNat 8 v else u.latch[j] := by
  simp [Vector.getElem_set, Fin.ext_iff]

/-- FLUSH answers a next state exactly when its target is not below the cursor. -/
theorem execFlush_eq_next {t : Int} {s s' : State} :
    execFlush t s = .next s' ↔
      s.slc.cur ≤ flushTarget s.cfg.params t ∧
        s' = onSlc (flushLines (flushTarget s.cfg.params t)) s := by
  unfold execFlush
  split
  · simp; intro h; omega
  · simp only [Host.Outcome.next.injEq]
    constructor
    · intro h; exact ⟨by omega, h.symm⟩
    · intro h; exact h.2.symm

/-- LINE.INIT answers a next state exactly when the line is materialised. -/
theorem execLineInit_eq_next {y : Nat} {s s' : State} :
    execLineInit y s = .next s' ↔
      (y : Int) ≤ s.slc.cur ∧ s' = onSlc (lineLoad y (tlRead s.slc y)) s := by
  unfold execLineInit
  split
  · simp [*, eq_comm]
  · simp [*]

/-- LINE.RENDER answers a next state exactly when the line is materialised. -/
theorem execLineRender_eq_next {y : Nat} {s s' : State} :
    execLineRender y s = .next s' ↔
      (y : Int) ≤ s.slc.cur ∧
        s' = onSlc (fun u => sweepLine s.cfg (lineLoad y (tlRead s.slc y) u)) s := by
  unfold execLineRender execLineInit
  split
  · next h =>
    rw [andThen_next, onSlc_onSlc, onSlc_cfg]
    simp only [Host.Outcome.next.injEq, h, true_and, eq_comm]
  · next h => simp [h]

end Sys2Proof.Machine
end

