-- ==== Sys2Proof/Laws/Compositor.lean ====
section
/-! SUPPORT. What the compositor's shared operations can do: the counter step of all layers and the
forming of one pixel (spec/41_compositor.md). -/

namespace Sys2Proof.Machine

theorem set_get_fin {α : Type} {n : Nat} (v : Vector α n) (k j : Fin n) (x : α) :
    (v.set k x)[j] = if k = j then x else v[j] := by
  simp [Vector.getElem_set, Fin.ext_iff]

/-- A fetch inside the layer reads the table. -/
theorem bgPixel_inside {b : Board} {r c : Byte} (k : Fin 4) (hr : r.toNat < b.params.bgRows)
    (hc : c.toNat < b.params.bgCols) :
    bgPixel b k r c = memRead 0 b.bg ((k.val * b.params.bgRows + r.toNat) * b.params.bgCols + c.toNat) :=
  if_pos ⟨hr, hc⟩

/-- A fetch outside the layer is the free value (log 35). -/
theorem bgPixel_beyond {b : Board} {r c : Byte} (k : Fin 4)
    (h : ¬ (r.toNat < b.params.bgRows ∧ c.toNat < b.params.bgCols)) :
    bgPixel b k r c = Config.bgBeyond b.params.bgRows b.params.bgCols b.bg k r c := if_neg h

/-- With layers of 256 rows and columns or more, as by default, every fetch reads the table (D11). -/
theorem bgPixel_full {b : Board} (hr : 256 ≤ b.params.bgRows) (hc : 256 ≤ b.params.bgCols) (k : Fin 4)
    (r c : Byte) :
    bgPixel b k r c = memRead 0 b.bg ((k.val * b.params.bgRows + r.toNat) * b.params.bgCols + c.toNat) :=
  bgPixel_inside k (by omega) (by omega)

/-- A fetch depends on BG, its dimensions and the place alone (R156). -/
theorem bgPixel_congr {b b' : Board} (hr : b.params.bgRows = b'.params.bgRows)
    (hc : b.params.bgCols = b'.params.bgCols) (hbg : b.bg = b'.bg) : bgPixel b = bgPixel b' := by
  funext k r c
  simp only [bgPixel, bgPlace, hr, hc, hbg]

/-- A window counter of layer `k`, clocked or not, seen from layer `j`. -/
theorem clocked_get (v : Vector (BitVec 5) 4) (k j : Fin 4) (c : Bool) :
    (if c then v.set k (v[k] + 1) else v)[j] = if k = j ∧ c = true then v[j] + 1 else v[j] := by
  cases c
  · simp
  · by_cases h : k = j
    · subst h; simp
    · rw [if_pos rfl, set_get_fin, if_neg h, if_neg fun hc => h hc.1]

/-- The next horizontal count of a layer, in the direction CFLIP selects. -/
theorem stepLayer_xc (k j : Fin 4) (u : Slc) :
    (stepLayer k u).xc[j] =
      if k = j then (if u.cflip then u.xc[j] - 1 else u.xc[j] + 1) else u.xc[j] := by
  rw [stepLayer_eq, stepTo_xc, set_get_fin]
  split
  · next h => subst h; rfl
  · rfl

theorem stepLayer_st (k j : Fin 4) (u : Slc) :
    (stepLayer k u).st[j] =
      if k = j ∧ (if u.cflip then clockRev (u.xc[j] - 1) else clockFwd (u.xc[j] + 1)) = true
      then u.st[j] + 1 else u.st[j] := by
  rw [stepLayer_eq, stepTo_st, clocked_get]
  by_cases h : k = j
  · subst h; rfl
  · simp [h]

theorem stepLayer_sp (k j : Fin 4) (u : Slc) :
    (stepLayer k u).sp[j] =
      if k = j ∧ (if u.cflip then clockRev (u.xc[j] - 1) else clockFwd (u.xc[j] + 1)) = true
      then u.sp[j] + 1 else u.sp[j] := by
  rw [stepLayer_eq, stepTo_sp, clocked_get]
  by_cases h : k = j
  · subst h; rfl
  · simp [h]

theorem layer_cases (j : Fin 4) : j = 0 ∨ j = 1 ∨ j = 2 ∨ j = 3 := by
  revert j; decide

/-- One step moves every layer's horizontal counter by one. -/
theorem stepLayers_xc (u : Slc) (j : Fin 4) :
    (stepLayers u).xc[j] = if u.cflip then u.xc[j] - 1 else u.xc[j] + 1 := by
  simp only [stepLayers, layers, List.foldl_cons, List.foldl_nil]
  rcases layer_cases j with rfl | rfl | rfl | rfl <;> simp only [stepLayer_xc, stepLayer_cflip] <;> simp

/-- One step clocks every layer's start counter by that layer's own carry or borrow. -/
theorem stepLayers_st (u : Slc) (j : Fin 4) :
    (stepLayers u).st[j] =
      if (if u.cflip then clockRev (u.xc[j] - 1) else clockFwd (u.xc[j] + 1)) = true
      then u.st[j] + 1 else u.st[j] := by
  simp only [stepLayers, layers, List.foldl_cons, List.foldl_nil]
  rcases layer_cases j with rfl | rfl | rfl | rfl <;>
    simp only [stepLayer_st, stepLayer_xc, stepLayer_cflip] <;> simp

/-- One step clocks every layer's stop counter by that layer's own carry or borrow. -/
theorem stepLayers_sp (u : Slc) (j : Fin 4) :
    (stepLayers u).sp[j] =
      if (if u.cflip then clockRev (u.xc[j] - 1) else clockFwd (u.xc[j] + 1)) = true
      then u.sp[j] + 1 else u.sp[j] := by
  simp only [stepLayers, layers, List.foldl_cons, List.foldl_nil]
  rcases layer_cases j with rfl | rfl | rfl | rfl <;>
    simp only [stepLayer_sp, stepLayer_xc, stepLayer_cflip] <;> simp

/-- The enable is a function of the two window counters alone (R42). -/
@[simp] theorem layerOn_layerRaw (b : Board) (j k : Fin 4) (u : Slc) :
    layerOn j (layerRaw b k u) = layerOn j u := rfl

/-- One layer's contribution to the accumulator, from the counters as they stand. -/
theorem formPixel_raw (b : Board) (p : Nat) (u : Slc) (j : Fin 4) :
    (formPixel b p u).raw[j] =
      if layerOn j u then rawOf j (bgPixel b j u.row[j] u.xc[j]) else 0 := by
  have h : layerOn j { u with p := p } = layerOn j u := rfl
  simp only [formPixel, layers, List.foldl_cons, List.foldl_nil, emitPen_raw, formIndex_raw,
    mixSelect_raw, mixCombine_raw]
  rcases layer_cases j with rfl | rfl | rfl | rfl <;> simp [h]

theorem formPixel_acc (b : Board) (p : Nat) (u : Slc) :
    (formPixel b p u).acc =
      (formPixel b p u).raw[0] ||| (formPixel b p u).raw[1] ||| (formPixel b p u).raw[2] |||
        (formPixel b p u).raw[3] := by
  simp [formPixel]

theorem formPixel_lookup (b : Board) (p : Nat) (u : Slc) :
    (formPixel b p u).lookup = lookupOf (mixEntry b (mixIndex (formPixel b p u).acc)) := by
  simp [formPixel]

theorem formPixel_cidx (b : Board) (p : Nat) (u : Slc) :
    (formPixel b p u).cidx = cidxOf (formPixel b p u).lookup (formPixel b p u).acc := by
  simp [formPixel]

/-- Forming a pixel writes one entry of OUT, at the line and the position being rendered. -/
theorem formPixel_out (b : Board) (p : Nat) (u : Slc) :
    (formPixel b p u).out = gridWrite 0 u.out u.y p (penOf u.pbank (formPixel b p u).cidx) := by
  simp [formPixel, layers]

/-- A whole sweep leaves everything of SLC outside the working registers, the datapath and OUT as
it was. -/
theorem sweepLine_frame (b : Board) (u : Slc) :
    (sweepLine b u).latch = u.latch ∧ (sweepLine b u).pbank = u.pbank ∧
    (sweepLine b u).cflip = u.cflip ∧ (sweepLine b u).cbank = u.cbank ∧
    (sweepLine b u).tl = u.tl ∧ (sweepLine b u).cur = u.cur ∧
    (sweepLine b u).inframe = u.inframe ∧ (sweepLine b u).y = u.y ∧
    (sweepLine b u).row = u.row := by
  unfold sweepLine
  refine ⟨?_, ?_, ?_, ?_, ?_, ?_, ?_, ?_, ?_⟩
  · exact loop_field Slc.latch (by simp) u
  · exact loop_field Slc.pbank (by simp) u
  · exact loop_field Slc.cflip (by simp) u
  · exact loop_field Slc.cbank (by simp) u
  · exact loop_field Slc.tl (by simp) u
  · exact loop_field Slc.cur (by simp) u
  · exact loop_field Slc.inframe (by simp) u
  · exact loop_field Slc.y (by simp) u
  · exact loop_field Slc.row (by simp) u

end Sys2Proof.Machine
end

