-- ==== Sys2Proof/Laws/PerInstr.lean ====
section
/-! SUPPORT. Statements about every operation as syntax, one lemma per constructor: decoding what the
encoder writes gives the operation back. -/

namespace Sys2Proof

/-! ## The fields of an assembled record -/

theorem flagsWord_bits (fx fy cond tm : Bool) :
    (flagsWord fx fy cond tm).getLsbD 0 = fx ∧ (flagsWord fx fy cond tm).getLsbD 1 = fy ∧
    (flagsWord fx fy cond tm).getLsbD 2 = cond ∧ (flagsWord fx fy cond tm).getLsbD 3 = tm := by
  revert fx fy cond tm; decide

theorem extract_shifted9 (v : BitVec 9) : (v.setWidth 16 <<< 4).extractLsb' 4 9 = v := by
  apply BitVec.eq_of_getLsbD_eq
  intro n hn
  have h1 : 4 + n < 16 := by omega
  simp [h1, hn]

theorem extract_shifted12 (v : BitVec 12) : (v.setWidth 16 <<< 4).extractLsb' 4 12 = v := by
  apply BitVec.eq_of_getLsbD_eq
  intro n hn
  have h1 : 4 + n < 16 := by omega
  simp [h1, hn]

theorem extract_bank (v : BitVec 7) : (v.setWidth 16).extractLsb' 0 7 = v := by
  apply BitVec.eq_of_getLsbD_eq
  intro n hn
  have h2 : n < 16 := by omega
  simp [h2, hn]

section

variable (code : Word) (xi yi : BitVec 9) (fx fy cond tm : Bool) (bank : BitVec 7) (sw sh : Word)
  (spx spy : BitVec 12) (zx zy : Word)

/-- Every field read back from an assembled record is the field it was assembled from (R93). -/
theorem recordOfFields_fields :
    let w := recordOfFields code xi yi fx fy cond tm bank sw sh spx spy zx zy
    w.code = code ∧ w.xi = xi ∧ w.yi = yi ∧ w.fx = fx ∧ w.fy = fy ∧ w.cond = cond ∧ w.tm = tm ∧
    w.bank = bank ∧ w.sw = sw ∧ w.sh = sh ∧ w.spx = spx ∧ w.spy = spy ∧ w.zx = zx ∧ w.zy = zy := by
  obtain ⟨h0, h1, h2, h3⟩ := flagsWord_bits fx fy cond tm
  exact ⟨rfl, extract_shifted9 xi, extract_shifted9 yi, h0, h1, h2, h3, extract_bank bank, rfl, rfl,
    extract_shifted12 spx, extract_shifted12 spy, rfl, rfl⟩

/-- Decoding of an assembled record, by its class (R104). -/
theorem decodeCommand_recordOfFields :
    decodeCommand (recordOfFields code xi yi fx fy cond tm bank sw sh spx spy zx zy) =
      match classify sw sh zx zy tm cond with
      | .skip0 => .bltSkip0
      | .skipg => .bltSkipg sw sh zx zy
      | .direct => .bltDirect code xi yi fx fy bank sw sh zx zy
      | .tmap => .bltTmap xi yi fx fy bank sw sh spx spy zx zy
      | .tmapc => .bltTmapc xi yi fx fy bank sw sh spx spy zx zy := by
  obtain ⟨h1, h2, h3, h4, h5, h6, h7, h8, h9, h10, h11, h12, h13, h14⟩ :=
    recordOfFields_fields code xi yi fx fy cond tm bank sw sh spx spy zx zy
  cases hc : classify sw sh zx zy tm cond <;>
    simp only [decodeCommand, h1, h2, h3, h4, h5, h6, h7, h8, h9, h10, h11, h12, h13, h14, hc]

end

/-- The class of a command that is drawn is that of its mode bits. -/
theorem classify_of_isDrawn {sw sh zx zy : Word} (h : Machine.isDrawn sw sh zx zy = true)
    (tm cond : Bool) :
    classify sw sh zx zy tm cond = if tm then (if cond then .tmapc else .tmap) else .direct := by
  simp only [Machine.isDrawn, Bool.and_eq_true, Bool.not_eq_true'] at h
  unfold classify
  rw [h.1, h.2]
  cases tm <;> cases cond <;> rfl

/-- The class of a command the guard rejects. -/
theorem classify_of_rejected {sw sh zx zy : Word} (h1 : Machine.isSentinel sw sh = false)
    (h2 : Machine.guardPasses sw sh zx zy = false) (tm cond : Bool) :
    classify sw sh zx zy tm cond = .skipg := by
  unfold classify
  rw [h1, h2]
  rfl

namespace Laws.DecodeEncode

/-- Decoding the encoding of a well-formed operation gives the operation back, for every operation
the spec gives an encoding (R93, R91, R105). -/
def Statement (op : Instr) : Prop :=
  ∀ p : Params, op.wellFormed p = true → ∀ e, encode op = some e → decode e = op

theorem bltSkip0 : Statement .bltSkip0 := by
  intro p _ e h
  cases h
  exact (decodeCommand_recordOfFields 0 0 0 false false false false 0 0 0 0 0 0 0).trans rfl

theorem bltSkipg (sw sh zx zy : Word) : Statement (.bltSkipg sw sh zx zy) := by
  intro p hw e h
  simp only [Instr.wellFormed, Bool.and_eq_true, Bool.not_eq_true'] at hw
  cases h
  exact (decodeCommand_recordOfFields ..).trans (by rw [classify_of_rejected hw.1 hw.2])

theorem bltDirect (code : Word) (xi yi : BitVec 9) (fx fy : Bool) (bank : BitVec 7) (sw sh zx zy : Word) : Statement (.bltDirect code xi yi fx fy bank sw sh zx zy) := by
  intro p hw e h
  cases h
  exact (decodeCommand_recordOfFields ..).trans (by rw [classify_of_isDrawn hw]; rfl)

theorem bltTmap (xi yi : BitVec 9) (fx fy : Bool) (bank : BitVec 7) (sw sh : Word) (spx spy : BitVec 12) (zx zy : Word) : Statement (.bltTmap xi yi fx fy bank sw sh spx spy zx zy) := by
  intro p hw e h
  cases h
  exact (decodeCommand_recordOfFields ..).trans (by rw [classify_of_isDrawn hw]; rfl)

theorem bltTmapc (xi yi : BitVec 9) (fx fy : Bool) (bank : BitVec 7) (sw sh : Word) (spx spy : BitVec 12) (zx zy : Word) : Statement (.bltTmapc xi yi fx fy bank sw sh spx spy zx zy) := by
  intro p hw e h
  cases h
  exact (decodeCommand_recordOfFields ..).trans (by rw [classify_of_isDrawn hw]; rfl)

theorem latchW (idx : Fin 16) (v n : Nat) : Statement (.latchW idx v n) := by
  intro p _ e h
  cases h
  simp [decode, decodeEvent]

theorem pbankW (v : Nat) : Statement (.pbankW v) := by
  intro p _ e h
  cases h
  rfl

theorem cflipW (v : Nat) : Statement (.cflipW v) := by
  intro p _ e h
  cases h
  rfl

theorem cbankW (v : Nat) : Statement (.cbankW v) := by
  intro p _ e h
  cases h
  rfl

theorem gfxlistW (v : Nat) : Statement (.gfxlistW v) := by
  intro p _ e h
  cases h
  rfl

theorem flipscrW (v : Nat) : Statement (.flipscrW v) := by
  intro p _ e h
  cases h
  rfl

theorem blitgoW (v : Nat) : Statement (.blitgoW v) := by
  intro p _ e h
  cases h
  rfl

theorem ramW (a v : Nat) : Statement (.ramW a v) := by
  intro p _ e h
  cases h
  rfl

theorem frameStart : Statement .frameStart := by
  intro p _ e h
  cases h
  rfl

theorem flush (t : Int) : Statement (.flush t) := by
  intro p _ e h
  cases h
  rfl

theorem snapshot (line : Nat) : Statement (.snapshot line) := by
  intro p _ e h
  cases h
  rfl

theorem frameEnd : Statement .frameEnd := by
  intro p _ e h
  cases h
  rfl

theorem bgFrame : Statement .bgFrame := by
  intro p _ e h
  cases h

theorem lineInit (y : Nat) : Statement (.lineInit y) := by
  intro p _ e h
  cases h

theorem layerEn (k : Fin 4) : Statement (.layerEn k) := by
  intro p _ e h
  cases h

theorem layerFetch (k : Fin 4) : Statement (.layerFetch k) := by
  intro p _ e h
  cases h

theorem mixOr : Statement .mixOr := by
  intro p _ e h
  cases h

theorem mixLookup : Statement .mixLookup := by
  intro p _ e h
  cases h

theorem cidx : Statement .cidx := by
  intro p _ e h
  cases h

theorem pal : Statement .pal := by
  intro p _ e h
  cases h

theorem stepFwd (k : Fin 4) : Statement (.stepFwd k) := by
  intro p _ e h
  cases h

theorem stepRev (k : Fin 4) : Statement (.stepRev k) := by
  intro p _ e h
  cases h

theorem lineRender (y : Nat) : Statement (.lineRender y) := by
  intro p _ e h
  cases h

theorem listRun : Statement .listRun := by
  intro p _ e h
  cases h

theorem execCmd : Statement .execCmd := by
  intro p _ e h
  cases h

theorem cmdFetch : Statement .cmdFetch := by
  intro p _ e h
  cases h

theorem cmdDecode : Statement .cmdDecode := by
  intro p _ e h
  cases h

theorem bltFlipadj : Statement .bltFlipadj := by
  intro p _ e h
  cases h

theorem nextcode (c : Word) : Statement (.nextcode c) := by
  intro p _ e h
  cases h

theorem zblit (code : Word) (bank : BitVec 7) (fx fy : Bool) (x y : Int) (zx zy : Word) : Statement (.zblit code bank fx fy x y zx zy) := by
  intro p _ e h
  cases h

theorem fbWrite (x y : Int) (v : Word) : Statement (.fbWrite x y v) := by
  intro p _ e h
  cases h

theorem cmdMode (mode : Mode) (args : CmdArgs) : Statement (.cmdMode mode args) := by
  intro p _ e h
  cases h

theorem cmdOff : Statement .cmdOff := by
  intro p _ e h
  cases h

theorem orgA (a : Nat) : Statement (.orgA a) := by
  intro p _ e h
  cases h

theorem listA (a : Nat) : Statement (.listA a) := by
  intro p _ e h
  cases h

theorem tmapEntry (r c code : Nat) : Statement (.tmapEntry r c code) := by
  intro p _ e h
  cases h

theorem latchLayer (k : Fin 4) (xoff ysel start stop n : Nat) : Statement (.latchLayer k xoff ysel start stop n) := by
  intro p _ e h
  cases h

theorem flushAll : Statement .flushAll := by
  intro p _ e h
  cases h

end Laws.DecodeEncode

end Sys2Proof
end

