-- ==== Sys2Proof/Laws/Step.lean ====
section
/-! SUPPORT. What one step can do. -/

namespace Sys2Proof.Machine

/-- Inversion of a step that answers a next state: the configuration is well formed, and either no
event is pending and nothing changes, or the oldest event is taken and its operation answers that
state. -/
theorem step_eq_next {s s' : State} :
    step s = .next s' ↔
      boardWf s.cfg = true ∧
        ((s.trace = [] ∧ s' = s) ∨
          ∃ e rest, s.trace = e :: rest ∧ exec (decodeEvent e) (takeEvent s) = .next s') := by
  unfold step stepOnce fetchInstr
  split
  · next hwf =>
    cases htr : s.trace with
    | nil => simp [hwf, eq_comm]
    | cons e rest => simp [hwf]
  · next hwf => simp [hwf]

/-- A step with an event pending, on a well-formed configuration. -/
theorem step_cons {s : State} {e : Event} {rest : List Event} (hwf : boardWf s.cfg = true)
    (h : s.trace = e :: rest) : step s = exec (decodeEvent e) (takeEvent s) := by
  simp [step, stepOnce, fetchInstr, hwf, h]

/-- Whatever an event decodes to is one of the twelve host operations (R105). -/
theorem decodeEvent_cases (e : Event) :
    (∃ k v n, decodeEvent e = .latchW k v n) ∨ (∃ v, decodeEvent e = .pbankW v) ∨
    (∃ v, decodeEvent e = .cflipW v) ∨ (∃ v, decodeEvent e = .cbankW v) ∨
    (∃ v, decodeEvent e = .gfxlistW v) ∨ (∃ v, decodeEvent e = .flipscrW v) ∨
    (∃ v, decodeEvent e = .blitgoW v) ∨ (∃ a v, decodeEvent e = .ramW a v) ∨
    decodeEvent e = .frameStart ∨ (∃ t, decodeEvent e = .flush t) ∨
    (∃ l, decodeEvent e = .snapshot l) ∨ decodeEvent e = .frameEnd := by
  cases e with
  | write port o d n => cases port <;> simp [decodeEvent]
  | frameStart => simp [decodeEvent]
  | flush t => simp [decodeEvent]
  | snapshot l => simp [decodeEvent]
  | frameEnd => simp [decodeEvent]

end Sys2Proof.Machine
end

