-- ==== Sys2Proof/Tests/Slice0.lean ====
section
/-! SUPPORT. Tests. Expected values are those of spec/95_test_vectors.md (cited as `§<n>`, `T<n>`,
`P<n>`) or worked by hand from the rule named; none is the model's own answer. The last part shows,
for each obligation with hypotheses, a concrete state and operands that meet them. -/

namespace Sys2Proof.Tests

set_option Elab.async false

open Sys2Proof Sys2Proof.Machine

/-! ## Helpers -/

/-- A property of the next state an outcome answers; false of a fault or a refusal. -/
def holds (o : Out) (f : State → Bool) : Bool :=
  match o with
  | .next s => f s
  | .fault _ => false
  | .refused _ => false

/-- A stop with the given refusal. -/
def refuses (o : Out) (r : Refusal) : Bool :=
  match o with
  | .next _ => false
  | .fault _ => false
  | .refused r' => decide (r' = r)

/-- A stop with the given fault. -/
def faults (o : Out) (r : Fault) : Bool :=
  match o with
  | .next _ => false
  | .fault r' => decide (r' = r)
  | .refused _ => false

/-- Reset with another SLC. -/
def onSlcReset (f : Slc → Slc) : State := onSlc f State.reset

/-- Reset with another TBL. -/
def onTblReset (f : Tbl → Tbl) : State := onTbl f State.reset

/-- The mixer PROM of spec/95 §0. -/
def prom : Vector Byte 256 :=
  Vector.ofFn fun n : Fin 256 =>
    ([0, 0, 1, 0, 2, 0, 1, 0, 3, 0, 1, 0, 2, 0, 1, 0] : List Byte).getD n.val 0

/-- The tile pens `(code + 3*r + c) mod 16` of spec/95 §0, for the codes, rows and columns a test
draws. -/
def pens (codes rows cols : List Nat) : Memory (BitVec 4) :=
  (codes.flatMap fun code => rows.flatMap fun r => cols.map fun c =>
    (code * 256 + r * 16 + c, BitVec.ofNat 4 (code + 3 * r + c))).filter fun cell => cell.2 ≠ 0

/-- Reset with the pens of some tiles. -/
def withTiles (codes rows cols : List Nat) : State :=
  { State.reset with cfg := { State.reset.cfg with ts := pens codes rows cols } }

/-- The tile of P2's fourth command, which shows the odd columns of every row. -/
def withTile40 : State := withTiles [0x40] (List.range 16) [1, 3, 5, 7, 9, 11, 13, 15]

/-- A record at the last sixteen words of RAM, with CMDPTR and GFXLIST at it. -/
def withRecord (w : Command) (s : State) : State :=
  onTbl (fun t => { t with
    ram := ramPlace s.cfg.params t.ram 0x7FF0 w, cmdptr := 0x7FF0, gfxlist := 0x7FF0 }) s

/-- A row of records' pixels, from column `x` of row `y`. -/
def pixels (s : State) (x y n : Nat) : List Nat :=
  (List.range n).map fun k => (fbRead s.tbl (x + k) y).toNat

/-! ## Well-formedness: an ill-formed term for each check -/

theorem test_wf_refuses_skipg_of_sentinel :
    (Instr.bltSkipg 0 0 0xFFFF 0xFFFF).wellFormed Params.default = false := by decide

theorem test_wf_refuses_skipg_inside_guard :
    (Instr.bltSkipg 0x1FF 0xFF 0x1EF 0x1EF).wellFormed Params.default = false := by decide

theorem test_wf_refuses_direct_sentinel :
    (Instr.bltDirect 1 0 0 false false 0 0 0 0x100 0x100).wellFormed Params.default = false := by
  decide

theorem test_wf_refuses_direct_wide :
    (Instr.bltDirect 1 0 0 false false 0 0x200 1 0x100 0x100).wellFormed Params.default = false := by
  decide

theorem test_wf_refuses_tmap_high :
    (Instr.bltTmap 0 0 false false 0 1 0x100 0 0 0x100 0x100).wellFormed Params.default = false := by
  decide

theorem test_wf_refuses_tmapc_zoom :
    (Instr.bltTmapc 0 0 false false 0 1 1 0 0 0x100 0x1F0).wellFormed Params.default = false := by
  decide

theorem test_wf_refuses_ram_address :
    (Instr.ramW 0x8000 0).wellFormed Params.default = false := by decide

theorem test_wf_refuses_flush_below_minus_one :
    (Instr.flush (-2)).wellFormed Params.default = false := by decide

theorem test_wf_refuses_lines :
    (Instr.snapshot 256).wellFormed Params.default = false ∧
    (Instr.lineInit 256).wellFormed Params.default = false ∧
    (Instr.lineRender 256).wellFormed Params.default = false := by decide

theorem test_wf_refuses_zblit_zoom :
    (Instr.zblit 0 0 false false 0 0 0x1F0 0).wellFormed Params.default = false ∧
    (Instr.zblit 0 0 false false 0 0 0 0x1F0).wellFormed Params.default = false := by decide

theorem test_wf_refuses_pixel_bits :
    (Instr.fbWrite 0 0 0x0800).wellFormed Params.default = false := by decide

theorem test_wf_refuses_cmd_operands :
    (Instr.cmdMode .direct { code := 0x10000 }).wellFormed Params.default = false ∧
    (Instr.cmdMode .direct { w := 0x10000 }).wellFormed Params.default = false ∧
    (Instr.cmdMode .direct { h := 0x10000 }).wellFormed Params.default = false ∧
    (Instr.cmdMode .direct { zx := 0x10000 }).wellFormed Params.default = false ∧
    (Instr.cmdMode .direct { zy := 0x10000 }).wellFormed Params.default = false ∧
    (Instr.cmdMode .direct { bank := 0x80 }).wellFormed Params.default = false ∧
    (Instr.cmdMode .direct { sx := 0x1000 }).wellFormed Params.default = false ∧
    (Instr.cmdMode .direct { sy := 0x1000 }).wellFormed Params.default = false := by decide

theorem test_wf_refuses_other_lines :
    (Instr.listA 0x10000).wellFormed Params.default = false ∧
    (Instr.tmapEntry 32 0 0).wellFormed Params.default = false ∧
    (Instr.tmapEntry 0 256 0).wellFormed Params.default = false ∧
    (Instr.tmapEntry 0 0 0x10000).wellFormed Params.default = false ∧
    (Instr.latchLayer 0 0x100 0 0 0 0).wellFormed Params.default = false ∧
    (Instr.latchLayer 0 0 0x100 0 0 0).wellFormed Params.default = false ∧
    (Instr.latchLayer 0 0 0 16 0 0).wellFormed Params.default = false ∧
    (Instr.latchLayer 0 0 0 0 16 0).wellFormed Params.default = false := by decide

/-! ## Decoding of records (format BC) -/

/-- P2, record 7FF0, as 32 bytes in the default order. -/
theorem test_decode_direct_bytes :
    decodeBytes .big [0x00, 0x00, 0x00, 0x40, 0x1F, 0xC0, 0x06, 0x40, 0x00, 0x01, 0x00, 0x7F,
      0x00, 0x01, 0x00, 0x01, 0x00, 0x00, 0x00, 0x00, 0x01, 0x80, 0x00, 0x00, 0x00, 0x00, 0x00, 0x80,
      0x00, 0x00, 0x00, 0x00, 0xAB] =
      .ok (.bltDirect 0x40 508 100 true false 0x7F 1 1 0x180 0x80, [0xAB]) := by decide

/-- R173: a partial record is not fetched. -/
theorem test_decode_truncated :
    decodeBytes .big (List.replicate 31 0) = .error (.truncatedRecord 31) := by decide

/-- §3.2 rows 1 and 2. -/
theorem test_decode_skip0 :
    decodeCommand #v[0, 0, 0, 0, 0, 0, 0, 0, 0, 0, 0x100, 0, 0, 0x100, 0, 0] = .bltSkip0 ∧
    decodeCommand #v[0, 0, 0, 0, 0xFFFF, 0, 0, 0, 0, 0, 0xFFFF, 0, 0, 0xFFFF, 0, 0] = .bltSkip0 := by
  decide

/-- §3.2: each bound of the guard, and the unsigned compare. -/
theorem test_decode_skipg :
    decodeCommand #v[0, 0, 0, 0, 0, 0, 0x200, 0x10, 0, 0, 0x100, 0, 0, 0x100, 0, 0] =
      .bltSkipg 0x200 0x10 0x100 0x100 ∧
    decodeCommand #v[0, 0, 0, 0, 0, 0, 0x10, 0x100, 0, 0, 0x100, 0, 0, 0x100, 0, 0] =
      .bltSkipg 0x10 0x100 0x100 0x100 ∧
    decodeCommand #v[0, 0, 0, 0, 0, 0, 0x10, 0x10, 0, 0, 0x100, 0, 0, 0x1F0, 0, 0] =
      .bltSkipg 0x10 0x10 0x100 0x1F0 ∧
    decodeCommand #v[0, 0, 0, 0, 8, 0, 0xFFFF, 0xFFFF, 0, 0, 0, 0, 0, 0, 0, 0] =
      .bltSkipg 0xFFFF 0xFFFF 0 0 := by decide

/-- §3.2: the largest accepted sizes, `cond` without `tm`, and bits 15:4 of W4 ignored. -/
theorem test_decode_direct :
    decodeCommand #v[0, 0, 0, 0, 0, 0, 0x1FF, 0xFF, 0, 0, 0x1EF, 0, 0, 0x1EF, 0, 0] =
      .bltDirect 0 0 0 false false 0 0x1FF 0xFF 0x1EF 0x1EF ∧
    decodeCommand #v[0, 0, 0, 0, 4, 0, 0x10, 0x10, 0, 0, 0, 0, 0, 0, 0, 0] =
      .bltDirect 0 0 0 false false 0 0x10 0x10 0 0 ∧
    decodeCommand #v[0, 0, 0, 0, 0xFFF3, 0, 0x10, 0x10, 0, 0, 0, 0, 0, 0, 0, 0] =
      .bltDirect 0 0 0 true true 0 0x10 0x10 0 0 := by decide

/-- P3, record of frame 1; and §3.2's empty grid. -/
theorem test_decode_tmap :
    decodeCommand #v[0, 0, 0x0640, 0x0320, 8, 1, 0x20, 0x20, 0xFF00, 0x1F00, 0x100, 0, 0, 0x100, 0, 0] =
      .bltTmap 100 50 false false 1 32 32 4080 496 0x100 0x100 ∧
    decodeCommand #v[0, 0, 0, 0, 0xFFFB, 0, 1, 0, 0, 0, 0x100, 0, 0, 0x100, 0, 0] =
      .bltTmap 0 0 true true 0 1 0 0 0 0x100 0x100 := by decide

/-- P4's record; and §3.2's last row. -/
theorem test_decode_tmapc :
    decodeCommand #v[0, 0, 0x0C80, 0x0640, 0xC, 3, 0x10, 0x10, 0x80, 0, 0x180, 0, 0, 0x180, 0, 0] =
      .bltTmapc 200 100 false false 3 16 16 8 0 0x180 0x180 ∧
    decodeCommand #v[0, 0, 0, 0, 0xF, 0, 1, 1, 0, 0, 0x1EF, 0, 0, 0, 0, 0] =
      .bltTmapc 0 0 true true 0 1 1 0 0 0x1EF 0 := by decide

/-- P2's second record and P4's, numbered from bit 0 of W0 upwards, 256 bits. -/
theorem test_decode_table_word :
    decodeTableWord 256 0 = some .bltSkip0 ∧
    decodeTableWord 256 (0x0C80 * 2 ^ 32 + 0x0640 * 2 ^ 48 + 0xC * 2 ^ 64 + 3 * 2 ^ 80 + 0x10 * 2 ^ 96 +
      0x10 * 2 ^ 112 + 0x80 * 2 ^ 128 + 0x180 * 2 ^ 160 + 0x180 * 2 ^ 208) =
      some (.bltTmapc 200 100 false false 3 16 16 8 0 0x180 0x180) := by decide

/-! ## Decoding of events (formats RW and EV); the tuples are P1's and the rules' examples -/

theorem test_decode_latchW : decodeEvent (.write .latch 8 0x8C 0) = .latchW 8 0x8C 0 := by decide

theorem test_decode_pbankW : decodeEvent (.write .pbank 0 0x13 7) = .pbankW 0x13 := by decide

theorem test_decode_cflipW : decodeEvent (.write .cflip 0 1 7) = .cflipW 1 := by decide

theorem test_decode_cbankW : decodeEvent (.write .cbank 0 0x81 7) = .cbankW 0x81 := by decide

theorem test_decode_gfxlistW : decodeEvent (.write .gfxlist 0 0x7FC0 7) = .gfxlistW 0x7FC0 := by
  decide

theorem test_decode_flipscrW : decodeEvent (.write .flipscr 0 1 7) = .flipscrW 1 := by decide

theorem test_decode_blitgoW : decodeEvent (.write .blitgo 0 0 7) = .blitgoW 0 := by decide

theorem test_decode_ramW : decodeEvent (.write .ram 0x1FFF 0x0AAA 7) = .ramW 0x1FFF 0x0AAA := by decide

theorem test_decode_frame_events :
    decodeEvent .frameStart = .frameStart ∧ decodeEvent (.flush 50) = .flush 50 ∧
    decodeEvent (.snapshot 51) = .snapshot 51 ∧ decodeEvent .frameEnd = .frameEnd := by decide

/-! ## Host writes and frame events -/

/-- T1. -/
theorem test_latchW_fills_before :
    holds (exec (.latchW 8 0x4F 20) (onSlcReset fun u => { u with latch := Vector.replicate 16 5 }))
      (fun s => s.slc.cur == 19 && s.slc.latch[8] == 0x4F#8 && (tlRead s.slc 19)[8] == 5#8 &&
        tlRead s.slc 20 == Latches.zero) = true := by decide +kernel

/-- T4: the line is clamped. -/
theorem test_latchW_clamps :
    holds (exec (.latchW 0 0x144 300) (onSlcReset fun u => { u with cur := 250 }))
      (fun s => s.slc.cur == 254 && s.slc.latch[0] == 0x44#8) = true := by decide +kernel

/-- §2.2. -/
theorem test_pbankW_width :
    holds (exec (.pbankW 0x13) State.reset) (fun s => s.slc.pbank == 3) = true := by decide +kernel

/-- §2.2. -/
theorem test_cflipW_bit0 :
    holds (exec (.cflipW 0xFE) (onSlcReset fun u => { u with cflip := true }))
      (fun s => s.slc.cflip == false) = true := by decide +kernel

/-- §2.2; bits above 7 dropped (R120). -/
theorem test_cbankW_byte :
    holds (exec (.cbankW 0x181) State.reset) (fun s => s.slc.cbank == 0x81#8) = true := by
  decide +kernel

/-- P2; bits above 15 dropped (R125). -/
theorem test_gfxlistW_word :
    holds (exec (.gfxlistW 0x17FC0) State.reset) (fun s => s.tbl.gfxlist == 0x7FC0#16) = true := by
  decide +kernel

/-- R126. -/
theorem test_flipscrW_bit0 :
    holds (exec (.flipscrW 3) State.reset) (fun s => s.tbl.flipscr == true) = true := by decide +kernel

/-- R128; word 0x1FFF is bytes 0x3FFE and 0x3FFF, high byte first (R64). -/
theorem test_ramW_big_endian :
    holds (exec (.ramW 0x1FFF 0x10AAA) State.reset)
      (fun s => s.tbl.ram == [(0x3FFE, 0x0A#8), (0x3FFF, 0xAA#8)] &&
        ramRead s.cfg.params s.tbl.ram 0x1FFF == 0x0AAA#16) = true := by decide +kernel

/-- R128: the first address that does not exist. -/
theorem test_ramW_beyond : faults (exec (.ramW 0x8000 1) State.reset) .ramAddress = true := by
  decide +kernel

/-- T7. -/
theorem test_frameStart_twice :
    refuses (exec .frameStart (onSlcReset fun u => { u with inframe := true })) .frameOrder = true := by
  decide +kernel

/-- R129: the cursor restarts. -/
theorem test_frameStart_restarts :
    holds (exec .frameStart (onSlcReset fun u => { u with cur := 255 }))
      (fun s => s.slc.cur == -1 && s.slc.inframe) = true := by decide +kernel

/-- T11. -/
theorem test_flush_carries :
    holds (exec (.flush 3) (onSlcReset fun u => { u with latch := Vector.replicate 16 7 }))
      (fun s => s.slc.cur == 3 && (tlRead s.slc 0)[0] == 7#8 && (tlRead s.slc 3)[0] == 7#8 &&
        (tlRead s.slc 4)[0] == 0#8) = true := by decide +kernel

/-- T6. -/
theorem test_flush_backwards :
    refuses (exec (.flush 49) (onSlcReset fun u => { u with cur := 50 })) .flushBackwards = true := by
  decide +kernel

/-- T6. -/
theorem test_snapshot_beyond :
    refuses (exec (.snapshot 51) (onSlcReset fun u => { u with cur := 50 })) .snapshotUnflushed = true := by
  decide +kernel

/-- R131. -/
theorem test_snapshot_returns :
    holds (exec (.snapshot 50)
        (onSlcReset fun u => { u with cur := 50, tl := [(50, Vector.replicate 16 9)] }))
      (fun s => s.answer == Vector.replicate 16 9#8) = true := by decide +kernel

/-- T7. -/
theorem test_frameEnd_outside : refuses (exec .frameEnd State.reset) .frameOrder = true := by
  decide +kernel

/-! ## The compositor, step by step -/

/-- §2.3, LINE.INIT. -/
theorem test_lineInit_presets :
    holds (exec (.lineInit 3) (onSlcReset fun u => { u with
        cur := 3
        tl := [(3, ((Latches.zero.set 1 0xE5).set 5 0x7F).set 9 0x6A)] }))
      (fun s => s.slc.xc[1] == 0xE5#8 && s.slc.row[1] == 0x7F#8 && s.slc.st[1] == 0x0A#5 &&
        s.slc.sp[1] == 0x06#5 && s.slc.y == 3) = true := by decide +kernel

/-- §2.3, LAYER.EN, rows 7 and 2; no state of the block changes (R42). -/
theorem test_layerEn_symmetric :
    holds (exec (.layerEn 2) (onSlcReset fun u => { u with
        st := u.st.set 2 0x0C, sp := u.sp.set 2 0x10 }))
      (fun s => s.enabled == some true && s.slc.st[2] == 0x0C#5) = true ∧
    holds (exec (.layerEn 2) (onSlcReset fun u => { u with
        st := u.st.set 2 0x14, sp := u.sp.set 2 0x10 })) (fun s => s.enabled == some false) = true := by
  decide +kernel

/-- §2.4, LAYER.FETCH k = 1, px = 3, at row 5, column 9; enabled by its counters alone, whatever
LAYER.EN last reported (R42). -/
theorem test_layerFetch_lane :
    holds (exec (.layerFetch 1)
        { onSlcReset (fun u => { u with
            st := u.st.set 1 0x10, row := u.row.set 1 5, xc := u.xc.set 1 9 }) with
          cfg := { Board.default with bg := [((1 * 256 + 5) * 256 + 9, 3)] }
          enabled := some false })
      (fun s => s.slc.raw[1] == 0x020C#16) = true := by decide +kernel

/-- A board whose layers are 128 rows of 512 columns, with one pixel: layer 1, row 127, column 255. -/
def wideBoard : Board :=
  { Board.default with
    params := { Params.default with bgRows := 128, bgCols := 512 }
    bg := [((1 * 128 + 127) * 512 + 255, 3)] }

/-- R9, R29: BG_ROWS and BG_COLS are parameters; such a board is well formed and its pixel is found. -/
theorem test_layerFetch_other_dimensions :
    boardWf wideBoard = true ∧
    holds (exec (.layerFetch 1)
        { onSlcReset (fun u => { u with
            st := u.st.set 1 0x10, row := u.row.set 1 127, xc := u.xc.set 1 255 }) with
          cfg := wideBoard })
      (fun s => s.slc.raw[1] == 0x020C#16) = true := by decide +kernel

/-- R29: the next row is outside that board's layers, where the pixel is free (log 35). -/
theorem test_bgPixel_outside :
    bgPixel wideBoard 1 128 255 = Config.bgBeyond 128 512 wideBoard.bg 1 128 255 := if_neg (by decide)

/-- §2.4, LAYER.FETCH, not enabled. -/
theorem test_layerFetch_disabled :
    holds (exec (.layerFetch 0)
        { onSlcReset (fun u => { u with raw := Vector.replicate 4 0x0FFF }) with
          cfg := { Board.default with bg := [(0, 3)] }
          enabled := some true })
      (fun s => s.slc.raw[0] == 0#16 && s.slc.raw[1] == 0x0FFF#16) = true := by decide +kernel

/-- §2.4, MIX.OR, second row. -/
theorem test_mixOr_all :
    holds (exec .mixOr (onSlcReset fun u => { u with raw := #v[0x0101, 0x020C, 0x0430, 0x0880] }))
      (fun s => s.slc.acc == 0x0FBD#16) = true := by decide +kernel

/-- §2.4, MIX.LOOKUP, second row, with the PROM of §0. -/
theorem test_mixLookup_prom :
    holds (exec .mixLookup { onSlcReset (fun u => { u with acc := 0x0880 }) with
        cfg := { Board.default with mixprom := prom } }) (fun s => s.slc.lookup == 3#2) = true := by
  decide +kernel

/-- §2.4, MIX.LOOKUP, a PROM with entry 5 = 0xFE. -/
theorem test_mixLookup_low_bits :
    holds (exec .mixLookup { onSlcReset (fun u => { u with acc := 0x0531 }) with
        cfg := { Board.default with mixprom := prom.set 5 0xFE } })
      (fun s => s.slc.lookup == 2#2) = true := by decide +kernel

/-- §2.4, CIDX (E5). -/
theorem test_cidx_selects :
    holds (exec .cidx (onSlcReset fun u => { u with lookup := 2, acc := 0x0531 }))
      (fun s => s.slc.cidx == 11#4) = true ∧
    holds (exec .cidx (onSlcReset fun u => { u with lookup := 1, acc := 0x0101 }))
      (fun s => s.slc.cidx == 4#4) = true := by decide +kernel

/-- §2.4, PAL, first row. -/
theorem test_pal_pen :
    holds (exec .pal (onSlcReset fun u => { u with pbank := 3, cidx := 11, y := 7, p := 9 }))
      (fun s => s.slc.pen == 0x3B && outRead s.slc 7 9 == 0x3B && outRead s.slc 7 10 == 0) = true := by
  decide +kernel

/-- The counters of layer 3 as a step finds them. -/
def counters (xc : Byte) (st sp : BitVec 5) : State :=
  onSlcReset fun u => { u with xc := u.xc.set 3 xc, st := u.st.set 3 st, sp := u.sp.set 3 sp }

/-- The counters of layer 3 are as said. -/
def countersAre (xc : Byte) (st sp : BitVec 5) (s : State) : Bool :=
  s.slc.xc[3] == xc && s.slc.st[3] == st && s.slc.sp[3] == sp

/-- §2.3, STEP.FWD, rows 3 and 5. -/
theorem test_stepFwd_clock :
    holds (exec (.stepFwd 3) (counters 0xFF 0x1F 0)) (countersAre 0 0 1) = true ∧
    holds (exec (.stepFwd 3) (counters 0x1E 0x0F 8)) (countersAre 0x1F 0x0F 8) = true := by
  decide +kernel

/-- §2.3, STEP.REV, rows 3 and 4. -/
theorem test_stepRev_clock :
    holds (exec (.stepRev 3) (counters 0 0x1F 0)) (countersAre 0xFF 0 1) = true ∧
    holds (exec (.stepRev 3) (counters 0x21 0x0F 8)) (countersAre 0x20 0x0F 8) = true := by
  decide +kernel

/-- Four cells of row 5 of layer 0 of §0's BG, the PROM of §0, and P1's first line for layer 0
(start 12, stop 8, row 5) after `clocks` clocks, at column `xc`. -/
def pixelState (cflip : Bool) (xc : Byte) (clocks : BitVec 5) : State :=
  { onSlcReset (fun u => { u with
      cur := 0
      cflip := cflip
      xc := u.xc.set 0 xc
      row := u.row.set 0 5
      st := u.st.set 0 (12 + clocks)
      sp := u.sp.set 0 (8 + clocks) }) with
    cfg := { Board.default with
      mixprom := prom
      bg := [(5 * 256 + 119, 3), (5 * 256 + 128, 1), (5 * 256 + 135, 1), (5 * 256 + 136, 2)] } }

/-- What LINE.RENDER does at one position: the pixel, then the counters. -/
def onePixel (p : Nat) (s : State) : Slc := stepLayers (formPixel s.cfg p s.slc)

/-- P1, line 50, with PBANK 0: position 136 shows `BG(0,5,136) = 2`; position 119 lies outside the
window 128..255 (§2.5 row 1), where `c = 119 div 32 = 3`. -/
theorem test_linePixel_window :
    outRead (onePixel 136 (pixelState false 136 4)) 0 136 = 2 ∧
    outRead (onePixel 119 (pixelState false 119 3)) 0 119 = 0 := by decide +kernel

/-- §2.5, CFLIP = 1 (window 97..224, R154): position 137 shows column `-137 mod 256 = 119`, with
`c = 168 div 32 = 5`; the column then goes down. -/
theorem test_linePixel_reverse :
    outRead (onePixel 137 (pixelState true 119 5)) 0 137 = 3 ∧
    (onePixel 137 (pixelState true 119 5)).xc[0] = 118#8 := by decide +kernel

/-- R150, R131: a line beyond the cursor. -/
theorem test_lineRender_beyond :
    refuses (exec (.lineRender 1) (pixelState false 0 0)) .snapshotUnflushed = true := by decide +kernel

/-- A board with the visible lines given. -/
def visibleBoard (first last : Nat) (b : Board) : Board :=
  { b with params := { b.params with screenH := 4, visYMin := first, visYMax := last } }

/-- R140: with no visible line nothing is rendered; with one beyond the cursor it is refused. -/
theorem test_bgFrame_lines :
    holds (exec .bgFrame { State.reset with cfg := visibleBoard 3 2 Board.default })
      (fun s => s.slc == State.reset.slc) = true ∧
    refuses (exec .bgFrame { State.reset with cfg := visibleBoard 2 2 Board.default })
      .snapshotUnflushed = true := by decide +kernel

/-- R132: the lines not yet materialised take the latches and the frame closes. -/
theorem test_frameEnd_flushes :
    holds (exec .frameEnd { onSlcReset (fun u => { u with
          cur := 1, inframe := true, latch := Vector.replicate 16 7 }) with
        cfg := visibleBoard 3 2 Board.default })
      (fun s => s.slc.cur == 3 && !s.slc.inframe && (tlRead s.slc 1)[0] == 0#8 &&
        (tlRead s.slc 2)[0] == 7#8 && (tlRead s.slc 3)[15] == 7#8) = true := by decide +kernel

/-! ## The blitter -/

/-- R171. -/
theorem test_cmdFetch_words :
    holds (exec .cmdFetch (withRecord
        #v[1, 2, 3, 4, 5, 6, 7, 8, 9, 10, 11, 12, 13, 14, 15, 0xFFFF] State.reset))
      (fun s => s.tbl.w == #v[1, 2, 3, 4, 5, 6, 7, 8, 9, 10, 11, 12, 13, 14, 15, 0xFFFF]) = true := by
  decide +kernel

/-- §3.1: rows W2 0x1F80, W3 0x1000, W4 0xFFF5, W5 0x0085, W8 0xFF0F, W9 0x1F00. -/
theorem test_cmdDecode_fields :
    holds (exec .cmdDecode (onTblReset fun t => { t with
        w := #v[0, 0, 0x1F80, 0x1000, 0xFFF5, 0x85, 0, 0, 0xFF0F, 0x1F00, 0, 0, 0, 0, 0, 0] }))
      (fun s => s.tbl.dx == -8 && s.tbl.dy == -256 && s.tbl.flipx && !s.tbl.flipy && s.tbl.cond &&
        !s.tbl.tmap && s.tbl.bank == 5#7 && s.tbl.spx == 4080#12 && s.tbl.spy == 496#12) = true := by
  decide +kernel

/-- §3.6, row 5. -/
theorem test_bltFlipadj_mirrors :
    holds (exec .bltFlipadj (onTblReset fun t => { t with
        flipscr := true, dx := 100, dy := 50, sw := 511, sh := 255, flipx := true }))
      (fun s => s.tbl.dx == -228 && s.tbl.dy == -50 && !s.tbl.flipx && s.tbl.flipy) = true := by
  decide +kernel

/-- §3.3. -/
theorem test_nextcode_rollover :
    holds (exec (.nextcode 0x012F) State.reset) (fun s => s.tbl.stripCode == 0x0220#16) = true ∧
    holds (exec (.nextcode 0xFFFF) State.reset) (fun s => s.tbl.stripCode == 0x00F0#16) = true := by
  decide +kernel

/-- §3.8, two of the flips of the table. -/
theorem test_zblit_flips :
    holds (exec (.zblit 0 0 true false 0 0 0x1C0 0x1C0)
        (withTiles [0] [0, 4, 8, 12] [3, 7, 11, 15]))
      (fun s => pixels s 0 0 4 == [15, 11, 7, 3] && pixels s 0 2 4 == [7, 3, 15, 11] &&
        pixels s 4 0 1 == [0]) = true ∧
    holds (exec (.zblit 0 0 false true 0 0 0x1C0 0x1C0)
        (withTiles [0] [3, 7, 11, 15] [0, 4, 8, 12]))
      (fun s => pixels s 0 0 4 == [13, 1, 5, 9] && pixels s 0 3 4 == [9, 13, 1, 5]) = true := by
  decide +kernel

/-- §3.8, clipping, with the tile two pixels high at the last line: `TS(0,0,4) = 4` and
`TS(0,0,15) = 15` bound the row, and no other row is written. -/
theorem test_zblit_clips :
    holds (exec (.zblit 0 0 false false (-4) 255 0x100 0x1E0) (withTiles [0] [0, 8] (List.range 16)))
      (fun s => pixels s 0 255 1 == [4] && pixels s 11 255 2 == [15, 0] && s.tbl.fb.length == 1) =
      true := by decide +kernel

/-- R196: the last pixel of the buffer, and one beyond it. -/
theorem test_fbWrite_edge :
    holds (exec (.fbWrite 383 255 0x7FF) State.reset) (fun s => pixels s 383 255 1 == [0x7FF]) = true ∧
    holds (exec (.fbWrite 384 255 0x7FF) State.reset) (fun s => s.tbl.fb == []) = true := by
  decide +kernel

/-- R177. -/
theorem test_bltSkip0_nothing (s : State) : exec .bltSkip0 s = .next s := rfl

/-- R178. -/
theorem test_bltSkipg_nothing (s : State) : exec (.bltSkipg 16 16 0x1F0 0x100) s = .next s := rfl

/-- P2's fourth command: the four columns inside the buffer. -/
def clippedTile : Command :=
  #v[0, 0x40, 0x1FC0, 0x0640, 1, 0x7F, 1, 1, 0, 0, 0x180, 0, 0, 0x80, 0, 0]

/-- What P2 says of its fourth command. -/
def clippedTileDrawn (s : State) : Bool :=
  pixels s 0 100 5 == [0x7F7, 0x7F5, 0x7F3, 0x7F1, 0] && pixels s 0 123 1 == [0x7F4] &&
    pixels s 0 99 1 == [0] && pixels s 0 124 1 == [0]

/-- P2, command 4. -/
theorem test_bltDirect_clipped :
    holds (exec (.bltDirect 0x40 508 100 true false 0x7F 1 1 0x180 0x80) withTile40)
      clippedTileDrawn = true := by decide +kernel

/-- P2, command 1, its first row, at zoom 0x1EF vertically so that one row is drawn. -/
theorem test_bltDirect_strip :
    holds (exec (.bltDirect 0x012E 10 20 false false 5 48 16 0x100 0x1EF)
        (withTiles [0x12E, 0x12F, 0x220] [0] (List.range 16)))
      (fun s => pixels s 9 20 3 == [0, 0x5E, 0x5F] && pixels s 25 20 3 == [0x5D, 0x5F, 0x50] &&
        pixels s 41 20 2 == [0x5E, 0x50] && pixels s 57 20 2 == [0x5F, 0]) = true := by decide +kernel

/-- P4u's contrast, its first row (at vertical zoom 0x1EF): one tile, code 0x0011 from tilemap entry
(0, 1). -/
theorem test_bltTmap_one_tile :
    holds (exec (.bltTmap 200 100 false false 3 1 1 16 0 0x100 0x1EF)
        (onTbl (fun t => { t with ram := ramWrite Params.default t.ram 0x20 0x11 })
          (withTiles [0x11] [0] (List.range 16))))
      (fun s => pixels s 199 100 3 == [0, 0x31, 0x32] && pixels s 215 100 2 == [0x30, 0]) = true := by
  decide +kernel

/-- P4: the four overlapping tiles. -/
theorem test_bltTmapc_overlap :
    holds (exec (.bltTmapc 200 100 false false 3 16 16 8 0 0x180 0x180)
        (onTbl (fun t => { t with
          ram := [(0x41, 0x11), (0x43, 0x33), (0x81, 0x22), (0x83, 0x44)] })
          (withTiles [0x11, 0x22, 0x33, 0x44] [0, 2, 4, 6, 8, 10, 12, 14] [0, 2, 4, 6, 8, 10, 12, 14])))
      (fun s =>
        pixels s 199 100 14 == [0, 0x31, 0x33, 0x35, 0x37, 0x32, 0x34, 0x36, 0x38, 0x3A, 0x3C, 0x3E, 0x30, 0] &&
        pixels s 200 107 12 == [0x35, 0x37, 0x39, 0x3B, 0x36, 0x38, 0x3A, 0x3C, 0x3E, 0x30, 0x32, 0x34] &&
        pixels s 211 111 2 == [0x3C, 0]) = true := by decide +kernel

/-- R175 on P2's fourth record. -/
theorem test_execCmd_draws :
    holds (exec .execCmd (withRecord clippedTile withTile40))
      (fun s => clippedTileDrawn s && s.tbl.cmdptr == 0x7FF0 && s.tbl.w == clippedTile) = true := by
  decide +kernel

/-- P2's list from its sentinel on: records 7FD0 (zeros), 7FE0 (guarded), 7FF0. -/
def listState : State :=
  onTbl (fun t => { t with
    ram := ramPlace Params.default t.ram 0x7FE0 #v[0, 7, 0, 0, 0, 0, 16, 16, 0, 0, 0x1F0, 0, 0, 0x100, 0, 0]
    gfxlist := 0x7FD0 }) (withRecord clippedTile withTile40)

/-- P2: the run ends at 0x8000 with the fourth command drawn. -/
theorem test_listRun_p2 :
    holds (exec .listRun listState) (fun s => clippedTileDrawn s && s.tbl.cmdptr == 0x8000) = true := by
  decide +kernel

/-- P2; the trigger's data is ignored (R127). -/
theorem test_blitgoW_p2 :
    holds (exec (.blitgoW 0xFFFF) listState)
      (fun s => clippedTileDrawn s && s.tbl.cmdptr == 0x8000 && s.tbl.gfxlist == 0x7FD0#16) = true := by
  decide +kernel

/-! ## The assembler's lines -/

/-- P4's line and its encoding. -/
theorem test_cmdMode_p4 :
    holds (exec (.cmdMode .tmapc { x := 200, y := 100, w := 16, h := 16, sx := 8, zx := 0x180, zy := 0x180, bank := 3 })
        { State.reset with origin := 0x7FF0 })
      (fun s => s.origin == 0x8000 && ramRecord s.cfg.params s.tbl.ram 0x7FF0 ==
        #v[0, 0, 0x0C80, 0x0640, 0xC, 3, 0x10, 0x10, 0x80, 0, 0x180, 0, 0, 0x180, 0, 0]) = true := by
  decide +kernel

/-- P2's line 4 and its encoding. -/
theorem test_cmdMode_p2 :
    holds (exec (.cmdMode .direct { code := 0x40, x := 508, y := 100, w := 1, h := 1, fx := true, zx := 0x180, zy := 0x80, bank := 0x7F })
        { State.reset with origin := 0x7FF0 })
      (fun s => ramRecord s.cfg.params s.tbl.ram 0x7FF0 == clippedTile) = true := by decide +kernel

/-- P2's `.cmd OFF`. -/
theorem test_cmdOff_zeros :
    holds (exec .cmdOff { withRecord clippedTile State.reset with origin := 0x7FF0 })
      (fun s => s.origin == 0x8000 && s.tbl.ram == []) = true := by decide +kernel

/-- R110. -/
theorem test_orgA_sets (s : State) : exec (.orgA 0x7FE0) s = .next { s with origin := 0x7FE0 } := rfl

/-- P2's `.list 0x7FC0`. -/
theorem test_listA_sets :
    holds (exec (.listA 0x7FC0) State.reset)
      (fun s => s.origin == 0x7FC0 && s.tbl.gfxlist == 0x7FC0#16) = true := by decide +kernel

/-- P3's `.tmap 31, 255, 0x0AAA`. -/
theorem test_tmapEntry_address :
    holds (exec (.tmapEntry 31 255 0x0AAA) State.reset)
      (fun s => ramRead s.cfg.params s.tbl.ram 0x1FFF == 0x0AAA#16) = true := by decide +kernel

/-- P1's `LATCH.LAYER 0, 0x00, 0x05, 12, 8`, on line 2 and with another offset. -/
theorem test_latchLayer_three :
    holds (exec (.latchLayer 0 0x33 5 12 8 2) State.reset)
      (fun s => s.slc.latch[0] == 0x33#8 && s.slc.latch[4] == 5#8 && s.slc.latch[8] == 0x8C#8 &&
        s.slc.cur == 1) = true := by decide +kernel

/-- R110: `FLUSH -1`. -/
theorem test_flushAll_last :
    holds (exec .flushAll (onSlcReset fun u => { u with cur := 253, latch := Vector.replicate 16 7 }))
      (fun s => s.slc.cur == 255 && (tlRead s.slc 255)[0] == 7#8) = true := by decide +kernel

/-! ## The step -/

/-- The oldest event runs first. -/
theorem test_step_oldest :
    holds (step { State.reset with trace := [.write .pbank 0 2 0, .write .pbank 0 3 0] })
      (fun s => s.slc.pbank == 2 && s.trace == [.write .pbank 0 3 0]) = true := by decide +kernel

/-- P2's fourth record, placed by its table word, is drawn by the next step. -/
theorem test_withFetchWord_runs :
    holds (step (withTile40.withFetchWord 256
        (0x40 * 2 ^ 16 + 0x1FC0 * 2 ^ 32 + 0x0640 * 2 ^ 48 + 1 * 2 ^ 64 + 0x7F * 2 ^ 80 + 1 * 2 ^ 96 +
          1 * 2 ^ 112 + 0x180 * 2 ^ 160 + 0x80 * 2 ^ 208)))
      (fun s => clippedTileDrawn s && s.tbl.w == clippedTile && s.trace == []) = true := by decide +kernel

/-! ## Witnesses: concrete states and operands that meet the hypotheses of each obligation -/

/-- A drawing command with every field at its largest value inside the guard. -/
def largestDirect : Instr := .bltDirect 0xFFFF 0x1FF 0x1FF true true 0x7F 0x1FF 0xFF 0x1EF 0x1EF

theorem witness_EncodedOperationsDecodeBack :
    largestDirect.wellFormed Params.default = true ∧
    (∃ w, encode largestDirect = some (.record w)) ∧
    (Instr.latchW 15 0xFF 255).wellFormed Params.default = true ∧
    ∃ e, encode (.latchW 15 0xFF 255) = some (.event e) :=
  ⟨by decide, ⟨_, rfl⟩, by decide, ⟨_, rfl⟩⟩

/-- Two records that differ in ignored bits of every format, of direct mode, of the tilemap modes. -/
theorem witness_IgnoredBitsChangeNothing :
    (∀ j : Fin 16,
      (#v[1, 2, 3, 4, 5, 6, 7, 8, 9, 10, 11, 12, 13, 14, 15, 16] : Command)[j] &&&
        (#v[0, 0xFFFF, 0x1FF0, 0x1FF0, 0x000F, 0x007F, 0xFFFF, 0xFFFF, 0xFFF0, 0xFFF0, 0xFFFF, 0, 0,
          0xFFFF, 0, 0] : Command)[j] =
      (#v[9, 2, 0xE001, 0xE000, 0xFFF5, 0xFF86, 7, 8, 0, 0, 11, 0, 0, 14, 0, 0] : Command)[j] &&&
        (#v[0, 0xFFFF, 0x1FF0, 0x1FF0, 0x000F, 0x007F, 0xFFFF, 0xFFFF, 0xFFF0, 0xFFF0, 0xFFFF, 0, 0,
          0xFFFF, 0, 0] : Command)[j]) ∧
    Command.tm #v[0, 2, 0, 0, 5, 6, 7, 8, 9, 10, 11, 0, 0, 14, 0, 0] = false ∧
    (∀ j : Fin 16,
      (#v[0, 2, 0, 0, 5, 6, 7, 8, 9, 10, 11, 0, 0, 14, 0, 0] : Command)[j] &&&
        (#v[0, 0xFFFF, 0x1FF0, 0x1FF0, 0x000B, 0x007F, 0xFFFF, 0xFFFF, 0, 0, 0xFFFF, 0, 0, 0xFFFF, 0,
          0] : Command)[j] =
      (#v[0, 2, 0, 0, 1, 6, 7, 8, 0xFFFF, 0xFFFF, 11, 0, 0, 14, 0, 0] : Command)[j] &&&
        (#v[0, 0xFFFF, 0x1FF0, 0x1FF0, 0x000B, 0x007F, 0xFFFF, 0xFFFF, 0, 0, 0xFFFF, 0, 0, 0xFFFF, 0,
          0] : Command)[j]) ∧
    Command.tm #v[0, 2, 0, 0, 8, 6, 7, 8, 9, 10, 11, 0, 0, 14, 0, 0] = true ∧
    (∀ j : Fin 16,
      (#v[0, 2, 0, 0, 8, 6, 7, 8, 9, 10, 11, 0, 0, 14, 0, 0] : Command)[j] &&&
        (#v[0, 0, 0x1FF0, 0x1FF0, 0x000F, 0x007F, 0xFFFF, 0xFFFF, 0xFFF0, 0xFFF0, 0xFFFF, 0, 0,
          0xFFFF, 0, 0] : Command)[j] =
      (#v[0, 0xABCD, 0, 0, 8, 6, 7, 8, 9, 10, 11, 0, 0, 14, 0, 0] : Command)[j] &&&
        (#v[0, 0, 0x1FF0, 0x1FF0, 0x000F, 0x007F, 0xFFFF, 0xFFFF, 0xFFF0, 0xFFF0, 0xFFFF, 0, 0,
          0xFFFF, 0, 0] : Command)[j]) := by
  decide

/-- A well-formed configuration with an event pending, one with none, and an ill-formed one (the last
visible line is one beyond the frame). -/
theorem witness_StepRunsOldestEvent :
    boardWf Board.default = true ∧
    (decodeEvent (.write .ram 0x7FFF 1 0)).wellFormed Board.default.params = true ∧
    State.reset.trace = [] ∧ boardWf (visibleBoard 0 4 Board.default) = false := by
  decide +kernel

/-- The last record of RAM. -/
theorem witness_ExecCmdRunsDecodedRecord :
    (withRecord clippedTile State.reset).tbl.cmdptr + 16 ≤ Params.default.ramWords := by decide

/-- A state with every bounded value at its bound. -/
def edgeState : State where
  cfg := Board.default
  slc := { Slc.reset with
    cur := 255, pbank := 15, y := 255, p := 383, raw := #v[0x0103, 0x020C, 0x0430, 0x08C0], acc := 0xFFF
    inframe := true, tl := [(255, Vector.replicate 16 1)], out := [(255, [(383, 255)])] }
  tbl := { Tbl.reset with ram := [(0xFFFF, 1)], fb := [(255, [(383, 0x7FF)])] }
  trace := [.write .ram 0x7FFF 0xFFFF 0]
  origin := 0
  answer := Latches.zero
  enabled := none

/-- `edgeState` has the invariant. -/
theorem edgeState_inv : Inv edgeState := by decide +kernel

theorem witness_OperationsKeepInvariant :
    Inv edgeState ∧ (Instr.fbWrite 383 255 0).wellFormed edgeState.cfg.params = true ∧
    ∃ t, exec (.fbWrite 383 255 0) edgeState = .next t :=
  ⟨edgeState_inv, by decide, ⟨_, rfl⟩⟩

theorem witness_StepKeepsInvariant :
    Inv edgeState ∧ holds (step edgeState) (fun _ => true) = true :=
  ⟨edgeState_inv, by decide +kernel⟩

theorem witness_StepNeverFaults :
    Inv edgeState ∧ (∀ e, edgeState.trace.head? = some e →
      (decodeEvent e).wellFormed edgeState.cfg.params = true) ∧
    ∃ port o d n rest, edgeState.trace = .write port o d n :: rest :=
  ⟨edgeState_inv, by rintro e ⟨rfl⟩; decide, .ram, 0x7FFF, 0xFFFF, 0, [], rfl⟩

theorem witness_ConfigurationNeverChanges : ∃ t, exec (.blitgoW 0) listState = .next t := ⟨_, rfl⟩

/-- Two states that share one unit and not the other. -/
theorem witness_UnitsShareNoState :
    actsOnSlc (.latchW 0 1 20) = true ∧
    (onTblReset fun t => { t with gfxlist := 1 }).slc = State.reset.slc ∧
    (onTblReset fun t => { t with gfxlist := 1 }).tbl ≠ State.reset.tbl ∧
    actsOnSlc (.blitgoW 0) = false ∧
    (onSlcReset fun u => { u with cbank := 1 }).tbl = State.reset.tbl ∧
    (onSlcReset fun u => { u with cbank := 1 }).slc ≠ State.reset.slc := by decide

theorem witness_RamWrittenByHostOnly :
    writesRam (.blitgoW 0) = false ∧ ∃ t, exec (.blitgoW 0) listState = .next t := ⟨rfl, _, rfl⟩

/-- An operation that draws nothing, and a run with a pixel just right of all it writes. -/
theorem witness_FrameBufferPersists :
    mayDraw (.ramW 0x7FFF 1) = false ∧ (∃ t, exec (.ramW 0x7FFF 1) State.reset = .next t) ∧
    (∃ t, exec (.blitgoW 0) (withRecord clippedTile withTile40) = .next t) ∧
    ∀ q ∈ runPlots withTile40.cfg (withRecord clippedTile withTile40).tbl.ram false 0x7FF0,
      ¬ (q.x = (4 : Nat) ∧ q.y = (100 : Nat)) :=
  ⟨rfl, ⟨_, rfl⟩, ⟨_, rfl⟩, by decide +kernel⟩

theorem witness_CbankWrite : ∀ v, Instr.blitgoW 0 ≠ .cbankW v := by
  intro v h
  cases h

theorem witness_FrameStart :
    State.reset.slc.inframe = false ∧ edgeState.slc.inframe = true := by decide

/-- All lines, the last line, the cursor's own line, and one line below it. -/
theorem witness_FlushResult :
    edgeState.slc.cur ≤ (edgeState.cfg.params.screenH : Int) - 1 ∧
    (-1 : Int) ≤ 255 ∧ edgeState.slc.cur ≤ min (255 : Int) 255 ∧
    (-1 : Int) ≤ 254 ∧ min (254 : Int) 255 < edgeState.slc.cur := by decide

/-- The cursor's line, and the next. -/
theorem witness_SnapshotResult :
    ((255 : Nat) : Int) ≤ edgeState.slc.cur ∧ edgeState.slc.cur < (256 : Nat) := by decide

theorem witness_FrameEnd :
    edgeState.slc.inframe = true ∧ edgeState.slc.cur < edgeState.cfg.params.screenH ∧
    edgeState.cfg.params.visYMax < edgeState.cfg.params.screenH ∧ State.reset.slc.inframe = false := by
  decide

/-- Four lines; between the write to register 5 on line 1 and the flush, a write to another register,
and one to register 5 on line 3, beyond `S + K = 2`. -/
def stairEvents : List Event := [.write .latch 6 9 1, .write .latch 5 8 3, .snapshot 1]

theorem witness_StaircaseLaw :
    State.reset.slc.cur < (1 : Nat) ∧ 1 + 1 < 4 ∧
    (∀ e ∈ stairEvents, e ≠ .frameStart ∧ e ≠ .frameEnd ∧
      ∀ d n, decodeEvent e = .latchW 5 d n → 1 + 1 < min n (4 - 1)) ∧
    holds (andThen (exec (.latchW 5 0xAB 1) { State.reset with cfg := visibleBoard 0 3 Board.default })
      (fun s1 => andThen (runEvents stairEvents s1) (exec .flushAll))) (fun _ => true) = true := by
  refine ⟨by decide, by decide, ?_, by decide +kernel⟩
  intro e he
  simp only [stairEvents, List.mem_cons, List.not_mem_nil, or_false] at he
  rcases he with rfl | rfl | rfl <;> simp [decodeEvent, Fin.ofNat]

/-- A frame with a write on line 0 and two on one line, one beyond the last line (clamped to 3), and
between them other ports, a FLUSH below a later write and a SNAPSHOT. -/
def frameEvents : List Event :=
  [.write .latch 5 0xAB 0, .write .pbank 0 3 0, .flush 0, .snapshot 0, .write .latch 5 1 2,
    .write .latch 5 0xCD 2, .write .ram 0x7FFF 7 0, .write .latch 0 1 300]

/-- The same frame with port writes alone. -/
def frameWrites : List Event := frameEvents.filter isPortWrite

/-- R136's premise, evaluated. -/
def checkAhead : List Event → State → Bool
  | [], _ => true
  | e :: es, s =>
    (match latchWriteOf e with
      | some a => decide (s.slc.cur < (min a.2.2 (s.cfg.params.screenH - 1) : Nat))
      | none => true) &&
    holds (exec (decodeEvent e) s) (checkAhead es)

theorem latchesAhead_of_checkAhead {es : List Event} {s : State} (h : checkAhead es s = true) :
    latchesAhead es s := by
  induction es generalizing s with
  | nil => trivial
  | cons e es ih =>
    rw [checkAhead, Bool.and_eq_true] at h
    refine ⟨fun a ha => ?_, fun t ht => ih ?_⟩
    · simpa [ha] using h.1
    · simpa [ht, holds] using h.2

/-- Four lines, before a frame. -/
def fourLines : State := { State.reset with cfg := visibleBoard 0 3 Board.default }

theorem witness_TimelineClosedForm :
    fourLines.slc.inframe = false ∧
    (∀ e ∈ frameEvents, e ≠ .frameStart ∧ e ≠ .frameEnd) ∧
    latchesAhead frameEvents { fourLines with slc := { fourLines.slc with cur := -1, inframe := true } } ∧
    holds (andThen (exec .frameStart fourLines) fun s1 => andThen (runEvents frameEvents s1) (exec .flushAll))
      (fun t => (tlRead t.slc 1)[5] == 0xAB#8 && (tlRead t.slc 2)[5] == 0xCD#8) = true ∧
    (∀ e ∈ frameWrites, isPortWrite e = true ∧ (decodeEvent e).wellFormed fourLines.cfg.params = true) ∧
    (frameWrites.filterMap latchWriteOf).Pairwise (fun a b => a.2.2 ≤ b.2.2) :=
  ⟨by decide, by decide, latchesAhead_of_checkAhead (by decide +kernel), by decide +kernel, by decide,
    by decide⟩

/-- Two states that differ in the snapshot just beyond the cursor. -/
theorem witness_UnmaterialisedLinesUnread :
    (onSlcReset fun u => { u with tl := [(0, Vector.replicate 16 1)] }) =
      { State.reset with slc := { State.reset.slc with
          tl := (onSlcReset fun u => { u with tl := [(0, Vector.replicate 16 1)] }).slc.tl } } ∧
    ∀ l : Nat, (l : Int) ≤ State.reset.slc.cur → tlRead State.reset.slc l =
      tlRead (onSlcReset fun u => { u with tl := [(0, Vector.replicate 16 1)] }).slc l :=
  ⟨rfl, fun l h => absurd h (by simp only [State.reset, Slc.reset]; omega)⟩

/-- The cursor's line, and the next. -/
theorem witness_LineInit :
    ((255 : Nat) : Int) ≤ edgeState.slc.cur ∧ edgeState.slc.cur < (256 : Nat) := by decide

/-- The last step of a sweep too. -/
theorem witness_CounterClosedForm : ((255 : Nat) : Int) ≤ edgeState.slc.cur ∧ 383 < 384 := by decide

/-- The cursor's line, and the next. -/
theorem witness_LineRender :
    ((255 : Nat) : Int) ≤ edgeState.slc.cur ∧ edgeState.slc.cur < (256 : Nat) := by decide

/-- Each RAW with every bit of its lane set but one, and all four zero. -/
theorem witness_MixOr :
    (∀ k : Fin 4, edgeState.slc.raw[k] &&& ~~~ laneMask k = 0#16) ∧
    ∀ k : Fin 4, State.reset.slc.raw[k] = 0#16 := by decide

/-- §2.4: the selected layer is empty. -/
theorem witness_ColourIndex : (0x0101#16).toNat / 2 ^ (2 * (1#2).toNat) % 4 = 0 := by decide

/-- The cursor at the last visible line, and one line above it. -/
theorem witness_BackgroundFrame :
    ((Params.default.visYMax : Nat) : Int) ≤ (onSlcReset fun u => { u with cur := 239 }).slc.cur ∧
    Params.default.visYMin ≤ Params.default.visYMax ∧
    (onSlcReset fun u => { u with cur := 238 }).slc.cur < (Params.default.visYMax : Nat) := by decide

/-- Two states whose snapshots of line 0 differ in byte 12, and which differ in CBANK and in the visible
lines of their boards. -/
theorem witness_RenderingIsDeterministic :
    let s := onSlcReset fun u => { u with cur := 0 }
    let t := { onSlcReset (fun u => { u with cur := 0, cbank := 7, tl := [(0, Latches.zero.set 12 9)] }) with
      cfg := visibleBoard 0 4 Board.default }
    ((0 : Nat) : Int) ≤ s.slc.cur ∧ ((0 : Nat) : Int) ≤ t.slc.cur ∧
    s.cfg.params.bgRows = t.cfg.params.bgRows ∧ s.cfg.params.bgCols = t.cfg.params.bgCols ∧
    s.cfg.bg = t.cfg.bg ∧ s.cfg.mixprom = t.cfg.mixprom ∧ s.slc.pbank = t.slc.pbank ∧
    s.slc.cflip = t.slc.cflip ∧
    ∀ j : Fin 16, j.val < 12 → (tlRead s.slc 0)[j] = (tlRead t.slc 0)[j] := by decide +kernel

theorem witness_RamWrite : 0x7FFF < State.reset.cfg.params.ramWords := by decide

/-- The first address that does not exist, for RAM.W and for a `.tmap` line, the first CMDPTR and origin that leave no room for a
record, and each way out of the drawn class at its first value. -/
theorem witness_BlitterStops :
    State.reset.cfg.params.ramWords ≤ 0x8000 ∧
    State.reset.cfg.params.ramWords ≤
      State.reset.cfg.params.tmBase + 0 + State.reset.cfg.params.tmRows * 0x400 ∧
    State.reset.cfg.params.ramWords < 0x7FF1 + 16 ∧
    ((0#16).toNat = 0 ∧ (0#16).toNat = 0) ∧ 512 ≤ (0x200#16).toNat ∧ 256 ≤ (0x100#16).toNat ∧
    0x1F0 ≤ (0x1F0#16).toNat := by decide

theorem witness_CommandFetch :
    (withRecord clippedTile State.reset).tbl.cmdptr + 16 ≤ Params.default.ramWords := by decide

theorem witness_FlipAdjust :
    State.reset.tbl.flipscr = false ∧ (onTblReset fun t => { t with flipscr := true }).tbl.flipscr = true := by
  decide

theorem witness_NextCode : (0x012F#16).toNat % 16 = 15 := by decide

/-- The last pixel of the buffer inside a tile at its edge, and the first column beyond it. -/
theorem witness_ZoomBlit :
    (0x1EF#16).toNat < 0x1F0 ∧ 383 < Params.default.fbW ∧ 255 < Params.default.fbH ∧
    (383 : Int) ≤ 383 ∧ (383 : Int) < 383 + (1 : Nat) ∧ Params.default.transpen ≠ some 0 ∧
    Params.default.fbW ≤ 384 := by decide

/-- The rule's example, for layer 3. -/
theorem witness_StepForward : countersAre 0x1F 0x0F 0x08 (counters 0x1F 0x0F 0x08) = true := by decide

/-- P2's list from its sentinel on, and a record of zeros at CMDPTR. -/
theorem witness_SentinelSkips :
    (listState.tbl.gfxlist.toNat + 16 ≤ Params.default.ramWords ∧
      listState.tbl.gfxlist.toNat + 16 < 65536 ∧
      decodeCommand (ramRecord Params.default listState.tbl.ram listState.tbl.gfxlist.toNat) = .bltSkip0 ∧
      (holds (exec .listRun listState) fun _ => true) = true ∧
      (holds (exec .listRun { listState with
        tbl := { listState.tbl with gfxlist := listState.tbl.gfxlist + 16 } }) fun _ => true) = true) ∧
    (withRecord (Vector.replicate 16 0) State.reset).tbl.cmdptr + 16 ≤ Params.default.ramWords ∧
    ramRead Params.default (withRecord (Vector.replicate 16 0) State.reset).tbl.ram (0x7FF0 + 6) = 0#16 ∧
    ramRead Params.default (withRecord (Vector.replicate 16 0) State.reset).tbl.ram (0x7FF0 + 7) = 0#16 := by
  decide +kernel

/-- P2's third record, at the start of its list and at CMDPTR. -/
theorem witness_GuardSkips :
    (0x7FE0 + 16 ≤ Params.default.ramWords ∧
      decodeCommand (ramRecord Params.default listState.tbl.ram 0x7FE0) = .bltSkipg 16 16 0x1F0 0x100) ∧
    (withRecord #v[0, 7, 0, 0, 0, 0, 16, 16, 0, 0, 0x1F0, 0, 0, 0x100, 0, 0]
      State.reset).tbl.cmdptr + 16 ≤ Params.default.ramWords ∧
    ∃ sw sh zx zy, decodeCommand (ramRecord Params.default
      (withRecord #v[0, 7, 0, 0, 0, 0, 16, 16, 0, 0, 0x1F0, 0, 0, 0x100, 0, 0] State.reset).tbl.ram
      0x7FF0) = .bltSkipg sw sh zx zy :=
  ⟨by decide +kernel, by decide, 16, 16, 0x1F0, 0x100, by decide +kernel⟩

/-- A width of zero with a height, and the largest sizes and zooms. -/
theorem witness_DirectMode :
    (¬ ((0#16).toNat = 0 ∧ (5#16).toNat = 0) ∧ (0#16).toNat < 512 ∧ (5#16).toNat < 256) ∧
    ¬ ((0x1FF#16).toNat = 0 ∧ (0xFF#16).toNat = 0) ∧ (0x1FF#16).toNat < 512 ∧
    (0xFF#16).toNat < 256 ∧ (0x1EF#16).toNat < 0x1F0 := by decide

theorem witness_TilemapModes :
    ¬ ((1#16).toNat = 0 ∧ (0#16).toNat = 0) ∧ (1#16).toNat < 512 ∧ (0#16).toNat < 256 ∧
    (0x1EF#16).toNat < 0x1F0 := by decide

theorem witness_RunTwiceIsRunOnce :
    ∃ t u, exec (.blitgoW 0) listState = .next t ∧ exec (.blitgoW 1) t = .next u := ⟨_, _, rfl, rfl⟩

/-- §3.2: zero columns with a height of 5. -/
def zeroWidth : Command := #v[0, 0, 0, 0, 0, 0, 0, 5, 0, 0, 0x100, 0, 0, 0x100, 0, 0]

/-- §3.2: a tilemap record with an empty grid. -/
def emptyGrid : Command := #v[0, 0, 0, 0, 0xFFFB, 0, 1, 0, 0, 0, 0x100, 0, 0, 0x100, 0, 0]

/-- P2's third record, which the guard rejects. -/
def guarded : Command := #v[0, 7, 0, 0, 0, 0, 16, 16, 0, 0, 0x1F0, 0, 0, 0x100, 0, 0]

/-- §3.2, last row: a condensed record with both sizes one and both zooms at a bound. -/
def oneByOne : Command := #v[0, 0, 0, 0, 0xF, 0, 1, 1, 0, 0, 0x1EF, 0, 0, 0, 0, 0]

/-- The record placed at CMDPTR is the record found there. -/
def placedWhole (w : Command) : Bool :=
  decide ((withRecord w State.reset).tbl.cmdptr + 16 ≤ Params.default.ramWords) &&
    ramRecord Params.default (withRecord w State.reset).tbl.ram 0x7FF0 == w

theorem placedWhole_records :
    placedWhole (Vector.replicate 16 0) = true ∧ placedWhole guarded = true ∧
    placedWhole zeroWidth = true ∧ placedWhole emptyGrid = true ∧ placedWhole oneByOne = true := by
  decide +kernel

/-- Each of those records at CMDPTR, and the clauses' hypotheses it meets, in their order. -/
theorem witness_SentinelProperty :
    (placedWhole (Vector.replicate 16 0) = true ∧ placedWhole guarded = true ∧
      placedWhole zeroWidth = true ∧ placedWhole emptyGrid = true ∧ placedWhole oneByOne = true) ∧
    ((Vector.replicate 16 0 : Command)[6] = 0#16 ∧ (Vector.replicate 16 0 : Command)[7] = 0#16) ∧
    ¬ (guarded[10].toNat < 0x1F0) ∧ (zeroWidth[6] = 0#16 ∧ zeroWidth[7] = 5#16) ∧
    (emptyGrid[7] = 0#16 ∧ emptyGrid.tm = true) ∧
    State.reset.cfg.params.transpen = none ∧ oneByOne[6] = 1#16 ∧ oneByOne[7] = 1#16 ∧
    oneByOne[10].toNat < 0x1F0 ∧ oneByOne[13].toNat < 0x1F0 :=
  ⟨placedWhole_records, by decide⟩

/-- P2's fourth record at CMDPTR is direct, and one of its writes is that of its top left pixel. -/
theorem witness_RunIsBounded :
    (withRecord clippedTile withTile40).tbl.cmdptr + 16 ≤ Params.default.ramWords ∧
    clippedTile.tm = false ∧
    ∃ q, q ∈ recordPlots withTile40.cfg (withRecord clippedTile withTile40).tbl.ram false clippedTile :=
  ⟨by decide, by decide, ⟨-4, 100, 0x7FF⟩, by decide +kernel⟩

/-- The last origin with room for a record. -/
theorem witness_CommandLine :
    ({ State.reset with origin := 0x7FF0 } : State).origin + 16 ≤ Params.default.ramWords := by decide

/-- Operands at their largest, coordinates beyond 9 bits on both sides. -/
def largestArgs : CmdArgs where
  code := 0xFFFF
  x := -1
  y := 512
  w := 511
  h := 255
  zx := 0x1EF
  zy := 0x1EF
  bank := 0x7F
  sx := 0xFFF
  sy := 0xFFF

theorem witness_CommandLineDecodes :
    (Instr.cmdMode .tmapc largestArgs).wellFormed Params.default = true ∧
    ¬ (largestArgs.w = 0 ∧ largestArgs.h = 0) ∧ largestArgs.w < 512 ∧ largestArgs.h < 256 ∧
    largestArgs.zx < 0x1F0 ∧ largestArgs.zy < 0x1F0 ∧
    holds (exec (.cmdMode .tmapc largestArgs) { State.reset with origin := 0x7FF0 }) (fun _ => true) =
      true := by decide +kernel

theorem witness_OffLine :
    ({ State.reset with origin := 0x7FF0 } : State).origin + 16 ≤ Params.default.ramWords := by decide

theorem witness_OriginAndTilemapLines :
    Params.default.wf = true ∧ 31 < Params.default.tmRows ∧ 255 < Params.default.tmCols := by decide

theorem witness_LatchLayerLine : 255 < 256 ∧ 15 < 16 := by decide

end Sys2Proof.Tests
end

/-! ## CBANK is read by no operation but its own write (R124)

One predicate says that an operation does not depend on CBANK, one rule says so for each way the model
composes an operation, and the compositor's sweep is the only loop over SLC. -/

namespace Sys2Proof.Machine

/-- SLC with the byte `c` in CBANK. -/
def Slc.setCbank (c : Byte) (u : Slc) : Slc := { u with cbank := c }

/-- The machine with the byte `c` in CBANK. -/
def setCbank (c : Byte) (s : State) : State := onSlc (Slc.setCbank c) s

/-- An operation that does not read CBANK: with any other byte there it stops for the same reason, or
answers the same state, CBANK itself apart. -/
def IgnoresCbank (f : State → Out) : Prop :=
  ∀ (c : Byte) (s : State), agree (fun a b => b = setCbank c a) (f s) (f (setCbank c s))

/-- An update of SLC that commutes with the change of CBANK there does so in the whole state. -/
theorem onSlc_setCbank {h : Slc → Slc} {c : Byte} (hc : ∀ u : Slc, h (u.setCbank c) = (h u).setCbank c)
    (s : State) : onSlc h (setCbank c s) = setCbank c (onSlc h s) := by
  unfold setCbank
  rw [onSlc_onSlc, onSlc_onSlc]
  simp only [hc]

/-- An update of TBL is not affected by CBANK (R8). -/
theorem onTbl_setCbank (c : Byte) (f : Tbl → Tbl) (s : State) :
    onTbl f (setCbank c s) = setCbank c (onTbl f s) := (onSlc_onTbl (Slc.setCbank c) f s).symm

/-! ### Rules for composed operations -/

/-- An operation that always answers a state ignores CBANK when its update commutes with the change of
CBANK. -/
theorem IgnoresCbank.next {g : State → State}
    (hg : ∀ (c : Byte) (s : State), g (setCbank c s) = setCbank c (g s)) :
    IgnoresCbank fun s => .next (g s) := hg

theorem IgnoresCbank.fault (r : Fault) : IgnoresCbank fun _ => .fault r := fun _ _ => rfl

theorem IgnoresCbank.refused (r : Refusal) : IgnoresCbank fun _ => .refused r := fun _ _ => rfl

/-- A branch on a condition that is itself independent of CBANK. -/
theorem IgnoresCbank.ite {p : State → Prop} {_ : ∀ s, Decidable (p s)} {f g : State → Out}
    (hp : ∀ (c : Byte) (s : State), p (setCbank c s) ↔ p s) (hf : IgnoresCbank f)
    (hg : IgnoresCbank g) : IgnoresCbank fun s => if p s then f s else g s := by
  intro c s
  by_cases h : p s
  · simpa only [if_pos h, if_pos ((hp c s).2 h)] using hf c s
  · simpa only [if_neg h, if_neg (mt (hp c s).1 h)] using hg c s

theorem IgnoresCbank.comp {f : State → Out} {g : State → State} (hf : IgnoresCbank f)
    (hg : ∀ (c : Byte) (s : State), g (setCbank c s) = setCbank c (g s)) :
    IgnoresCbank fun s => f (g s) := by
  intro c s
  simpa only [hg] using hf c (g s)

theorem agree_andThen {R : State → State → Prop} {o o' : Out} {g : State → Out} (ho : agree R o o')
    (hg : ∀ s t, R s t → agree R (g s) (g t)) : agree R (andThen o g) (andThen o' g) := by
  cases o <;> cases o'
  case next.next s t => exact hg s t ho
  case fault.fault | refused.refused => exact ho
  all_goals exact False.elim ho

theorem IgnoresCbank.andThen {f g : State → Out} (hf : IgnoresCbank f) (hg : IgnoresCbank g) :
    IgnoresCbank fun s => andThen (f s) g := by
  intro c s
  refine agree_andThen (hf c s) ?_
  rintro a _ rfl
  exact hg c a

theorem IgnoresCbank.forEach {α : Type} {f : α → State → Out} (hf : ∀ a, IgnoresCbank (f a))
    (l : List α) : IgnoresCbank (forEach f l) := by
  induction l with
  | nil => exact .next fun _ _ => rfl
  | cons a l ih => exact (hf a).andThen ih

/-! ### The compositor's sweep -/

/-- What every pass of a loop commutes with, the loop commutes with. -/
theorem loop_commute {α : Type} (g : α → α) {f : Nat → α → α} (hf : ∀ k x, f k (g x) = g (f k x))
    (n : Nat) (a : α) : loop n f (g a) = g (loop n f a) := by
  induction n with
  | zero => rfl
  | succ n ih => rw [loop_succ, loop_succ, ih, hf]

theorem formPixel_setCbank (b : Board) (p : Nat) (c : Byte) (u : Slc) :
    formPixel b p (u.setCbank c) = (formPixel b p u).setCbank c := rfl

theorem stepLayer_setCbank (k : Fin 4) (c : Byte) (u : Slc) :
    stepLayer k (u.setCbank c) = (stepLayer k u).setCbank c := by
  rw [stepLayer_eq, stepLayer_eq]
  rfl

theorem stepLayers_setCbank (c : Byte) (u : Slc) :
    stepLayers (u.setCbank c) = (stepLayers u).setCbank c := by
  simp only [stepLayers, layers, List.foldl_cons, List.foldl_nil, stepLayer_setCbank]

theorem sweepLine_setCbank (b : Board) (c : Byte) (u : Slc) :
    sweepLine b (u.setCbank c) = (sweepLine b u).setCbank c :=
  loop_commute (Slc.setCbank c)
    (fun p x => by rw [formPixel_setCbank, stepLayers_setCbank]) Config.sweep u

/-! ### The operations shared by several others -/

theorem execLatchW_ignoresCbank (idx : Fin 16) (v n : Nat) : IgnoresCbank (execLatchW idx v n) :=
  .next fun _ _ => rfl

theorem execRamW_ignoresCbank (a v : Nat) : IgnoresCbank (execRamW a v) :=
  .ite (fun _ _ => Iff.rfl) (.next fun c _ => onTbl_setCbank c _ _) (.fault _)

theorem execFlush_ignoresCbank (t : Int) : IgnoresCbank (execFlush t) :=
  .ite (fun _ _ => Iff.rfl) (.refused _) (.next fun _ _ => rfl)

theorem execLineInit_ignoresCbank (y : Nat) : IgnoresCbank (execLineInit y) :=
  .ite (fun _ _ => Iff.rfl) (.next fun _ _ => rfl) (.refused _)

theorem execLineRender_ignoresCbank (y : Nat) : IgnoresCbank (execLineRender y) :=
  (execLineInit_ignoresCbank y).andThen <| .next fun c s =>
    onSlc_setCbank (sweepLine_setCbank s.cfg c) s

theorem execBgFrame_ignoresCbank : IgnoresCbank execBgFrame := fun c s =>
  IgnoresCbank.forEach execLineRender_ignoresCbank (visibleLines s.cfg.params) c s

theorem execFrameEnd_ignoresCbank : IgnoresCbank execFrameEnd :=
  .ite (fun _ _ => Iff.rfl)
    (((execFlush_ignoresCbank (-1)).comp fun _ _ => rfl).andThen execBgFrame_ignoresCbank) (.refused _)

theorem writeValues_ignoresCbank (a : Nat) (vs : List Nat) : IgnoresCbank (writeValues a vs) := by
  induction vs generalizing a with
  | nil => exact .next fun _ _ => rfl
  | cons v vs ih => exact (execRamW_ignoresCbank a v).andThen (ih (a + 1))

theorem assemble_ignoresCbank (vs : List Nat) : IgnoresCbank (assemble vs) := fun c s =>
  (writeValues_ignoresCbank s.origin vs).andThen (.next fun _ _ => rfl) c s

/-! ### Every operation -/

/-- No operation but CBANK.W depends on CBANK, whether it acts on SLC, on TBL or on the assembler's
origin. -/
theorem exec_ignoresCbank {op : Instr} (hop : ∀ v, op ≠ .cbankW v) : IgnoresCbank (exec op) := by
  cases op with
  | cbankW v => exact absurd rfl (hop v)
  -- updates of SLC or of the model's own fields (and GFXLIST, for `.list`), from every state
  | bltSkip0 | bltSkipg | pbankW | cflipW | layerEn | layerFetch | mixOr | mixLookup | cidx | pal
  | stepFwd | stepRev | orgA | listA => exact .next fun _ _ => rfl
  -- one update of TBL, from every state
  | gfxlistW | flipscrW | blitgoW | listRun | cmdDecode | bltFlipadj | nextcode | fbWrite =>
    exact .next fun c _ => onTbl_setCbank c _ _
  -- one update of TBL, under a condition on the operands or on CMDPTR
  | bltDirect | bltTmap | bltTmapc | zblit =>
    exact .ite (fun _ _ => Iff.rfl) (.next fun c _ => onTbl_setCbank c _ _) (.refused _)
  | execCmd | cmdFetch =>
    exact .ite (fun _ _ => Iff.rfl) (.next fun c _ => onTbl_setCbank c _ _) (.fault _)
  -- a report or an update of SLC, under a condition on the cursor or on INFRAME
  | snapshot => exact .ite (fun _ _ => Iff.rfl) (.next fun _ _ => rfl) (.refused _)
  | frameStart => exact .ite (fun _ _ => Iff.rfl) (.refused _) (.next fun _ _ => rfl)
  | latchW idx v n => exact execLatchW_ignoresCbank idx v n
  | ramW a v => exact execRamW_ignoresCbank a v
  | flush t => exact execFlush_ignoresCbank t
  | flushAll => exact execFlush_ignoresCbank (-1)
  | frameEnd => exact execFrameEnd_ignoresCbank
  | bgFrame => exact execBgFrame_ignoresCbank
  | lineInit y => exact execLineInit_ignoresCbank y
  | lineRender y => exact execLineRender_ignoresCbank y
  | cmdMode mode args => exact assemble_ignoresCbank (cmdValues mode args)
  | cmdOff => exact assemble_ignoresCbank (List.replicate 16 0)
  | tmapEntry r c code =>
    exact fun b s => execRamW_ignoresCbank (tmAddr s.cfg.params r c) code b s
  | latchLayer =>
    exact .andThen (execLatchW_ignoresCbank _ _ _)
      (.andThen (execLatchW_ignoresCbank _ _ _) (execLatchW_ignoresCbank _ _ _))

/-- Settles O19: the event and the write are the model's equations; that no other operation reads
CBANK is `exec_ignoresCbank`. -/
theorem cbankWrite : Obligations.CbankWrite := by
  unfold Obligations.CbankWrite
  refine ⟨fun _ _ _ => rfl, fun v s => ⟨BitVec.ofNat 8 v, BitVec.toNat_ofNat v 8, rfl⟩, ?_⟩
  intro op c s hop
  exact exec_ignoresCbank hop c s

end Sys2Proof.Machine

/-! ## The packed words of the compositor (R144, R146)

The lanes of format ACC are read bit by bit: a RAW that keeps to its lane has its bits there and nowhere
else, and no bit lies in two lanes. -/

namespace Sys2Proof.Machine

/-! ### MIX.OR -/

/-- The colour mixer loses no layer's bit and adds none. -/
theorem mixCombine_acc_getLsbD (u : Slc) (n : Nat) :
    (mixCombine u).acc.getLsbD n = true ↔ ∃ k : Fin 4, u.raw[k].getLsbD n = true := by
  simp [Fin.exists_fin_succ, or_assoc]

/-- A word with nothing outside a mask has its bits in the mask. -/
theorem getLsbD_mask_of_and_not_eq_zero {w m : Word} (h : w &&& ~~~ m = 0#16) {n : Nat}
    (hw : w.getLsbD n = true) : m.getLsbD n = true := by
  have hlt : n < 16 := BitVec.lt_of_getLsbD hw
  have hn : (w &&& ~~~ m).getLsbD n = false := by simp [h]
  simpa [hw, hlt] using hn

/-- The lanes of two layers share no bit of format ACC (R101). -/
theorem laneMask_and_laneMask : ∀ j k : Fin 4, j ≠ k → laneMask j &&& laneMask k = 0#16 := by decide

/-- A bit of format ACC belongs to one layer's lane at most. -/
theorem eq_of_getLsbD_laneMask {j k : Fin 4} {n : Nat} (hj : (laneMask j).getLsbD n = true)
    (hk : (laneMask k).getLsbD n = true) : j = k := by
  by_contra hne
  have hn : (laneMask j &&& laneMask k).getLsbD n = false := by simp [laneMask_and_laneMask j k hne]
  simp [hj, hk] at hn

/-- Where every RAW keeps to its lane, the accumulator is the concatenation of the four: its part in a
layer's lane is that layer's RAW. -/
theorem mixCombine_acc_and_laneMask {u : Slc} (h : ∀ k : Fin 4, u.raw[k] &&& ~~~ laneMask k = 0#16)
    (k : Fin 4) : (mixCombine u).acc &&& laneMask k = u.raw[k] := by
  refine BitVec.eq_of_getLsbD_eq fun n _ => Bool.eq_iff_iff.2 ?_
  rw [BitVec.getLsbD_and, Bool.and_eq_true, mixCombine_acc_getLsbD]
  constructor
  · rintro ⟨⟨j, hj⟩, hk⟩
    obtain rfl : j = k := eq_of_getLsbD_laneMask (getLsbD_mask_of_and_not_eq_zero (h j) hj) hk
    exact hj
  · intro hk
    exact ⟨⟨k, hk⟩, getLsbD_mask_of_and_not_eq_zero (h k) hk⟩

theorem mixCombine_acc_eq_zero {u : Slc} (h : ∀ k : Fin 4, u.raw[k] = 0#16) :
    (mixCombine u).acc = 0#16 := by
  refine BitVec.eq_of_getLsbD_eq fun n _ => Bool.eq_iff_iff.2 ?_
  simp only [mixCombine_acc_getLsbD, h, exists_const]

/-- Settles O30: the accumulator's bits are those of the four RAW values, and disjoint lanes keep them
apart. -/
theorem mixOr : Obligations.MixOr := by
  unfold Obligations.MixOr
  exact fun s => ⟨onSlc mixCombine s, rfl, rfl, mixCombine_acc_getLsbD s.slc,
    mixCombine_acc_and_laneMask, mixCombine_acc_eq_zero⟩

/-! ### CIDX -/

/-- The colour index as a number: LOOKUP above the two bits of ACC that it selects. -/
theorem toNat_cidxOf (lookup : BitVec 2) (acc : Word) :
    (cidxOf lookup acc).toNat =
      lookup.toNat * 4 + acc.toNat / 2 ^ (2 * lookup.toNat) % 4 := by
  have high : (lookup.setWidth 4 <<< 2).toNat = lookup.toNat <<< 2 := by
    have hl : lookup.toNat < 4 := lookup.isLt
    simp only [BitVec.toNat_shiftLeft, BitVec.toNat_setWidth, Nat.shiftLeft_eq]
    omega
  have low : (((acc >>> (2 * lookup.toNat)) &&& 3#16).setWidth 4).toNat =
      acc.toNat / 2 ^ (2 * lookup.toNat) % 4 := by
    simp only [BitVec.toNat_setWidth, BitVec.toNat_and, BitVec.toNat_ushiftRight,
      Nat.shiftRight_eq_div_pow, BitVec.toNat_ofNat]
    rw [show 3 % 2 ^ 16 = 2 ^ 2 - 1 from rfl, Nat.and_two_pow_sub_one_eq_mod]
    omega
  have hlow : acc.toNat / 2 ^ (2 * lookup.toNat) % 4 < 2 ^ 2 := Nat.mod_lt _ (by decide)
  rw [cidxOf, BitVec.toNat_or, high, low, ← Nat.shiftLeft_add_eq_or_of_lt hlow, Nat.shiftLeft_eq]

/-- Settles O32: the number form of the index, and its low part zero where the selected pixel is. -/
theorem colourIndex : Obligations.ColourIndex := by
  unfold Obligations.ColourIndex
  intro s
  have index := toNat_cidxOf s.slc.lookup s.slc.acc
  refine ⟨onSlc formIndex s, rfl, index, fun hzero => index.trans ?_, rfl⟩
  rw [hzero, Nat.add_zero]

end Sys2Proof.Machine

/-! ## The two skips and the list loop (R170, R171, R177, R178)

A skipped record changes W and the decoded registers and nothing else. A run reads nothing an earlier
record left there, since each record loads the registers it uses; so a run that starts at a skipped
record and the run that starts one record later agree in all that a run reads. -/

namespace Sys2Proof.Machine

/-! ### Classification and decoding of the skips -/

theorem isSentinel_eq_true_iff {sw sh : Word} :
    isSentinel sw sh = true ↔ sw = 0#16 ∧ sh = 0#16 := by
  simp [isSentinel]

theorem guardPasses_eq_true_iff {sw sh zx zy : Word} :
    guardPasses sw sh zx zy = true ↔
      sw.toNat < 512 ∧ sh.toNat < 256 ∧ zx.toNat < 0x1F0 ∧ zy.toNat < 0x1F0 := by
  simp only [guardPasses, Bool.and_eq_true, decide_eq_true_eq, and_assoc]
  rfl

theorem classify_eq_skip0_iff {sw sh zx zy : Word} {tm cond : Bool} :
    classify sw sh zx zy tm cond = .skip0 ↔ isSentinel sw sh = true := by
  unfold classify
  split
  · next hs => simp [hs]
  · next hs => split_ifs <;> simp [hs]

theorem classify_eq_skipg_iff {sw sh zx zy : Word} {tm cond : Bool} :
    classify sw sh zx zy tm cond = .skipg ↔
      ¬ isSentinel sw sh = true ∧ ¬ guardPasses sw sh zx zy = true := by
  unfold classify
  split
  · next hs => simp [hs]
  · next hs =>
    split
    · next hg => simpa [hs] using hg
    · next hg =>
      have hpass : guardPasses sw sh zx zy = true := by simpa using hg
      split_ifs <;> simp [hpass]

/-- A record decodes to BLT.SKIP0 exactly when it is in that class (R104). -/
theorem decodeCommand_eq_bltSkip0_iff {w : Command} :
    decodeCommand w = .bltSkip0 ↔ classify w.sw w.sh w.zx w.zy w.tm w.cond = .skip0 := by
  unfold decodeCommand
  cases classify w.sw w.sh w.zx w.zy w.tm w.cond <;> simp

/-- A record decodes to a BLT.SKIPG exactly when it is in that class (R104). -/
theorem decodeCommand_eq_bltSkipg_iff {w : Command} :
    (∃ sw sh zx zy, decodeCommand w = .bltSkipg sw sh zx zy) ↔
      classify w.sw w.sh w.zx w.zy w.tm w.cond = .skipg := by
  unfold decodeCommand
  cases classify w.sw w.sh w.zx w.zy w.tm w.cond <;> simp

/-- A record of either class that draws nothing (R177, R178). -/
def IsSkip (w : Command) : Prop :=
  classify w.sw w.sh w.zx w.zy w.tm w.cond = .skip0 ∨
    classify w.sw w.sh w.zx w.zy w.tm w.cond = .skipg

theorem isSkip_of_bltSkip0 {w : Command} (h : decodeCommand w = .bltSkip0) : IsSkip w :=
  .inl (decodeCommand_eq_bltSkip0_iff.1 h)

theorem isSkip_of_bltSkipg {w : Command}
    (h : ∃ sw sh zx zy, decodeCommand w = .bltSkipg sw sh zx zy) : IsSkip w :=
  .inr (decodeCommand_eq_bltSkipg_iff.1 h)

/-! ### EXEC.CMD of a skip -/

/-- EXEC.CMD on TBL by the class of the record at CMDPTR: the decoded registers hold the raw words
that classify it (R175). -/
theorem runCommand_eq (b : Board) (t : Tbl) :
    runCommand b t =
      let w := ramRecord b.params t.ram t.cmdptr
      runClass b (classify w.sw w.sh w.zx w.zy w.tm w.cond) (decodeFields b (fetchCommand b t)) := rfl

theorem runCommand_fb_of_isSkip {b : Board} {t : Tbl}
    (h : IsSkip (ramRecord b.params t.ram t.cmdptr)) : (runCommand b t).fb = t.fb := by
  rw [runCommand_eq]
  obtain h0 | hg := h
  · simp [h0, runClass]
  · simp [hg, runClass]

theorem recordInRam_eq_true_iff {b : Board} {t : Tbl} :
    recordInRam b t = true ↔ t.cmdptr + 16 ≤ b.params.ramWords := decide_eq_true_iff

/-- EXEC.CMD of a skipped record completes; W and the decoded registers alone may change. -/
theorem exec_execCmd_of_isSkip {s : State} (hroom : s.tbl.cmdptr + 16 ≤ s.cfg.params.ramWords)
    (h : IsSkip (ramRecord s.cfg.params s.tbl.ram s.tbl.cmdptr)) :
    ∃ t, exec .execCmd s = .next t ∧ t.slc = s.slc ∧ t.tbl.fb = s.tbl.fb ∧ t.tbl.ram = s.tbl.ram ∧
      t.tbl.gfxlist = s.tbl.gfxlist ∧ t.tbl.flipscr = s.tbl.flipscr ∧ t.tbl.cmdptr = s.tbl.cmdptr := by
  have hrun : exec .execCmd s = .next (onTbl (runCommand s.cfg) s) :=
    if_pos (recordInRam_eq_true_iff.2 hroom)
  refine ⟨_, hrun, ?_⟩
  simp [runCommand_fb_of_isSkip h]

/-! ### What a run reads -/

/-- Two blitters that agree in all that the list loop reads: RAM, FLIPSCR, FB and CMDPTR. GFXLIST, W and
the decoded registers are free. -/
structure SameRunInputs (t u : Tbl) : Prop where
  ram : t.ram = u.ram
  flipscr : t.flipscr = u.flipscr
  fb : t.fb = u.fb
  cmdptr : t.cmdptr = u.cmdptr

/-- GFXLIST replaced by a word (R125). -/
def setGfxlist (g : Word) (t : Tbl) : Tbl := { t with gfxlist := g }

/-- GFXLIST and the strip's running code replaced: the two registers that CMD.FETCH and CMD.DECODE do
not load and no drawing command reads. -/
def setUnread (g c : Word) (t : Tbl) : Tbl := { setGfxlist g t with stripCode := c }

theorem setGfxlist_gfxlist (g : Word) (t : Tbl) : (setGfxlist g t).gfxlist = g := rfl

theorem setGfxlist_fb (g : Word) (t : Tbl) : (setGfxlist g t).fb = t.fb := rfl

theorem setUnread_fb (g c : Word) (t : Tbl) : (setUnread g c t).fb = t.fb := rfl

/-- After fetch and decode, blitters with the same inputs differ in the unread registers alone. -/
theorem decodeFields_fetchCommand_congr (b : Board) {t u : Tbl} (h : SameRunInputs t u) :
    decodeFields b (fetchCommand b u) =
      setUnread u.gfxlist u.stripCode (decodeFields b (fetchCommand b t)) := by
  obtain ⟨hram, hflip, hfb, hptr⟩ := h
  simp only [decodeFields, fetchCommand, loadCommon, setUnread, setGfxlist, hram, hflip, hfb, hptr]

theorem flipAdjust_setUnread (b : Board) (g c : Word) (t : Tbl) :
    flipAdjust b (setUnread g c t) = setUnread g c (flipAdjust b t) := by
  cases h : t.flipscr with
  | false => simp [flipAdjust, setUnread, setGfxlist, h]
  | true => simp [flipAdjust, setUnread, setGfxlist, h]

/-- A strip starts at the command's code, whatever the last strip ended at. -/
theorem drawStrip_setUnread (b : Board) (g c : Word) (t : Tbl) :
    drawStrip b (setUnread g c t) = setGfxlist g (drawStrip b t) := by
  unfold drawStrip
  refine loop_commute (setGfxlist g) (fun n x => ?_) (tilesOf t.sw) { t with stripCode := t.code }
  rfl

theorem drawGrid_setUnread (b : Board) (pitch mult : Nat) (g c : Word) (t : Tbl) :
    drawGrid b pitch mult (setUnread g c t) = setUnread g c (drawGrid b pitch mult t) := by
  unfold drawGrid
  refine loop_commute (setUnread g c) (fun j x => ?_) (mult * tilesOf t.sh) t
  refine loop_commute (setUnread g c) (fun i y => ?_) (mult * tilesOf x.sw) x
  rfl

/-- No drawing command reads the unread registers. -/
theorem runClass_setUnread_fb (b : Board) (cl : CmdClass) (g c : Word) (t : Tbl) :
    (runClass b cl (setUnread g c t)).fb = (runClass b cl t).fb := by
  cases cl with
  | skip0 | skipg => rfl
  | direct => simp only [runClass, flipAdjust_setUnread, drawStrip_setUnread, setGfxlist_fb]
  | tmap =>
    simp only [runClass, drawTilemap, flipAdjust_setUnread, drawGrid_setUnread, setUnread_fb]
  | tmapc =>
    simp only [runClass, drawCondensed, flipAdjust_setUnread, drawGrid_setUnread, setUnread_fb]

theorem SameRunInputs.trans {t u v : Tbl} (h : SameRunInputs t u) (h' : SameRunInputs u v) :
    SameRunInputs t v :=
  ⟨h.ram.trans h'.ram, h.flipscr.trans h'.flipscr, h.fb.trans h'.fb, h.cmdptr.trans h'.cmdptr⟩

theorem SameRunInputs.runCommand (b : Board) {t u : Tbl} (h : SameRunInputs t u) :
    SameRunInputs (runCommand b t) (runCommand b u) where
  ram := by simpa using h.ram
  flipscr := by simpa using h.flipscr
  fb := by
    rw [runCommand_eq, runCommand_eq, decodeFields_fetchCommand_congr b h, h.ram, h.cmdptr,
      runClass_setUnread_fb]
  cmdptr := by simpa using h.cmdptr

theorem SameRunInputs.advancePtr {t u : Tbl} (h : SameRunInputs t u) :
    SameRunInputs (advancePtr t) (advancePtr u) :=
  ⟨h.ram, h.flipscr, h.fb, congrArg (· + Config.cmdWords) h.cmdptr⟩

theorem SameRunInputs.recordInRam (b : Board) {t u : Tbl} (h : SameRunInputs t u) :
    recordInRam b t = recordInRam b u := by
  rw [Machine.recordInRam, Machine.recordInRam, h.cmdptr]

theorem runFrom_succ_of_recordInRam {b : Board} {t : Tbl} (h : recordInRam b t = true) (n : Nat) :
    runFrom b (n + 1) t = runFrom b n (advancePtr (runCommand b t)) := if_pos h

theorem runFrom_succ_of_not_recordInRam {b : Board} {t : Tbl} (h : ¬ recordInRam b t = true)
    (n : Nat) : runFrom b (n + 1) t = t := if_neg h

/-- The list loop reads nothing but its inputs. -/
theorem SameRunInputs.runFrom (b : Board) (n : Nat) {t u : Tbl} (h : SameRunInputs t u) :
    SameRunInputs (runFrom b n t) (runFrom b n u) := by
  induction n generalizing t u with
  | zero => exact h
  | succ n ih =>
    have hsame := h.recordInRam b
    by_cases hr : Machine.recordInRam b t = true
    · rw [runFrom_succ_of_recordInRam hr, runFrom_succ_of_recordInRam (hsame ▸ hr)]
      exact ih (h.runCommand b).advancePtr
    · rw [runFrom_succ_of_not_recordInRam hr, runFrom_succ_of_not_recordInRam (hsame ▸ hr)]
      exact h

/-! ### A run that starts at a skip -/

/-- The blitter as LIST.RUN starts: CMDPTR at GFXLIST (R170). -/
def startRun (t : Tbl) : Tbl := { t with cmdptr := t.gfxlist.toNat }

theorem startRun_cmdptr (t : Tbl) : (startRun t).cmdptr = t.gfxlist.toNat := rfl

theorem runList_eq (b : Board) (t : Tbl) :
    runList b t = runFrom b (b.params.ramWords / 16) (startRun t) := rfl

/-- A bound that covers the rest of RAM is enough: the loop stops there of itself (R173). -/
theorem runFrom_succ_of_bound {b : Board} {n : Nat} {t : Tbl}
    (h : b.params.ramWords < t.cmdptr + 16 * (n + 1)) : runFrom b (n + 1) t = runFrom b n t := by
  induction n generalizing t with
  | zero =>
    refine runFrom_succ_of_not_recordInRam ?_ 0
    rw [recordInRam_eq_true_iff]
    omega
  | succ n ih =>
    by_cases hr : recordInRam b t = true
    · rw [runFrom_succ_of_recordInRam hr, runFrom_succ_of_recordInRam hr]
      apply ih
      simp only [advancePtr_cmdptr, runCommand_cmdptr, Config.cmdWords]
      omega
    · rw [runFrom_succ_of_not_recordInRam hr, runFrom_succ_of_not_recordInRam hr]

/-- A skip at CMDPTR leaves the loop as if it had started at the next record, with one record less in
its bound. -/
theorem runFrom_succ_of_isSkip {b : Board} {t : Tbl} (hroom : t.cmdptr + 16 ≤ b.params.ramWords)
    (h : IsSkip (ramRecord b.params t.ram t.cmdptr)) (n : Nat) :
    SameRunInputs (runFrom b (n + 1) t) (runFrom b n (advancePtr t)) := by
  have hskip : SameRunInputs (runCommand b t) t :=
    ⟨runCommand_ram b t, runCommand_flipscr b t, runCommand_fb_of_isSkip h, runCommand_cmdptr b t⟩
  rw [runFrom_succ_of_recordInRam (recordInRam_eq_true_iff.2 hroom)]
  exact hskip.advancePtr.runFrom b n

/-- The list goes on after a skip: the run that starts there and the run that starts one record later
end alike in all that a run reads (R177, R178). -/
theorem runList_of_isSkip {b : Board} {t : Tbl} (hroom : t.gfxlist.toNat + 16 ≤ b.params.ramWords)
    (hword : t.gfxlist.toNat + 16 < 65536)
    (h : IsSkip (ramRecord b.params t.ram t.gfxlist.toNat)) :
    SameRunInputs (runList b t) (runList b (setGfxlist (t.gfxlist + 16) t)) := by
  obtain ⟨n, hn⟩ : ∃ n, b.params.ramWords / 16 = n + 1 := ⟨b.params.ramWords / 16 - 1, by omega⟩
  have hnext : (t.gfxlist + 16).toNat = t.gfxlist.toNat + 16 := by bv_omega
  have hfirst : SameRunInputs (runFrom b (n + 1) (startRun t))
      (runFrom b n (advancePtr (startRun t))) := runFrom_succ_of_isSkip (t := startRun t) hroom h n
  -- the second run's bound is one too many: without it, it still reaches the end of RAM
  have hsecond : runList b (setGfxlist (t.gfxlist + 16) t) =
      runFrom b n (startRun (setGfxlist (t.gfxlist + 16) t)) := by
    rw [runList_eq, hn]
    apply runFrom_succ_of_bound
    rw [startRun_cmdptr, setGfxlist_gfxlist, hnext]
    omega
  have hstart : SameRunInputs (advancePtr (startRun t))
      (startRun (setGfxlist (t.gfxlist + 16) t)) := ⟨rfl, rfl, rfl, hnext.symm⟩
  rw [hsecond, runList_eq, hn]
  exact hfirst.trans (hstart.runFrom b n)

/-- `runList_of_isSkip` for LIST.RUN. -/
theorem exec_listRun_of_isSkip {s t u : State}
    (hroom : s.tbl.gfxlist.toNat + 16 ≤ s.cfg.params.ramWords)
    (hword : s.tbl.gfxlist.toNat + 16 < 65536)
    (h : IsSkip (ramRecord s.cfg.params s.tbl.ram s.tbl.gfxlist.toNat))
    (ht : exec .listRun s = .next t)
    (hu : exec .listRun { s with tbl := { s.tbl with gfxlist := s.tbl.gfxlist + 16 } } = .next u) :
    t.tbl.fb = u.tbl.fb ∧ t.tbl.cmdptr = u.tbl.cmdptr := by
  cases ht
  cases hu
  have hsame := runList_of_isSkip hroom hword h
  exact ⟨hsame.fb, hsame.cmdptr⟩

/-! ### The statements -/

/-- Settles O48: the class test on the two size words, then the laws of a skipped record. -/
theorem sentinelSkips : Obligations.SentinelSkips := by
  unfold Obligations.SentinelSkips
  refine ⟨fun _ => rfl, fun w => ?_, fun s hroom h6 h7 => ?_, fun s t u hroom hword h ht hu => ?_⟩
  · exact decodeCommand_eq_bltSkip0_iff.trans (classify_eq_skip0_iff.trans isSentinel_eq_true_iff)
  · have hw6 : (ramRecord s.cfg.params s.tbl.ram s.tbl.cmdptr).sw = 0#16 :=
      (ramRecord_get _ _ _ 6).trans h6
    have hw7 : (ramRecord s.cfg.params s.tbl.ram s.tbl.cmdptr).sh = 0#16 :=
      (ramRecord_get _ _ _ 7).trans h7
    have hskip : IsSkip (ramRecord s.cfg.params s.tbl.ram s.tbl.cmdptr) :=
      .inl (classify_eq_skip0_iff.2 (isSentinel_eq_true_iff.2 ⟨hw6, hw7⟩))
    exact exec_execCmd_of_isSkip hroom hskip
  · exact exec_listRun_of_isSkip hroom hword (isSkip_of_bltSkip0 h) ht hu

/-- Settles O49: the class test on the guard's four bounds, then the laws of a skipped record. -/
theorem guardSkips : Obligations.GuardSkips := by
  unfold Obligations.GuardSkips
  refine ⟨fun _ _ _ _ _ => rfl, fun w => ?_, fun s hroom h => ?_,
    fun s t u hroom hword h ht hu => ?_⟩
  · rw [decodeCommand_eq_bltSkipg_iff, classify_eq_skipg_iff, isSentinel_eq_true_iff,
      guardPasses_eq_true_iff]
    rfl
  · exact exec_execCmd_of_isSkip hroom (isSkip_of_bltSkipg h)
  · exact exec_listRun_of_isSkip hroom hword (isSkip_of_bltSkipg h) ht hu

/-- Settles O42: the sixteen words of the record at CMDPTR, read one by one. -/
theorem commandFetch : Obligations.CommandFetch := by
  unfold Obligations.CommandFetch
  exact fun s hroom => ⟨onTbl (fetchCommand s.cfg) s, if_pos (recordInRam_eq_true_iff.2 hroom),
    ramRecord_get s.cfg.params s.tbl.ram s.tbl.cmdptr, rfl⟩

end Sys2Proof.Machine

/-! ## The two encoded forms (R64, R91, R93, R104, R107, R108)

A record decodes through its named fields alone, and a field is the part of one word that its mask
leaves. -/

namespace Sys2Proof

open Machine (isSentinel guardPasses isDrawn isSentinel_eq_true_iff guardPasses_eq_true_iff)

/-! ### A record as bytes -/

/-- The byte of a word at an even or an odd byte address. -/
theorem getD_flatMap_bytes (order : ByteOrder) (ws : List Word) (rest : List Byte) {j : Nat}
    (h : j < ws.length) :
    let bs := ws.flatMap (fun v => [lowerByte order v, higherByte order v]) ++ rest
    bs.getD (2 * j) 0 = lowerByte order ws[j] ∧ bs.getD (2 * j + 1) 0 = higherByte order ws[j] := by
  induction ws generalizing j with
  | nil => exact absurd h (Nat.not_lt_zero j)
  | cons w ws ih =>
    cases j with
    | zero => exact ⟨rfl, rfl⟩
    | succ j => exact ih (Nat.lt_of_succ_lt_succ h)

theorem length_bytesOfRecord (order : ByteOrder) (w : Command) :
    (bytesOfRecord order w).length = 2 * Config.cmdWords := by
  simp [bytesOfRecord, Config.cmdWords]

/-- A record is read back from its bytes, in either order and whatever follows them. -/
theorem recordOfBytes_bytesOfRecord (order : ByteOrder) (w : Command) (rest : List Byte) :
    recordOfBytes order (bytesOfRecord order w ++ rest) = w := by
  refine Vector.ext fun j hj => ?_
  obtain ⟨hlow, hhigh⟩ := getD_flatMap_bytes order w.toList rest (j := j) (by simpa using hj)
  simp only [recordOfBytes, bytesOfRecord, Vector.getElem_ofFn, hlow, hhigh, Machine.joinWord_bytes]
  exact Vector.getElem_toList _

theorem decodeBytes_bytesOfRecord (order : ByteOrder) (w : Command) (rest : List Byte) :
    decodeBytes order (bytesOfRecord order w ++ rest) = .ok (decodeCommand w, rest) := by
  have hlen := length_bytesOfRecord order w
  have hroom : ¬ (bytesOfRecord order w ++ rest).length < 2 * Config.cmdWords := by
    rw [List.length_append, hlen]
    omega
  rw [decodeBytes, if_neg hroom, recordOfBytes_bytesOfRecord, ← hlen, List.drop_left]

/-! ### Every operation with an encoding -/

/-- Decoding inverts encoding, gathered from the cases of `Laws.DecodeEncode`. -/
theorem decode_of_encode {p : Params} {op : Instr} (hwf : op.wellFormed p = true) {e : Encoding}
    (he : encode op = some e) : decode e = op := by
  cases op
  case bltSkip0 => exact Laws.DecodeEncode.bltSkip0 p hwf e he
  case bltSkipg => exact Laws.DecodeEncode.bltSkipg _ _ _ _ p hwf e he
  case bltDirect => exact Laws.DecodeEncode.bltDirect _ _ _ _ _ _ _ _ _ _ p hwf e he
  case bltTmap => exact Laws.DecodeEncode.bltTmap _ _ _ _ _ _ _ _ _ _ _ p hwf e he
  case bltTmapc => exact Laws.DecodeEncode.bltTmapc _ _ _ _ _ _ _ _ _ _ _ p hwf e he
  case latchW => exact Laws.DecodeEncode.latchW _ _ _ p hwf e he
  case pbankW => exact Laws.DecodeEncode.pbankW _ p hwf e he
  case cflipW => exact Laws.DecodeEncode.cflipW _ p hwf e he
  case cbankW => exact Laws.DecodeEncode.cbankW _ p hwf e he
  case gfxlistW => exact Laws.DecodeEncode.gfxlistW _ p hwf e he
  case flipscrW => exact Laws.DecodeEncode.flipscrW _ p hwf e he
  case blitgoW => exact Laws.DecodeEncode.blitgoW _ p hwf e he
  case ramW => exact Laws.DecodeEncode.ramW _ _ p hwf e he
  case frameStart => exact Laws.DecodeEncode.frameStart p hwf e he
  case flush => exact Laws.DecodeEncode.flush _ p hwf e he
  case snapshot => exact Laws.DecodeEncode.snapshot _ p hwf e he
  case frameEnd => exact Laws.DecodeEncode.frameEnd p hwf e he
  -- sequencer steps and assembler lines have no encoding
  all_goals exact nomatch he

/-- Settles O1: a record through its bytes, an event as it stands. -/
theorem encodedOperationsDecodeBack : Obligations.EncodedOperationsDecodeBack := by
  unfold Obligations.EncodedOperationsDecodeBack
  intro p order op rest hwf
  refine ⟨fun w hw => ?_, fun e he => decode_of_encode (e := .event e) hwf he⟩
  have hop : decodeCommand w = op := decode_of_encode (e := .record w) hwf hw
  rw [decodeBytes_bytesOfRecord, hop]

/-! ### Every record and every event -/

theorem isDrawn_eq_true_iff {sw sh zx zy : Word} :
    isDrawn sw sh zx zy = true ↔
      ¬ isSentinel sw sh = true ∧ guardPasses sw sh zx zy = true := by
  simp [isDrawn]

/-- Every class but the two skips draws (R104). -/
theorem isDrawn_of_classify {sw sh zx zy : Word} (tm cond : Bool)
    (h0 : classify sw sh zx zy tm cond ≠ .skip0) (hg : classify sw sh zx zy tm cond ≠ .skipg) :
    isDrawn sw sh zx zy = true := by
  rw [ne_eq, Machine.classify_eq_skip0_iff] at h0
  rw [ne_eq, Machine.classify_eq_skipg_iff] at hg
  rw [isDrawn_eq_true_iff]
  exact ⟨h0, by_contra fun hpass => hg ⟨h0, hpass⟩⟩

/-- Whatever a record decodes to is well formed. -/
theorem wellFormed_decodeCommand (p : Params) (w : Command) :
    (decodeCommand w).wellFormed p = true := by
  unfold decodeCommand
  cases hc : classify w.sw w.sh w.zx w.zy w.tm w.cond with
  | skip0 => rfl
  | skipg =>
    have h := Machine.classify_eq_skipg_iff.1 hc
    simpa [Instr.wellFormed] using h
  | direct | tmap | tmapc => exact isDrawn_of_classify w.tm w.cond (by simp [hc]) (by simp [hc])

/-- Whatever a record decodes to has a record of its own. -/
theorem encode_decodeCommand (w : Command) : ∃ w', encode (decodeCommand w) = some (.record w') := by
  unfold decodeCommand
  cases classify w.sw w.sh w.zx w.zy w.tm w.cond <;> exact ⟨_, rfl⟩

/-- Settles O2: the operation's own encoding exists, and decodes back since the operation is well
formed. -/
theorem decodedOperationsEncode : Obligations.DecodedOperationsEncode := by
  unfold Obligations.DecodedOperationsEncode
  refine ⟨fun w => ?_, fun e => ?_⟩
  · obtain ⟨w', hw'⟩ := encode_decodeCommand w
    have hwf := wellFormed_decodeCommand Params.default w
    exact ⟨w', hw', decode_of_encode (e := .record w') hwf hw'⟩
  · cases e with
    | write port o d n =>
      cases port with
      | latch =>
        have hidx : Fin.ofNat 16 (Fin.ofNat 16 o).val = Fin.ofNat 16 o := Fin.ext (Nat.mod_mod o 16)
        exact ⟨_, rfl, congrArg (Instr.latchW · d n) hidx⟩
      | pbank | cflip | cbank | gfxlist | flipscr | blitgo | ram => exact ⟨_, rfl, rfl⟩
    | frameStart | flush | snapshot | frameEnd => exact ⟨_, rfl, rfl⟩

/-! ### The fields in number form -/

theorem extractLsb'_eq_ofNat_div (s n : Nat) (v : Word) :
    v.extractLsb' s n = BitVec.ofNat n (v.toNat / 2 ^ s) := by
  rw [BitVec.extractLsb', Nat.shiftRight_eq_div_pow]

theorem getLsbD_eq_decide (v : Word) (n : Nat) :
    v.getLsbD n = decide (v.toNat / 2 ^ n % 2 = 1) := by
  rw [BitVec.getLsbD, Nat.testBit_eq_decide_div_mod_eq]

/-- Decoding of a record as the ordered test of R104. -/
theorem decodeCommand_eq (w : Command) :
    decodeCommand w =
      if isSentinel w.sw w.sh = true then .bltSkip0
      else if ¬ guardPasses w.sw w.sh w.zx w.zy = true then .bltSkipg w.sw w.sh w.zx w.zy
      else if w.tm = false then .bltDirect w.code w.xi w.yi w.fx w.fy w.bank w.sw w.sh w.zx w.zy
      else if w.cond = false then
        .bltTmap w.xi w.yi w.fx w.fy w.bank w.sw w.sh w.spx w.spy w.zx w.zy
      else .bltTmapc w.xi w.yi w.fx w.fy w.bank w.sw w.sh w.spx w.spy w.zx w.zy := by
  unfold decodeCommand classify
  by_cases hs : isSentinel w.sw w.sh = true
  · simp [hs]
  · by_cases hg : guardPasses w.sw w.sh w.zx w.zy = true
    · cases htm : w.tm with
      | false => simp [hs, hg]
      | true => cases hcond : w.cond <;> simp [hs, hg]
    · simp [hs, hg]

/-- Settles O3: the ordered test is the model's own, its fields written as numbers. -/
theorem recordsClassify : Obligations.RecordsClassify := by
  unfold Obligations.RecordsClassify
  intro p w
  refine ⟨wellFormed_decodeCommand p w, ?_⟩
  have hsentinel : isSentinel w.sw w.sh = true ↔ w[6].toNat = 0 ∧ w[7].toNat = 0 := by
    rw [isSentinel_eq_true_iff, ← BitVec.toNat_inj, ← BitVec.toNat_inj]
    rfl
  have hguard : guardPasses w.sw w.sh w.zx w.zy = true ↔
      w[6].toNat < 512 ∧ w[7].toNat < 256 ∧ w[10].toNat < 0x1F0 ∧ w[13].toNat < 0x1F0 :=
    guardPasses_eq_true_iff
  have flag (n : Nat) : w[4].getLsbD n = decide (w[4].toNat / 2 ^ n % 2 = 1) :=
    getLsbD_eq_decide w[4] n
  have field (j : Fin 16) (n : Nat) : w[j].extractLsb' 4 n = BitVec.ofNat n (w[j].toNat / 16) :=
    extractLsb'_eq_ofNat_div 4 n w[j]
  have hbank : w.bank = BitVec.ofNat 7 w[5].toNat := by
    rw [Command.bank, extractLsb'_eq_ofNat_div, Nat.pow_zero, Nat.div_one]
  rw [decodeCommand_eq, show w.xi = _ from field 2 9, show w.yi = _ from field 3 9, hbank,
    show w.spx = _ from field 8 12, show w.spy = _ from field 9 12, show w.fx = _ from flag 0,
    show w.fy = _ from flag 1, show w.cond = _ from flag 2, show w.tm = _ from flag 3]
  simp only [hsentinel, hguard]
  rfl

/-! ### Ignored bits -/

/-- A field is unchanged by a mask that keeps all its bits. -/
theorem extractLsb'_congr {v v' m : Word} (s n : Nat) (h : v &&& m = v' &&& m)
    (hm : m.extractLsb' s n = BitVec.allOnes n) : v.extractLsb' s n = v'.extractLsb' s n := by
  have hx := congrArg (BitVec.extractLsb' s n) h
  simpa [BitVec.extractLsb'_and, hm] using hx

/-- A flag is unchanged by a mask that keeps its bit. -/
theorem getLsbD_congr {v v' m : Word} (n : Nat) (h : v &&& m = v' &&& m)
    (hm : m.getLsbD n = true) : v.getLsbD n = v'.getLsbD n := by
  have hx := congrArg (BitVec.getLsbD · n) h
  simpa [hm] using hx

theorem eq_of_and_allOnes {v v' : Word} (h : v &&& 0xFFFF#16 = v' &&& 0xFFFF#16) : v = v' := by
  rwa [show (0xFFFF#16 : Word) = BitVec.allOnes 16 from rfl, BitVec.and_allOnes,
    BitVec.and_allOnes] at h

/-- Two records that agree in the fields every class reads: all but W1, W8, W9 and the `cond` bit. -/
structure SameFields (w w' : Command) : Prop where
  xi : w.xi = w'.xi
  yi : w.yi = w'.yi
  fx : w.fx = w'.fx
  fy : w.fy = w'.fy
  tm : w.tm = w'.tm
  bank : w.bank = w'.bank
  sw : w.sw = w'.sw
  sh : w.sh = w'.sh
  zx : w.zx = w'.zx
  zy : w.zy = w'.zy

/-- The masks of those fields (R93), the `cond` bit left out. -/
theorem sameFields_of_masks {w w' : Command} (h2 : w[2] &&& 0x1FF0#16 = w'[2] &&& 0x1FF0#16)
    (h3 : w[3] &&& 0x1FF0#16 = w'[3] &&& 0x1FF0#16) {m : Word} (h4 : w[4] &&& m = w'[4] &&& m)
    (hm : m.getLsbD 0 = true ∧ m.getLsbD 1 = true ∧ m.getLsbD 3 = true)
    (h5 : w[5] &&& 0x007F#16 = w'[5] &&& 0x007F#16) (h6 : w[6] &&& 0xFFFF#16 = w'[6] &&& 0xFFFF#16)
    (h7 : w[7] &&& 0xFFFF#16 = w'[7] &&& 0xFFFF#16) (h10 : w[10] &&& 0xFFFF#16 = w'[10] &&& 0xFFFF#16)
    (h13 : w[13] &&& 0xFFFF#16 = w'[13] &&& 0xFFFF#16) : SameFields w w' where
  xi := extractLsb'_congr 4 9 h2 rfl
  yi := extractLsb'_congr 4 9 h3 rfl
  fx := getLsbD_congr 0 h4 hm.1
  fy := getLsbD_congr 1 h4 hm.2.1
  tm := getLsbD_congr 3 h4 hm.2.2
  bank := extractLsb'_congr 0 7 h5 rfl
  sw := eq_of_and_allOnes h6
  sh := eq_of_and_allOnes h7
  zx := eq_of_and_allOnes h10
  zy := eq_of_and_allOnes h13

/-- A record in direct mode decodes by those fields and its code. -/
theorem SameFields.decodeCommand_direct {w w' : Command} (h : SameFields w w') (htm : w.tm = false)
    (hcode : w.code = w'.code) : decodeCommand w = decodeCommand w' := by
  have htm' : w'.tm = false := h.tm ▸ htm
  rw [decodeCommand_eq, decodeCommand_eq, if_pos htm, if_pos htm', h.xi, h.yi, h.fx, h.fy, h.bank,
    h.sw, h.sh, h.zx, h.zy, hcode]

/-- A record in a tilemap mode decodes by those fields, its `cond` bit and its source position. -/
theorem SameFields.decodeCommand_tilemap {w w' : Command} (h : SameFields w w') (htm : w.tm = true)
    (hcond : w.cond = w'.cond) (hspx : w.spx = w'.spx) (hspy : w.spy = w'.spy) :
    decodeCommand w = decodeCommand w' := by
  have htm' : w'.tm = true := h.tm ▸ htm
  have hdirect : ¬ w.tm = false := by simp [htm]
  have hdirect' : ¬ w'.tm = false := by simp [htm']
  rw [decodeCommand_eq, decodeCommand_eq, if_neg hdirect, if_neg hdirect', h.xi, h.yi, h.fx, h.fy,
    h.bank, h.sw, h.sh, h.zx, h.zy, hcond, hspx, hspy]

/-- Settles O4: a mask keeps the bits of every field that its mode reads. -/
theorem ignoredBitsChangeNothing : Obligations.IgnoredBitsChangeNothing := by
  unfold Obligations.IgnoredBitsChangeNothing
  intro w w'
  refine ⟨fun h => ?_, fun htm h => ?_, fun htm h => ?_⟩
  · have hs : SameFields w w' := sameFields_of_masks (h 2) (h 3) (h 4) (by decide) (h 5) (h 6) (h 7)
      (h 10) (h 13)
    cases htm : w.tm with
    | false => exact hs.decodeCommand_direct htm (eq_of_and_allOnes (h 1))
    | true =>
      exact hs.decodeCommand_tilemap htm (getLsbD_congr 2 (h 4) rfl)
        (extractLsb'_congr 4 12 (h 8) rfl) (extractLsb'_congr 4 12 (h 9) rfl)
  · have hs : SameFields w w' := sameFields_of_masks (h 2) (h 3) (h 4) (by decide) (h 5) (h 6) (h 7)
      (h 10) (h 13)
    exact hs.decodeCommand_direct htm (eq_of_and_allOnes (h 1))
  · have hs : SameFields w w' := sameFields_of_masks (h 2) (h 3) (h 4) (by decide) (h 5) (h 6) (h 7)
      (h 10) (h 13)
    exact hs.decodeCommand_tilemap htm (getLsbD_congr 2 (h 4) rfl)
      (extractLsb'_congr 4 12 (h 8) rfl) (extractLsb'_congr 4 12 (h 9) rfl)

/-- Settles O5, by evaluating the decoder on the vectors' words. -/
theorem specWordsDecode : Obligations.SpecWordsDecode := by
  unfold Obligations.SpecWordsDecode
  decide

end Sys2Proof

/-! ## Host writes and frame bookkeeping on SLC (R120 to R123, R129 to R131) -/

namespace Sys2Proof.Machine

theorem nextLine_le_iff {u : Slc} {l : Nat} : nextLine u ≤ l ↔ u.cur < l := by
  unfold nextLine
  omega

/-- The line a latch write is clamped to (R121). -/
def clampedLine (p : Params) (n : Nat) : Nat := min n (p.screenH - 1)

/-- The lines a latch write materialises, by the cursor. -/
theorem tlRead_latchWrite_eq (p : Params) (idx : Fin 16) (v n : Nat) (u : Slc) (l : Nat) :
    tlRead (latchWrite p idx v n u) l =
      if u.cur < l ∧ l < clampedLine p n then u.latch else tlRead u l := by
  simp only [tlRead_latchWrite, nextLine_le_iff]
  rfl

/-- The lines a flush materialises, by the cursor. -/
theorem tlRead_flushLines_eq (t : Int) (u : Slc) (l : Nat) :
    tlRead (flushLines t u) l = if u.cur < l ∧ (l : Int) ≤ t then u.latch else tlRead u l := by
  simp only [tlRead_flushLines, nextLine_le_iff]

theorem latchWrite_cur_eq (p : Params) (idx : Fin 16) (v n : Nat) (u : Slc) :
    (latchWrite p idx v n u).cur = max u.cur ((clampedLine p n : Int) - 1) := rfl

theorem exec_latchW (idx : Fin 16) (v n : Nat) (s : State) :
    exec (.latchW idx v n) s = .next (onSlc (latchWrite s.cfg.params idx v n) s) := rfl

end Sys2Proof.Machine

namespace Sys2Proof

open Machine

/-- Settles O17. -/
theorem latchWrite : Obligations.LatchWrite := by
  unfold Obligations.LatchWrite
  intro idx v n s
  refine ⟨_, exec_latchW idx v n s, fun j => ?_, rfl,
    tlRead_latchWrite_eq s.cfg.params idx v n s.slc, rfl⟩
  rw [onSlc_slc, latch_latchWrite]
  by_cases h : j = idx
  · rw [if_pos h.symm, if_pos h, BitVec.toNat_ofNat]
  · rw [if_neg (Ne.symm h), if_neg h]

end Sys2Proof

namespace Sys2Proof.Machine

/-- Settles O18: each write is the model's equation, its low bits as a remainder. -/
theorem controlRegisterWrites : Obligations.ControlRegisterWrites := by
  unfold Obligations.ControlRegisterWrites
  intro v s
  have hbit : v.testBit 0 = decide (v % 2 = 1) := Nat.testBit_zero v
  have hword : BitVec.ofNat 16 v = BitVec.ofNat 16 (v % 65536) :=
    BitVec.eq_of_toNat_eq (by simp only [BitVec.toNat_ofNat]; omega)
  refine ⟨rfl, ?_, ?_, ?_⟩
  · rw [← hbit]; rfl
  · rw [← hword]; rfl
  · rw [← hbit]; rfl

/-- Settles O20. -/
theorem frameStart : Obligations.FrameStart := by
  unfold Obligations.FrameStart
  intro s
  refine ⟨fun hclosed => ?_, fun hopen => if_pos hopen⟩
  exact if_neg (by simp [hclosed])

/-- Settles O22. -/
theorem snapshotResult : Obligations.SnapshotResult := by
  unfold Obligations.SnapshotResult
  exact fun l s => ⟨fun h => if_pos h, fun h => if_neg (Int.not_le.2 h)⟩

/-! ### FLUSH -/

theorem exec_flush_of_le {t : Int} {s : State} (h : s.slc.cur ≤ flushTarget s.cfg.params t) :
    exec (.flush t) s = .next (onSlc (flushLines (flushTarget s.cfg.params t)) s) :=
  if_neg (Int.not_lt.2 h)

theorem flushTarget_all (p : Params) : flushTarget p (-1) = (p.screenH : Int) - 1 := rfl

/-- FLUSH.ALL with the cursor inside the frame. -/
theorem exec_flushAll {s : State} (h : s.slc.cur ≤ (s.cfg.params.screenH : Int) - 1) :
    exec .flushAll s = .next (onSlc (flushLines ((s.cfg.params.screenH : Int) - 1)) s) :=
  exec_flush_of_le h

/-- Settles O21. -/
theorem flushResult : Obligations.FlushResult := by
  unfold Obligations.FlushResult
  intro t s _
  exact ⟨fun h => ⟨_, exec_flush_of_le h, rfl, tlRead_flushLines_eq _ s.slc, rfl⟩,
    fun h => if_pos h, rfl, fun h => ⟨_, exec_flushAll h, rfl⟩⟩

/-! ### LATCH.LAYER -/

/-- A second latch write on the same line, or on an earlier one, materialises nothing. -/
theorem tlRead_latchWrite_of_reached {p : Params} {n : Nat} {u : Slc}
    (h : (clampedLine p n : Int) - 1 ≤ u.cur) (idx : Fin 16) (v l : Nat) :
    tlRead (latchWrite p idx v n u) l = tlRead u l := by
  rw [tlRead_latchWrite_eq, if_neg]
  omega

/-- The MIX byte of a line: the stop preset above the start preset (R23, R110). -/
theorem stop_shiftLeft_or_start {start stop : Nat} (h : start < 16) :
    stop <<< 4 ||| start = 16 * stop + start := by
  rw [← Nat.shiftLeft_add_eq_or_of_lt (by simpa using h), Nat.shiftLeft_eq]
  omega

/-- Settles O60: three latch writes on one line, of which the first alone materialises lines. -/
theorem latchLayerLine : Obligations.LatchLayerLine := by
  unfold Obligations.LatchLayerLine
  intro k xoff ysel start stop n s hxoff hysel hstart hstop
  let p := s.cfg.params
  let u1 := Machine.latchWrite p (Fin.ofNat 16 k.val) xoff n s.slc
  let u2 := Machine.latchWrite p (Fin.ofNat 16 (4 + k.val)) ysel n u1
  let u3 := Machine.latchWrite p (Fin.ofNat 16 (8 + k.val)) (stop <<< 4 ||| start) n u2
  have hcur1 : u1.cur = max s.slc.cur ((clampedLine p n : Int) - 1) := rfl
  have hcur2 : u2.cur = u1.cur := by
    rw [show u2.cur = max u1.cur ((clampedLine p n : Int) - 1) from rfl, hcur1]
    omega
  have hcur3 : u3.cur = u2.cur := by
    rw [show u3.cur = max u2.cur ((clampedLine p n : Int) - 1) from rfl, hcur2, hcur1]
    omega
  refine ⟨{ s with slc := u3 }, rfl, fun j => ?_, ?_, fun l => ?_, rfl⟩
  · have hx : (BitVec.ofNat 8 xoff).toNat = xoff := Nat.mod_eq_of_lt hxoff
    have hy : (BitVec.ofNat 8 ysel).toNat = ysel := Nat.mod_eq_of_lt hysel
    have hmix : (BitVec.ofNat 8 (stop <<< 4 ||| start)).toNat = 16 * stop + start := by
      rw [stop_shiftLeft_or_start hstart, BitVec.toNat_ofNat]
      omega
    have hk := k.isLt
    simp only [u3, u2, u1, latch_latchWrite, Fin.ext_iff, Fin.val_ofNat]
    rw [Nat.mod_eq_of_lt (by omega : k.val < 16), Nat.mod_eq_of_lt (by omega : 4 + k.val < 16),
      Nat.mod_eq_of_lt (by omega : 8 + k.val < 16)]
    grind
  · exact hcur3.trans (hcur2.trans hcur1)
  · have h2 : tlRead u2 l = tlRead u1 l := tlRead_latchWrite_of_reached (by omega) _ _ l
    have h3 : tlRead u3 l = tlRead u2 l := tlRead_latchWrite_of_reached (by omega) _ _ l
    exact h3.trans (h2.trans (tlRead_latchWrite_eq ..))

/-! ### The timeline of a frame (R133, R136)

What matters of TL and L together is the snapshot that each line would have if the host flushed now:
a flush does not change it, and a latch write changes it from its own line on. -/

/-- The snapshot line `l` has once everything is flushed. -/
def flushedLine (u : Slc) (l : Nat) : Latches := if (l : Int) ≤ u.cur then tlRead u l else u.latch

theorem tlRead_flushLines_eq_flushedLine {t : Int} {u : Slc} {l : Nat} (h : (l : Int) ≤ t) :
    tlRead (flushLines t u) l = flushedLine u l := by
  rw [tlRead_flushLines_eq, flushedLine]
  by_cases hl : (l : Int) ≤ u.cur
  · rw [if_pos hl, if_neg (by omega)]
  · rw [if_neg hl, if_pos (by omega)]

theorem flushedLine_flushLines {t : Int} {u : Slc} (h : u.cur ≤ t) (l : Nat) :
    flushedLine (flushLines t u) l = flushedLine u l := by
  rw [flushedLine, flushLines_cur, flushLines_latch]
  by_cases hl : (l : Int) ≤ t
  · rw [if_pos hl, tlRead_flushLines_eq_flushedLine hl]
  · rw [if_neg hl, flushedLine, if_neg (by omega)]

/-- A latch write changes the lines from its own on that no flush has passed. -/
theorem flushedLine_latchWrite_eq (p : Params) (idx : Fin 16) (v n : Nat) (u : Slc) (l : Nat) :
    flushedLine (latchWrite p idx v n u) l =
      if clampedLine p n ≤ l ∧ u.cur < l then u.latch.set idx (BitVec.ofNat 8 v)
      else flushedLine u l := by
  rw [flushedLine, flushedLine, tlRead_latchWrite_eq, latchWrite_cur_eq, latchWrite_latch]
  by_cases hread : (l : Int) ≤ u.cur
  · rw [if_pos (by omega), if_neg (by omega), if_neg (by omega), if_pos hread]
  · by_cases hbefore : l < clampedLine p n
    · rw [if_pos (by omega), if_pos (by omega), if_neg (by omega), if_neg hread]
    · rw [if_neg (by omega), if_pos (by omega)]

/-- Of those lines' registers it changes its own. -/
theorem flushedLine_latchWrite (p : Params) (idx j : Fin 16) (v n : Nat) (u : Slc) (l : Nat) :
    (flushedLine (latchWrite p idx v n u) l)[j] =
      if idx = j ∧ clampedLine p n ≤ l ∧ u.cur < l then BitVec.ofNat 8 v
      else (flushedLine u l)[j] := by
  rw [flushedLine_latchWrite_eq]
  by_cases hlater : clampedLine p n ≤ l ∧ u.cur < l
  · have hold : flushedLine u l = u.latch := if_neg (by omega)
    rw [if_pos hlater, hold, set_get_fin]
    exact if_congr ⟨fun h => ⟨h, hlater⟩, And.left⟩ rfl rfl
  · rw [if_neg hlater, if_neg fun h => hlater h.2]

/-! #### One event -/

/-- An event that writes a latch is that LATCH.W. -/
theorem decodeEvent_of_latchWriteOf {e : Event} {a : Fin 16 × Nat × Nat}
    (h : latchWriteOf e = some a) : decodeEvent e = .latchW a.1 a.2.1 a.2.2 := by
  unfold latchWriteOf at h
  split at h
  · cases h; rfl
  all_goals cases h

theorem exec_of_latchWriteOf {e : Event} {a : Fin 16 × Nat × Nat} (h : latchWriteOf e = some a)
    (s : State) :
    exec (decodeEvent e) s = .next (onSlc (latchWrite s.cfg.params a.1 a.2.1 a.2.2) s) := by
  rw [decodeEvent_of_latchWriteOf h, exec_latchW]

/-- Every other event inside a frame leaves the snapshots a flush would give. -/
theorem exec_keeps_flushedLine {e : Event} {s t : State} (hnone : latchWriteOf e = none)
    (hstart : e ≠ .frameStart) (hend : e ≠ .frameEnd) (h : exec (decodeEvent e) s = .next t) :
    t.cfg = s.cfg ∧ flushedLine t.slc = flushedLine s.slc := by
  cases e with
  | frameStart => exact absurd rfl hstart
  | frameEnd => exact absurd rfl hend
  | flush n =>
    obtain ⟨hle, rfl⟩ := execFlush_eq_next.1 h
    exact ⟨rfl, funext (flushedLine_flushLines hle)⟩
  | snapshot l =>
    change execSnapshot l s = _ at h
    unfold execSnapshot at h
    split at h
    · cases h; exact ⟨rfl, rfl⟩
    · cases h
  | write port o d n =>
    cases port with
    | latch => cases hnone
    | ram =>
      change execRamW o d s = _ at h
      unfold execRamW at h
      split at h
      · cases h; exact ⟨rfl, rfl⟩
      · cases h
    | pbank | cflip | cbank | gfxlist | flipscr | blitgo => cases h; exact ⟨rfl, rfl⟩

/-! #### The staircase -/

/-- A register of a line's snapshot keeps its value through events that write it on later lines only. -/
theorem runEvents_keeps_register {es : List Event} {s t : State} {idx : Fin 16} {l : Nat}
    (hes : ∀ e ∈ es, e ≠ .frameStart ∧ e ≠ .frameEnd ∧
      ∀ d n, decodeEvent e = .latchW idx d n → l < clampedLine s.cfg.params n)
    (h : runEvents es s = .next t) :
    t.cfg = s.cfg ∧ (flushedLine t.slc l)[idx] = (flushedLine s.slc l)[idx] := by
  refine forEach_keeps
    (fun t => t.cfg = s.cfg ∧ (flushedLine t.slc l)[idx] = (flushedLine s.slc l)[idx])
    (fun e he a b ha hab => ?_) ⟨rfl, rfl⟩ h
  obtain ⟨hstart, hend, hlater⟩ := hes e he
  obtain ⟨hcfg, hreg⟩ := ha
  cases hw : latchWriteOf e with
  | none =>
    obtain ⟨hcfg', hline⟩ := exec_keeps_flushedLine hw hstart hend hab
    exact ⟨hcfg'.trans hcfg, by rw [hline, hreg]⟩
  | some w =>
    rw [exec_of_latchWriteOf hw] at hab
    cases hab
    refine ⟨hcfg, ?_⟩
    rw [onSlc_slc, flushedLine_latchWrite, if_neg, hreg]
    rintro ⟨rfl, hle, -⟩
    have := hlater w.2.1 w.2.2 (decodeEvent_of_latchWriteOf hw)
    rw [hcfg] at hle
    omega

/-- A FLUSH.ALL that completes gives every line of the frame its snapshot. -/
theorem exec_flushAll_eq_next {s t : State} (h : exec .flushAll s = .next t) :
    t.slc.cur = (s.cfg.params.screenH : Int) - 1 ∧
      ∀ l : Nat, l < s.cfg.params.screenH → tlRead t.slc l = flushedLine s.slc l := by
  obtain ⟨-, rfl⟩ := execFlush_eq_next.1 h
  exact ⟨rfl, fun l hl => tlRead_flushLines_eq_flushedLine (by rw [flushTarget_all]; omega)⟩

/-- Settles O24: the value is there after the write, the events keep it, and the flush shows it. -/
theorem staircaseLaw : Obligations.StaircaseLaw := by
  unfold Obligations.StaircaseLaw
  intro s t idx v line count es hcur hroom hes h l hl hl'
  rw [exec_latchW, andThen_next, andThen_eq_next] at h
  obtain ⟨s2, hrun, hflush⟩ := h
  have hline : clampedLine s.cfg.params line = line := by unfold clampedLine; omega
  obtain ⟨hcfg, hkept⟩ := runEvents_keeps_register (l := l) (idx := idx) (fun e he => by
    obtain ⟨hstart, hend, hlater⟩ := hes e he
    exact ⟨hstart, hend, fun d n hd => lt_of_le_of_lt hl' (hlater d n hd)⟩) hrun
  obtain ⟨-, hshown⟩ := exec_flushAll_eq_next hflush
  rw [hshown l (by rw [hcfg, onSlc_cfg]; omega), hkept, onSlc_slc, flushedLine_latchWrite, if_pos]
  exact ⟨rfl, by omega, by omega⟩

/-! #### The closed form -/

/-- Whether a latch write is to a register on the lines up to `l`. -/
def writesBy (p : Params) (idx : Fin 16) (l : Nat) (a : Fin 16 × Nat × Nat) : Bool :=
  decide (a.1 = idx ∧ clampedLine p a.2.2 ≤ l)

/-- The last write to a register on the lines up to `l`, or what the register held before (R136). -/
def lastWrite (p : Params) (idx : Fin 16) (l : Nat) (ws : List (Fin 16 × Nat × Nat)) (old : Byte) :
    Byte :=
  ((ws.filter (writesBy p idx l)).getLast?.map fun a => BitVec.ofNat 8 a.2.1).getD old

theorem lastWrite_cons (p : Params) (idx : Fin 16) (l : Nat) (w : Fin 16 × Nat × Nat)
    (ws : List (Fin 16 × Nat × Nat)) (old : Byte) :
    lastWrite p idx l (w :: ws) old =
      lastWrite p idx l ws
        (if w.1 = idx ∧ clampedLine p w.2.2 ≤ l then BitVec.ofNat 8 w.2.1 else old) := by
  unfold lastWrite
  by_cases h : w.1 = idx ∧ clampedLine p w.2.2 ≤ l
  · rw [List.filter_cons_of_pos (p := writesBy p idx l) (decide_eq_true h), if_pos h,
      List.getLast?_cons]
    cases (ws.filter _).getLast? <;> rfl
  · rw [List.filter_cons_of_neg (p := writesBy p idx l) fun hd => h (of_decide_eq_true hd), if_neg h]

/-- A run in which every latch write is ahead of the cursor: each register of each line is that of the
last write. -/
theorem runEvents_flushedLine {es : List Event} {s t : State}
    (hes : ∀ e ∈ es, e ≠ .frameStart ∧ e ≠ .frameEnd) (hahead : latchesAhead es s)
    (h : runEvents es s = .next t) :
    t.cfg = s.cfg ∧ ∀ (l : Nat) (idx : Fin 16), (flushedLine t.slc l)[idx] =
      lastWrite s.cfg.params idx l (es.filterMap latchWriteOf) (flushedLine s.slc l)[idx] := by
  induction es generalizing s with
  | nil => cases h; exact ⟨rfl, fun _ _ => rfl⟩
  | cons e es ih =>
    obtain ⟨hfirst, hrest⟩ := hahead
    obtain ⟨s1, h1, h2⟩ := andThen_eq_next.1 h
    change exec (decodeEvent e) s = .next s1 at h1
    obtain ⟨hcfg, hlast⟩ := ih (fun e he => hes e (List.mem_cons_of_mem _ he)) (hrest s1 h1) h2
    cases hw : latchWriteOf e with
    | none =>
      obtain ⟨hstart, hend⟩ := hes e (List.mem_cons_self ..)
      obtain ⟨hcfg1, hline⟩ := exec_keeps_flushedLine hw hstart hend h1
      refine ⟨hcfg.trans hcfg1, fun l idx => ?_⟩
      rw [List.filterMap_cons_none hw, hlast, hcfg1, hline]
    | some w =>
      rw [exec_of_latchWriteOf hw] at h1
      cases h1
      refine ⟨hcfg, fun l idx => ?_⟩
      have hlater : clampedLine s.cfg.params w.2.2 ≤ l → s.slc.cur < l := by
        intro hle
        have : s.slc.cur < (clampedLine s.cfg.params w.2.2 : Nat) := hfirst w hw
        omega
      rw [List.filterMap_cons_some hw, lastWrite_cons, hlast, onSlc_slc, onSlc_cfg,
        flushedLine_latchWrite]
      congr 1
      refine if_congr ⟨fun hc => ⟨hc.1, hc.2.1⟩, fun hc => ⟨hc.1, hc.2, hlater hc.2⟩⟩ rfl rfl

/-- A well-formed port write completes inside the frame, and passes no line that is not before its
own. -/
theorem exec_portWrite {e : Event} {s : State} (hport : isPortWrite e = true)
    (hwf : (decodeEvent e).wellFormed s.cfg.params = true)
    (hcur : s.slc.cur ≤ (s.cfg.params.screenH : Int) - 1) :
    ∃ t, exec (decodeEvent e) s = .next t ∧ t.cfg = s.cfg ∧
      t.slc.cur ≤ (s.cfg.params.screenH : Int) - 1 ∧
      ∀ n, (∀ w, latchWriteOf e = some w → w.2.2 ≤ n) →
        s.slc.cur < (clampedLine s.cfg.params n : Nat) →
        t.slc.cur < (clampedLine s.cfg.params n : Nat) := by
  cases e with
  | frameStart | flush | snapshot | frameEnd => cases hport
  | write port o d n =>
    cases port with
    | latch =>
      refine ⟨_, exec_latchW .., rfl, ?_, fun m hm hlt => ?_⟩
      · rw [onSlc_slc, latchWrite_cur_eq]
        unfold clampedLine
        omega
      · have hle : n ≤ m := hm _ rfl
        rw [onSlc_slc, latchWrite_cur_eq]
        unfold clampedLine at hlt ⊢
        omega
    | ram => exact ⟨_, if_pos (of_decide_eq_true hwf), rfl, hcur, fun _ _ hlt => hlt⟩
    | pbank | cflip | cbank | gfxlist | flipscr | blitgo =>
      exact ⟨_, rfl, rfl, hcur, fun _ _ hlt => hlt⟩

/-- Port writes whose latch writes come in line order, all ahead of the cursor: each stays ahead of it,
and the run completes inside the frame. -/
theorem latchesAhead_of_sorted {es : List Event} {s : State}
    (hport : ∀ e ∈ es, isPortWrite e = true ∧ (decodeEvent e).wellFormed s.cfg.params = true)
    (hsorted : (es.filterMap latchWriteOf).Pairwise (fun a b => a.2.2 ≤ b.2.2))
    (hcur : s.slc.cur ≤ (s.cfg.params.screenH : Int) - 1)
    (hahead : ∀ a ∈ es.filterMap latchWriteOf, s.slc.cur < (clampedLine s.cfg.params a.2.2 : Nat)) :
    latchesAhead es s ∧ ∃ t, runEvents es s = .next t ∧ t.cfg = s.cfg ∧
      t.slc.cur ≤ (s.cfg.params.screenH : Int) - 1 := by
  induction es generalizing s with
  | nil => exact ⟨trivial, s, rfl, rfl, hcur⟩
  | cons e es ih =>
    obtain ⟨hporte, hwfe⟩ := hport e (List.mem_cons_self ..)
    obtain ⟨s1, h1, hcfg, hcur1, hpass⟩ := exec_portWrite hporte hwfe hcur
    have hrestOf : ∀ a ∈ es.filterMap latchWriteOf, a ∈ (e :: es).filterMap latchWriteOf :=
      fun a ha => ((List.sublist_cons_self e es).filterMap latchWriteOf).subset ha
    have hahead1 : ∀ a ∈ es.filterMap latchWriteOf,
        s1.slc.cur < (clampedLine s.cfg.params a.2.2 : Nat) := fun a ha =>
      hpass a.2.2 (fun w hw => by
        rw [List.filterMap_cons_some hw] at hsorted
        exact (List.pairwise_cons.1 hsorted).1 a ha) (hahead a (hrestOf a ha))
    obtain ⟨hrest, t, hrun, hcfg', hcur'⟩ := ih (s := s1)
      (fun e he => hcfg ▸ hport e (List.mem_cons_of_mem _ he))
      (hsorted.sublist ((List.sublist_cons_self e es).filterMap latchWriteOf))
      (hcfg ▸ hcur1) (hcfg ▸ hahead1)
    refine ⟨⟨fun a ha => ?_, fun s1' h1' => ?_⟩, t, andThen_eq_next.2 ⟨s1, h1, hrun⟩,
      hcfg'.trans hcfg, hcfg ▸ hcur'⟩
    · exact hahead a (List.mem_filterMap.2 ⟨e, List.mem_cons_self .., ha⟩)
    · cases h1.symm.trans h1'
      exact hrest

/-- The state FRAME.START leaves (R129). -/
def frameOpened (s : State) : State := { s with slc := { s.slc with cur := -1, inframe := true } }

theorem exec_frameStart {s : State} (h : s.slc.inframe = false) :
    exec .frameStart s = .next (frameOpened s) := (frameStart s).1 h

/-- Right after FRAME.START every line would take the latches. -/
theorem flushedLine_frameOpened (s : State) (l : Nat) :
    flushedLine (frameOpened s).slc l = s.slc.latch := if_neg (by show ¬ (l : Int) ≤ -1; omega)

/-- Settles O25: the run's closed form from FRAME.START on, and the sorted frames. -/
theorem timelineClosedForm : Obligations.TimelineClosedForm := by
  unfold Obligations.TimelineClosedForm
  intro s es hclosed
  refine ⟨fun hes hahead t h => ?_, fun hport hsorted => ?_⟩
  · rw [exec_frameStart hclosed, andThen_next, andThen_eq_next] at h
    obtain ⟨s2, hrun, hflush⟩ := h
    obtain ⟨hcfg, hlast⟩ := runEvents_flushedLine (s := frameOpened s) hes hahead hrun
    obtain ⟨hcur, hshown⟩ := exec_flushAll_eq_next hflush
    rw [hcfg] at hcur hshown
    refine ⟨hcur, fun l idx hl => ?_⟩
    rw [hshown l hl, hlast, flushedLine_frameOpened]
    rfl
  · obtain ⟨hahead, s2, hrun, hcfg, hcur⟩ := latchesAhead_of_sorted (s := frameOpened s) hport hsorted
      (by show (-1 : Int) ≤ _; omega) (fun a _ => by show (-1 : Int) < _; omega)
    rw [exec_frameStart hclosed, andThen_next, hrun, andThen_next]
    exact ⟨hahead, _, exec_flushAll (hcfg ▸ hcur)⟩

/-! ### Steps and reset -/

/-- Settles O6. -/
theorem stepRunsOldestEvent : Obligations.StepRunsOldestEvent := by
  unfold Obligations.StepRunsOldestEvent
  refine fun s => ⟨fun e rest hwf htrace _ => ?_, fun hwf htrace => ?_, fun hwf => ?_⟩
  · rw [step_cons hwf htrace, takeEvent, htrace]
    rfl
  · exact step_eq_next.2 ⟨hwf, .inl ⟨htrace, rfl⟩⟩
  · exact if_neg (by simp [hwf])

/-- Settles O8. -/
theorem resetState : Obligations.ResetState := by
  unfold Obligations.ResetState
  exact ⟨rfl, rfl, rfl, rfl, rfl⟩

theorem boardWf_default : boardWf Board.default = true := by
  have hparams : Params.default.wf = true := by decide
  have hpalette : Board.default.palette.length = Params.default.palSize := List.length_replicate
  have hpalette' : (Board.default.palette.length == Params.default.palSize) = true := by
    rw [hpalette, beq_self_eq_true]
  unfold boardWf
  rw [show Board.default.params = Params.default from rfl, hparams, hpalette']
  rfl

/-- Settles O9: the registers are zero and the memories empty. -/
theorem resetInvariant : Obligations.ResetInvariant := by
  unfold Obligations.ResetInvariant
  exact ⟨boardWf_default, by decide, rfl, rfl, rfl⟩

end Sys2Proof.Machine

/-! ## The compositor's steps (R141 to R149)

Each step in number form. -/

namespace Sys2Proof.Machine

/-! ### LINE.INIT -/

theorem toNat_startPreset (snap : Latches) (k : Fin 4) :
    (startPreset snap k).toNat = (mixOf snap k).toNat % 16 := by
  simp only [startPreset, BitVec.toNat_setWidth, BitVec.extractLsb'_toNat, Nat.shiftRight_zero]
  omega

theorem toNat_stopPreset (snap : Latches) (k : Fin 4) :
    (stopPreset snap k).toNat = (mixOf snap k).toNat / 16 := by
  have := (mixOf snap k).isLt
  simp only [stopPreset, BitVec.toNat_setWidth, BitVec.extractLsb'_toNat,
    Nat.shiftRight_eq_div_pow]
  omega

theorem lineLoad_xc_get (y : Nat) (snap : Latches) (u : Slc) (k : Fin 4) :
    (lineLoad y snap u).xc[k] = xoffOf snap k := by simp

theorem lineLoad_row_get (y : Nat) (snap : Latches) (u : Slc) (k : Fin 4) :
    (lineLoad y snap u).row[k] = yselOf snap k := by simp

theorem lineLoad_st_get (y : Nat) (snap : Latches) (u : Slc) (k : Fin 4) :
    (lineLoad y snap u).st[k] = startPreset snap k := by simp

theorem lineLoad_sp_get (y : Nat) (snap : Latches) (u : Slc) (k : Fin 4) :
    (lineLoad y snap u).sp[k] = stopPreset snap k := by simp

theorem exec_lineInit_of_le {y : Nat} {s : State} (h : (y : Int) ≤ s.slc.cur) :
    exec (.lineInit y) s = .next (onSlc (lineLoad y (tlRead s.slc y)) s) := if_pos h

/-- Settles O27. -/
theorem lineInit : Obligations.LineInit := by
  unfold Obligations.LineInit
  refine fun y s => ⟨fun h => ?_, fun h => if_neg (Int.not_le.2 h)⟩
  refine ⟨_, exec_lineInit_of_le h, rfl, rfl, fun k => ⟨?_, ?_, ?_, ?_⟩, rfl⟩
  · exact lineLoad_xc_get y (tlRead s.slc y) s.slc k
  · exact lineLoad_row_get y (tlRead s.slc y) s.slc k
  · rw [onSlc_slc, lineLoad_st_get]
    exact toNat_startPreset (tlRead s.slc y) k
  · rw [onSlc_slc, lineLoad_sp_get]
    exact toNat_stopPreset (tlRead s.slc y) k

/-! ### The enable -/

/-- The enable is the difference of the two counters' top bits (R142). -/
theorem layerEnabled_eq (st sp : BitVec 5) :
    layerEnabled st sp = decide (st.toNat / 16 ≠ sp.toNat / 16) := by
  have hst := st.isLt
  have hsp := sp.isLt
  have bit4 : layerEnabled st sp = (st.getLsbD 4 ^^ sp.getLsbD 4) := by
    rw [layerEnabled, show (0x10#5) = BitVec.twoPow 5 4 from rfl, BitVec.and_twoPow,
      BitVec.getLsbD_xor]
    cases st.getLsbD 4 ^^ sp.getLsbD 4 <;> rfl
  have top (v : BitVec 5) : v.getLsbD 4 = decide (v.toNat / 16 = 1) := by
    have := v.isLt
    rw [BitVec.getLsbD, Nat.testBit_eq_decide_div_mod_eq]
    exact decide_eq_decide.2 (by omega)
  rw [bit4, top, top, Bool.eq_iff_iff]
  simp only [bne_iff_ne, ne_eq, decide_eq_true_eq, decide_eq_decide]
  omega

/-- The enable as R153 writes it, between counters of five bits. -/
theorem layerEnabled_eq_windowAt {st sp : BitVec 5} {s0 t0 c : Nat} (hst : st.toNat = (s0 + c) % 32)
    (hsp : sp.toNat = (t0 + c) % 32) : layerEnabled st sp = windowAt s0 t0 c := by
  rw [layerEnabled_eq, windowAt, hst, hsp, Bool.eq_iff_iff, decide_eq_true_eq, bne_iff_ne]
  omega

/-- Settles O28. -/
theorem layerEnable : Obligations.LayerEnable := by
  unfold Obligations.LayerEnable
  intro k s
  rw [← layerEnabled_eq]
  rfl

/-! ### LAYER.FETCH -/

/-- A layer's contribution as a number: the pixel in its lane, the flag at its bit (R101). -/
theorem toNat_rawOf : ∀ (k : Fin 4) (px : BitVec 2),
    (rawOf k px).toNat = px.toNat * 4 ^ k.val + if px.toNat = 0 then 0 else 2 ^ (8 + k.val) := by
  decide

theorem bgPlace_eq (p : Params) (k : Fin 4) (r c : Byte) :
    bgPlace p k r c = p.bgRows * p.bgCols * k.val + p.bgCols * r.toNat + c.toNat := by
  unfold bgPlace
  ring

/-- Settles O29. -/
theorem layerFetch : Obligations.LayerFetch := by
  unfold Obligations.LayerFetch
  intro k s
  refine ⟨onSlc (layerRaw s.cfg k) s, rfl, fun j => ?_, rfl⟩
  rw [onSlc_slc, layerRaw_raw, set_get_fin]
  by_cases hj : j = k
  · subst hj
    rw [if_pos rfl, if_pos rfl, layerOn, layerEnabled_eq, ← bgPlace_eq]
    simp only [decide_eq_true_eq]
    split
    · exact toNat_rawOf j _
    · rfl
  · rw [if_neg (Ne.symm hj), if_neg hj]

/-! ### MIX.LOOKUP and PAL -/

theorem toNat_mixIndex (acc : Word) : (mixIndex acc).toNat = acc.toNat / 256 := by
  have := acc.isLt
  rw [mixIndex, BitVec.extractLsb'_toNat, Nat.shiftRight_eq_div_pow]
  omega

theorem toNat_lookupOf (entry : Byte) : (lookupOf entry).toNat = entry.toNat % 4 := by
  rw [lookupOf, BitVec.extractLsb'_toNat, Nat.shiftRight_zero]

/-- Settles O31. -/
theorem mixLookup : Obligations.MixLookup := by
  unfold Obligations.MixLookup
  refine fun s => ⟨onSlc (mixSelect s.cfg) s, rfl, ?_, rfl⟩
  rw [onSlc_slc, mixSelect_lookup, toNat_lookupOf]
  simp only [mixEntry, toNat_mixIndex]

theorem penOf_eq (pbank : Nat) (c : BitVec 4) : penOf pbank c = pbank * 16 + c.toNat := by
  rw [penOf, ← Nat.shiftLeft_add_eq_or_of_lt c.isLt, Nat.shiftLeft_eq]

/-- Settles O33. -/
theorem paletteResolve : Obligations.PaletteResolve := by
  unfold Obligations.PaletteResolve
  refine fun s => ⟨onSlc emitPen s, rfl, penOf_eq _ _, fun y p => ?_, rfl⟩
  rw [outRead, onSlc_slc, emitPen_out, gridRead_gridWrite]
  exact if_congr (and_congr eq_comm eq_comm) rfl rfl

/-! ### The counter steps -/

theorem clockFwd_iff {x : Byte} : clockFwd x = true ↔ x.toNat % 32 = 0 := by
  rw [clockFwd, beq_iff_eq, ← BitVec.toNat_inj, BitVec.extractLsb'_toNat, Nat.shiftRight_zero]
  rfl

theorem clockRev_iff {x : Byte} : clockRev x = true ↔ x.toNat % 32 = 31 := by
  rw [clockRev, beq_iff_eq, ← BitVec.toNat_inj, BitVec.extractLsb'_toNat, Nat.shiftRight_zero]
  rfl

theorem stepTo_xc_get (k j : Fin 4) (x : Byte) (clocked : Bool) (u : Slc) :
    (stepTo k x clocked u).xc[j] = if k = j then x else u.xc[j] := set_get_fin u.xc k j x

theorem stepTo_st_get (k j : Fin 4) (x : Byte) (clocked : Bool) (u : Slc) :
    (stepTo k x clocked u).st[j] = if k = j ∧ clocked = true then u.st[j] + 1 else u.st[j] :=
  clocked_get u.st k j clocked

theorem stepTo_sp_get (k j : Fin 4) (x : Byte) (clocked : Bool) (u : Slc) :
    (stepTo k x clocked u).sp[j] = if k = j ∧ clocked = true then u.sp[j] + 1 else u.sp[j] :=
  clocked_get u.sp k j clocked

/-- A step of layer `k`, seen from layer `j`, in numbers. -/
theorem stepTo_toNat (k j : Fin 4) (x : Byte) (clocked : Bool) (u : Slc) :
    (stepTo k x clocked u).xc[j].toNat = (if j = k then x.toNat else u.xc[j].toNat) ∧
    (stepTo k x clocked u).st[j].toNat =
      (if j = k ∧ clocked = true then (u.st[j].toNat + 1) % 32 else u.st[j].toNat) ∧
    (stepTo k x clocked u).sp[j].toNat =
      (if j = k ∧ clocked = true then (u.sp[j].toNat + 1) % 32 else u.sp[j].toNat) := by
  rw [stepTo_xc_get, stepTo_st_get, stepTo_sp_get, apply_ite BitVec.toNat, apply_ite BitVec.toNat,
    apply_ite BitVec.toNat, BitVec.toNat_add, BitVec.toNat_add]
  simp only [eq_comm (a := k)]
  exact ⟨trivial, rfl, rfl⟩

end Sys2Proof.Machine

namespace Sys2Proof

open Machine

/-- Settles O34. -/
theorem stepForward : Obligations.StepForward := by
  unfold Obligations.StepForward
  intro k s
  have hx : (s.slc.xc[k] + 1).toNat = (s.slc.xc[k].toNat + 1) % 256 := BitVec.toNat_add ..
  have hclock : clockFwd (s.slc.xc[k] + 1) = true ↔ (s.slc.xc[k].toNat + 1) % 32 = 0 := by
    rw [clockFwd_iff, hx]
    omega
  refine ⟨onSlc (Machine.stepForward k) s, rfl, fun j => ?_, fun hxc hst hsp => ?_, rfl⟩
  · obtain ⟨h1, h2, h3⟩ := stepTo_toNat k j (s.slc.xc[k] + 1) (clockFwd (s.slc.xc[k] + 1)) s.slc
    simp only [hclock] at h2 h3
    refine ⟨h1.trans ?_, h2, h3⟩
    split
    · next hj => subst hj; exact hx
    · rfl
  · have hst' := stepTo_st_get k k (s.slc.xc[k] + 1) (clockFwd (s.slc.xc[k] + 1)) s.slc
    have hsp' := stepTo_sp_get k k (s.slc.xc[k] + 1) (clockFwd (s.slc.xc[k] + 1)) s.slc
    rw [hxc, hst] at hst'
    rw [hxc, hsp] at hsp'
    rw [if_pos ⟨rfl, by decide⟩] at hst' hsp'
    rw [hst, hsp, onSlc_slc, Machine.stepForward, hxc, hst', hsp']
    decide

/-- Settles O35. -/
theorem stepReverse : Obligations.StepReverse := by
  unfold Obligations.StepReverse
  intro k s
  have hx : (s.slc.xc[k] - 1).toNat = (s.slc.xc[k].toNat + 255) % 256 := by
    rw [BitVec.toNat_sub, Nat.add_comm]
    rfl
  have hclock : clockRev (s.slc.xc[k] - 1) = true ↔ s.slc.xc[k].toNat % 32 = 0 := by
    rw [clockRev_iff, hx]
    omega
  refine ⟨onSlc (Machine.stepReverse k) s, rfl, fun j => ?_, rfl⟩
  obtain ⟨h1, h2, h3⟩ := stepTo_toNat k j (s.slc.xc[k] - 1) (clockRev (s.slc.xc[k] - 1)) s.slc
  simp only [hclock] at h2 h3
  refine ⟨h1.trans ?_, h2, h3⟩
  split
  · next hj => subst hj; exact hx
  · rfl

end Sys2Proof

/-! ## The closed form of a line (R150, R153, R154, R156) -/

namespace Sys2Proof.Machine

/-! ### The counters -/

/-- The counters of layer `k` after `p` steps from the snapshot's presets, in the direction `rev`. -/
structure CountsAt (rev : Bool) (snap : Latches) (p : Nat) (k : Fin 4) (u : Slc) : Prop where
  xc : u.xc[k].toNat = columnAt rev (xoffOf snap k).toNat p
  st : u.st[k].toNat = ((mixOf snap k).toNat % 16 + clocksAt rev (xoffOf snap k).toNat p) % 32
  sp : u.sp[k].toNat = ((mixOf snap k).toNat / 16 + clocksAt rev (xoffOf snap k).toNat p) % 32

theorem clocksAt_zero (rev : Bool) (xoff : Nat) : clocksAt rev xoff 0 = 0 := by
  unfold clocksAt
  split <;> omega

theorem columnAt_zero (rev : Bool) {xoff : Nat} (h : xoff < 256) : columnAt rev xoff 0 = xoff := by
  unfold columnAt
  split <;> omega

theorem countsAt_lineLoad (rev : Bool) (y : Nat) (snap : Latches) (k : Fin 4) (u : Slc) :
    CountsAt rev snap 0 k (lineLoad y snap u) where
  xc := by rw [lineLoad_xc_get, columnAt_zero rev (xoffOf snap k).isLt]
  st := by rw [lineLoad_st_get, toNat_startPreset, clocksAt_zero]; omega
  sp := by
    have := (mixOf snap k).isLt
    rw [lineLoad_sp_get, toNat_stopPreset, clocksAt_zero]
    omega

/-- One step of a horizontal counter is one step of the closed form. -/
theorem toNat_step_column {rev : Bool} {x : Byte} {xoff p : Nat}
    (h : x.toNat = columnAt rev xoff p) :
    (if rev then x - 1 else x + 1).toNat = columnAt rev xoff (p + 1) := by
  unfold columnAt at h ⊢
  cases rev with
  | true =>
    simp only [if_true] at h ⊢
    rw [BitVec.toNat_sub, h]
    show (2 ^ 8 - 1 + _) % 2 ^ 8 = _
    omega
  | false =>
    simp only [Bool.false_eq_true, if_false] at h ⊢
    rw [BitVec.toNat_add, h]
    show (_ + 1) % 2 ^ 8 = _
    omega

/-- A step clocks the window counters exactly when the closed form's clock count goes up. -/
theorem clocksAt_succ {rev : Bool} {x : Byte} {xoff p : Nat}
    (h : x.toNat = columnAt rev xoff (p + 1)) :
    clocksAt rev xoff (p + 1) =
      clocksAt rev xoff p + if (if rev then clockRev x else clockFwd x) = true then 1 else 0 := by
  unfold columnAt at h
  unfold clocksAt
  cases rev with
  | true =>
    simp only [if_true, clockRev_iff] at h ⊢
    split <;> omega
  | false =>
    simp only [Bool.false_eq_true, if_false, clockFwd_iff] at h ⊢
    split <;> omega

/-- A window counter that follows the clock. -/
theorem toNat_clocked {v : BitVec 5} {s0 c : Nat} {clock : Prop} [Decidable clock]
    (h : v.toNat = (s0 + c) % 32) :
    (if clock then v + 1 else v).toNat = (s0 + (c + if clock then 1 else 0)) % 32 := by
  by_cases hc : clock
  · rw [if_pos hc, if_pos hc, BitVec.toNat_add, h]
    show (_ + 1) % 2 ^ 5 = _
    omega
  · rw [if_neg hc, if_neg hc, h, Nat.add_zero]

/-- A step of a layer's counters is one more step of the closed form. -/
theorem CountsAt.step {rev : Bool} {snap : Latches} {p : Nat} {k : Fin 4} {u u' : Slc}
    (h : CountsAt rev snap p k u)
    (hxc : u'.xc[k] = if rev then u.xc[k] - 1 else u.xc[k] + 1)
    (hst : u'.st[k] = if (if rev then clockRev (u.xc[k] - 1) else clockFwd (u.xc[k] + 1)) = true
      then u.st[k] + 1 else u.st[k])
    (hsp : u'.sp[k] = if (if rev then clockRev (u.xc[k] - 1) else clockFwd (u.xc[k] + 1)) = true
      then u.sp[k] + 1 else u.sp[k]) : CountsAt rev snap (p + 1) k u' := by
  have hcolumn := toNat_step_column h.xc
  have hclock : (if rev then clockRev (u.xc[k] - 1) else clockFwd (u.xc[k] + 1)) =
      if rev then clockRev (if rev then u.xc[k] - 1 else u.xc[k] + 1)
      else clockFwd (if rev then u.xc[k] - 1 else u.xc[k] + 1) := by cases rev <;> rfl
  rw [hclock] at hst hsp
  refine ⟨hxc ▸ hcolumn, ?_, ?_⟩
  · rw [hst, toNat_clocked h.st, ← clocksAt_succ hcolumn]
  · rw [hsp, toNat_clocked h.sp, ← clocksAt_succ hcolumn]

/-- The window of the closed form is the layer's enable. -/
theorem CountsAt.layerEnabled {rev : Bool} {snap : Latches} {p : Nat} {k : Fin 4} {u : Slc}
    (h : CountsAt rev snap p k u) :
    layerEnabled u.st[k] u.sp[k] =
      windowAt ((mixOf snap k).toNat % 16) ((mixOf snap k).toNat / 16)
        (clocksAt rev (xoffOf snap k).toNat p) :=
  layerEnabled_eq_windowAt h.st h.sp

/-- The counter step of layer `k` in the direction `rev`. -/
def stepOne (rev : Bool) (k : Fin 4) (u : Slc) : Slc :=
  stepTo k (if rev then u.xc[k] - 1 else u.xc[k] + 1)
    (if rev then clockRev (u.xc[k] - 1) else clockFwd (u.xc[k] + 1)) u

theorem exec_stepOne (rev : Bool) (k : Fin 4) (s : State) :
    exec (if rev then .stepRev k else .stepFwd k) s = .next (onSlc (stepOne rev k) s) := by
  cases rev <;> rfl

theorem CountsAt.stepOne {rev : Bool} {snap : Latches} {p : Nat} {k : Fin 4} {u : Slc}
    (h : CountsAt rev snap p k u) : CountsAt rev snap (p + 1) k (stepOne rev k u) := by
  refine h.step ?_ ?_ ?_
  · rw [Machine.stepOne, stepTo_xc_get, if_pos rfl]
  · rw [Machine.stepOne, stepTo_st_get]
    exact if_congr (and_iff_right rfl) rfl rfl
  · rw [Machine.stepOne, stepTo_sp_get]
    exact if_congr (and_iff_right rfl) rfl rfl

/-- A run of steps of one layer in one direction. -/
theorem forEach_stepOne {rev : Bool} {snap : Latches} {k : Fin 4} (l : List Nat) {p : Nat} {s : State}
    (h : CountsAt rev snap p k s.slc) :
    ∃ t, forEach (fun _ => exec (if rev then .stepRev k else .stepFwd k)) l s = .next t ∧
      CountsAt rev snap (p + l.length) k t.slc := by
  induction l generalizing p s with
  | nil => exact ⟨s, rfl, h⟩
  | cons _ l ih =>
    obtain ⟨t, hrun, ht⟩ := ih (s := onSlc (Machine.stepOne rev k) s) h.stepOne
    refine ⟨t, ?_, ?_⟩
    · rw [forEach_cons, exec_stepOne, andThen_next, hrun]
    · rwa [List.length_cons, Nat.add_comm l.length, ← Nat.add_assoc]

/-- Within one sweep no window counter passes bit 4 twice, so the window is an interval (R153). -/
theorem windowAt_iff {s0 t0 c : Nat} (hs : s0 < 16) (ht : t0 < 16) (hc : c ≤ 16) :
    windowAt s0 t0 c = true ↔ min (16 - s0) (16 - t0) ≤ c ∧ c < max (16 - s0) (16 - t0) := by
  rw [windowAt, bne_iff_ne]
  omega

theorem clocksAt_le (rev : Bool) {xoff p : Nat} (hp : p < 384) : clocksAt rev xoff p ≤ 12 := by
  unfold clocksAt
  split <;> omega

/-- Settles O36: the presets, then one step of the closed form for each step. -/
theorem counterClosedForm : Obligations.CounterClosedForm := by
  unfold Obligations.CounterClosedForm
  intro s y p k rev hy
  have hloaded : CountsAt rev (tlRead s.slc y) 0 k (onSlc (lineLoad y (tlRead s.slc y)) s).slc :=
    countsAt_lineLoad rev y (tlRead s.slc y) k s.slc
  obtain ⟨t, hrun, ht⟩ := forEach_stepOne (List.range p) hloaded
  rw [List.length_range, Nat.zero_add] at ht
  refine ⟨t, ?_, ht.xc, ht.st, ht.sp, ht.layerEnabled, fun hp => ?_⟩
  · rw [exec_lineInit_of_le hy, andThen_next, hrun]
  · have hmix := (mixOf (tlRead s.slc y) k).isLt
    have hclocks := clocksAt_le rev (xoff := (xoffOf (tlRead s.slc y) k).toNat) hp
    rw [ht.layerEnabled]
    exact windowAt_iff (by omega) (by omega) (by omega)

/-! ### One pixel -/

/-- The accumulator of four pixels as a number: the pixels in their lanes, their flags above (R101). -/
theorem toNat_acc : ∀ a b c d : BitVec 2,
    (rawOf 0 a ||| rawOf 1 b ||| rawOf 2 c ||| rawOf 3 d).toNat =
      a.toNat + 4 * b.toNat + 16 * c.toNat + 64 * d.toNat +
        256 * ((if a = 0 then 0 else 1) + (if b = 0 then 0 else 2) + (if c = 0 then 0 else 4) +
          (if d = 0 then 0 else 8)) := by
  decide

/-- The accumulator of four layers' pixels. -/
def accOf (px : Fin 4 → BitVec 2) : Word :=
  rawOf 0 (px 0) ||| rawOf 1 (px 1) ||| rawOf 2 (px 2) ||| rawOf 3 (px 3)

/-- The bit of the mixer index that a layer's pixel sets (R145). -/
def mixBit (px : Fin 4 → BitVec 2) (k : Fin 4) : Nat := if px k = 0 then 0 else 2 ^ k.val

theorem toNat_mixIndex_accOf (px : Fin 4 → BitVec 2) :
    (mixIndex (accOf px)).toNat = mixBit px 0 + mixBit px 1 + mixBit px 2 + mixBit px 3 := by
  have hacc : (accOf px).toNat = (px 0).toNat + 4 * (px 1).toNat + 16 * (px 2).toNat +
      64 * (px 3).toNat + 256 * (mixBit px 0 + mixBit px 1 + mixBit px 2 + mixBit px 3) :=
    toNat_acc (px 0) (px 1) (px 2) (px 3)
  have h0 := (px 0).isLt
  have h1 := (px 1).isLt
  have h2 := (px 2).isLt
  have h3 := (px 3).isLt
  rw [toNat_mixIndex, hacc]
  omega

/-- Each layer's pixel stands in its lane of the accumulator. -/
theorem accOf_div_mod (px : Fin 4 → BitVec 2) (k : Fin 4) :
    (accOf px).toNat / 2 ^ (2 * k.val) % 4 = (px k).toNat := by
  have h0 := (px 0).isLt
  have h1 := (px 1).isLt
  have h2 := (px 2).isLt
  have h3 := (px 3).isLt
  rw [accOf, toNat_acc]
  rcases layer_cases k with rfl | rfl | rfl | rfl
  · show _ / 1 % 4 = _
    omega
  · show _ / 4 % 4 = _
    omega
  · show _ / 16 % 4 = _
    omega
  · show _ / 64 % 4 = _
    omega

theorem rawOf_zero : ∀ k : Fin 4, rawOf k 0 = 0 := by decide

/-- A layer's contribution is that of its pixel: 0 where its window is closed. -/
theorem formPixel_raw_eq {b : Board} {cflip : Bool} {snap : Latches} {p : Nat} {u : Slc} (k : Fin 4)
    (hcounts : CountsAt cflip snap p k u) (hrow : u.row[k] = yselOf snap k) :
    (formPixel b p u).raw[k] = rawOf k (layerPixel b cflip snap p k) := by
  have hcolumn : BitVec.ofNat 8 (columnAt cflip (xoffOf snap k).toNat p) = u.xc[k] := by
    rw [← hcounts.xc, BitVec.ofNat_toNat, BitVec.setWidth_eq]
  rw [formPixel_raw, layerOn, hcounts.layerEnabled, hrow, layerPixel, hcolumn, apply_ite (rawOf k),
    rawOf_zero]

/-- The colour index formed at position `p`: the selected layer's number above its pixel. -/
theorem toNat_formPixel_cidx {b : Board} {p : Nat} {u : Slc} {px : Fin 4 → BitVec 2}
    (hraw : ∀ k : Fin 4, (formPixel b p u).raw[k] = rawOf k (px k)) :
    let sel := (mixEntry b (BitVec.ofNat 8 (mixBit px 0 + mixBit px 1 + mixBit px 2 + mixBit px 3))).toNat % 4
    (formPixel b p u).cidx.toNat = sel * 4 + (px (Fin.ofNat 4 sel)).toNat := by
  intro sel
  have hacc : (formPixel b p u).acc = accOf px := by
    rw [formPixel_acc]
    have h0 : (formPixel b p u).raw[0] = rawOf 0 (px 0) := hraw 0
    have h1 : (formPixel b p u).raw[1] = rawOf 1 (px 1) := hraw 1
    have h2 : (formPixel b p u).raw[2] = rawOf 2 (px 2) := hraw 2
    have h3 : (formPixel b p u).raw[3] = rawOf 3 (px 3) := hraw 3
    rw [h0, h1, h2, h3, accOf]
  have hlookup : (formPixel b p u).lookup.toNat = sel := by
    have hindex : mixIndex (accOf px) =
        BitVec.ofNat 8 (mixBit px 0 + mixBit px 1 + mixBit px 2 + mixBit px 3) := by
      rw [← toNat_mixIndex_accOf, BitVec.ofNat_toNat, BitVec.setWidth_eq]
    rw [formPixel_lookup, toNat_lookupOf, hacc, hindex]
  have hsel : sel < 4 := Nat.mod_lt _ (by decide)
  have hlane := accOf_div_mod px (Fin.ofNat 4 sel)
  rw [Fin.val_ofNat, Nat.mod_eq_of_lt hsel] at hlane
  rw [formPixel_cidx, toNat_cidxOf, hlookup, hacc, hlane]

/-- The pen formed at position `p` is that of the closed form (R145 to R147). -/
theorem penOf_formPixel {b : Board} {cflip : Bool} {snap : Latches} {p : Nat} {u : Slc}
    (hcounts : ∀ k, CountsAt cflip snap p k u) (hrow : ∀ k : Fin 4, u.row[k] = yselOf snap k) :
    penOf u.pbank (formPixel b p u).cidx = linePen b u.pbank cflip snap p := by
  rw [penOf_eq, toNat_formPixel_cidx fun k => formPixel_raw_eq k (hcounts k) (hrow k), ← Nat.add_assoc]
  rfl

/-! ### The sweep -/

/-- SLC `p` positions into the sweep of line `y`: the counters of the closed form, and the entries
before `p` of that line of OUT rendered. -/
structure SweptTo (b : Board) (y : Nat) (snap : Latches) (u0 : Slc) (p : Nat) (u : Slc) : Prop where
  counts : ∀ k, CountsAt u0.cflip snap p k u
  row : ∀ k : Fin 4, u.row[k] = yselOf snap k
  line : u.y = y
  pbank : u.pbank = u0.pbank
  cflip : u.cflip = u0.cflip
  out : ∀ y' p' : Nat, outRead u y' p' =
    if y' = y ∧ p' < p then linePen b u0.pbank u0.cflip snap p' else outRead u0 y' p'

theorem sweptTo_lineLoad (b : Board) (y : Nat) (snap : Latches) (u : Slc) :
    SweptTo b y snap u 0 (lineLoad y snap u) where
  counts k := countsAt_lineLoad u.cflip y snap k u
  row := lineLoad_row_get y snap u
  line := rfl
  pbank := rfl
  cflip := rfl
  out y' p' := by rw [if_neg fun h => Nat.not_lt_zero p' h.2]; rfl

/-- Forming a pixel leaves the counters. -/
theorem CountsAt.formPixel {rev : Bool} {snap : Latches} {p : Nat} {k : Fin 4} {u : Slc}
    (h : CountsAt rev snap p k u) (b : Board) (q : Nat) : CountsAt rev snap p k (formPixel b q u) where
  xc := by rw [formPixel_xc]; exact h.xc
  st := by rw [formPixel_st]; exact h.st
  sp := by rw [formPixel_sp]; exact h.sp

theorem CountsAt.stepLayers {snap : Latches} {p : Nat} {k : Fin 4} {u : Slc}
    (h : CountsAt u.cflip snap p k u) : CountsAt u.cflip snap (p + 1) k (stepLayers u) :=
  h.step (stepLayers_xc u k) (stepLayers_st u k) (stepLayers_sp u k)

/-- One position of the sweep. -/
theorem SweptTo.step {b : Board} {y : Nat} {snap : Latches} {u0 u : Slc} {p : Nat}
    (h : SweptTo b y snap u0 p u) : SweptTo b y snap u0 (p + 1) (stepLayers (formPixel b p u)) where
  counts k := by
    have hformed := (h.counts k).formPixel b p
    have hcflip : (formPixel b p u).cflip = u0.cflip := (formPixel_cflip b p u).trans h.cflip
    rw [← hcflip] at hformed ⊢
    exact hformed.stepLayers
  row := by simpa using h.row
  line := by simpa using h.line
  pbank := by simpa using h.pbank
  cflip := by simpa using h.cflip
  out y' p' := by
    have hpen : penOf u.pbank (formPixel b p u).cidx = linePen b u0.pbank u0.cflip snap p := by
      rw [penOf_formPixel h.counts h.row, h.pbank]
    have hout := h.out y' p'
    unfold outRead at hout ⊢
    rw [stepLayers_out, formPixel_out, gridRead_gridWrite, hout, hpen, h.line]
    split_ifs <;> grind

/-- The whole sweep of a line, from LINE.INIT on. -/
theorem sweptTo_sweepLine (b : Board) (y : Nat) (snap : Latches) (u : Slc) :
    SweptTo b y snap u 384 (sweepLine b (lineLoad y snap u)) :=
  loop_rule (SweptTo b y snap u) (sweptTo_lineLoad b y snap u) fun _ _ _ h => h.step

/-! ### LINE.RENDER -/

/-- The registers of SLC that rendering leaves: the host's, and the timeline's. -/
structure SameRegisters (u u' : Slc) : Prop where
  latch : u'.latch = u.latch
  pbank : u'.pbank = u.pbank
  cflip : u'.cflip = u.cflip
  cbank : u'.cbank = u.cbank
  tl : u'.tl = u.tl
  cur : u'.cur = u.cur
  inframe : u'.inframe = u.inframe

theorem SameRegisters.refl (u : Slc) : SameRegisters u u := ⟨rfl, rfl, rfl, rfl, rfl, rfl, rfl⟩

theorem SameRegisters.trans {u v w : Slc} (h : SameRegisters u v) (h' : SameRegisters v w) :
    SameRegisters u w :=
  ⟨h'.latch.trans h.latch, h'.pbank.trans h.pbank, h'.cflip.trans h.cflip, h'.cbank.trans h.cbank,
    h'.tl.trans h.tl, h'.cur.trans h.cur, h'.inframe.trans h.inframe⟩

theorem SameRegisters.tlRead {u u' : Slc} (h : SameRegisters u u') (l : Nat) :
    tlRead u' l = tlRead u l := by
  rw [Machine.tlRead, Machine.tlRead, h.tl]

/-- Such a state is itself with the old registers put back. -/
theorem SameRegisters.eq {u u' : Slc} (h : SameRegisters u u') :
    u' = { u' with
      latch := u.latch, pbank := u.pbank, cflip := u.cflip, cbank := u.cbank, tl := u.tl
      cur := u.cur, inframe := u.inframe } := by
  obtain ⟨h1, h2, h3, h4, h5, h6, h7⟩ := h
  rw [← h1, ← h2, ← h3, ← h4, ← h5, ← h6, ← h7]

theorem sameRegisters_sweepLine (b : Board) (y : Nat) (snap : Latches) (u : Slc) :
    SameRegisters u (sweepLine b (lineLoad y snap u)) := by
  obtain ⟨h1, h2, h3, h4, h5, h6, h7, -, -⟩ := sweepLine_frame b (lineLoad y snap u)
  exact ⟨h1, h2, h3, h4, h5, h6, h7⟩

/-- SLC after LINE.RENDER of a line; kept folded, since its sweep has 384 passes. -/
@[irreducible] def renderedLine (b : Board) (y : Nat) (u : Slc) : Slc :=
  sweepLine b (lineLoad y (tlRead u y) u)

theorem exec_lineRender (y : Nat) (s : State) : exec (.lineRender y) s = execLineRender y s := rfl

theorem execLineRender_of_le {y : Nat} {s : State} (h : (y : Int) ≤ s.slc.cur) :
    execLineRender y s = .next { s with slc := renderedLine s.cfg y s.slc } := by
  rw [execLineRender_eq_next]
  refine ⟨h, ?_⟩
  unfold onSlc renderedLine
  rfl

theorem execLineRender_of_lt {y : Nat} {s : State} (h : s.slc.cur < y) :
    execLineRender y s = .refused .snapshotUnflushed := by
  have hinit : execLineInit y s = .refused .snapshotUnflushed := if_neg (Int.not_le.2 h)
  rw [execLineRender, hinit, andThen_refused]

theorem outRead_renderedLine (b : Board) (y : Nat) (u : Slc) (y' p : Nat) :
    outRead (renderedLine b y u) y' p =
      if y' = y ∧ p < 384 then linePen b u.pbank u.cflip (tlRead u y) p else outRead u y' p := by
  unfold renderedLine
  exact (sweptTo_sweepLine b y (tlRead u y) u).out y' p

theorem renderedLine_y (b : Board) (y : Nat) (u : Slc) : (renderedLine b y u).y = y := by
  unfold renderedLine
  exact (sweptTo_sweepLine b y (tlRead u y) u).line

theorem sameRegisters_renderedLine (b : Board) (y : Nat) (u : Slc) :
    SameRegisters u (renderedLine b y u) := by
  unfold renderedLine
  exact sameRegisters_sweepLine b y (tlRead u y) u

/-- Settles O37. -/
theorem lineRender : Obligations.LineRender := by
  unfold Obligations.LineRender
  intro y s
  rw [exec_lineRender]
  refine ⟨fun h => ?_, execLineRender_of_lt⟩
  refine ⟨_, execLineRender_of_le h, outRead_renderedLine s.cfg y s.slc,
    renderedLine_y s.cfg y s.slc, ?_⟩
  exact congrArg (fun u => { s with slc := u }) (sameRegisters_renderedLine s.cfg y s.slc).eq

/-- The closed form of a line reads twelve latch bytes, BG, its dimensions and MIXPROM (R156). -/
theorem linePen_congr {b b' : Board} {snap snap' : Latches} (hpixel : bgPixel b = bgPixel b')
    (hprom : b.mixprom = b'.mixprom)
    (hsnap : ∀ j : Fin 16, j.val < 12 → snap[j] = snap'[j]) (pbank : Nat) (cflip : Bool) (p : Nat) :
    linePen b pbank cflip snap p = linePen b' pbank cflip snap' p := by
  have hxoff (k : Fin 4) : xoffOf snap k = xoffOf snap' k :=
    hsnap ⟨k.val, by omega⟩ (show k.val < 12 by omega)
  have hysel (k : Fin 4) : yselOf snap k = yselOf snap' k :=
    hsnap ⟨4 + k.val, by omega⟩ (show 4 + k.val < 12 by omega)
  have hmix (k : Fin 4) : mixOf snap k = mixOf snap' k :=
    hsnap ⟨8 + k.val, by omega⟩ (show 8 + k.val < 12 by omega)
  have hlayer : layerPixel b cflip snap p = layerPixel b' cflip snap' p := by
    funext k
    simp only [layerPixel, hpixel, hxoff, hysel, hmix]
  have hentry : mixEntry b = mixEntry b' := by
    funext n
    simp only [mixEntry, hprom]
  simp only [linePen, mixAt, hlayer, hentry]

/-- Settles O39. -/
theorem renderingIsDeterministic : Obligations.RenderingIsDeterministic := by
  unfold Obligations.RenderingIsDeterministic
  intro y s t hs ht hrows hcols hbg hprom hpbank hcflip hsnap
  rw [exec_lineRender, exec_lineRender]
  refine ⟨_, _, execLineRender_of_le hs, execLineRender_of_le ht, fun p hp => ?_⟩
  rw [outRead_renderedLine, outRead_renderedLine, if_pos ⟨rfl, hp⟩,
    if_pos ⟨rfl, hp⟩, hpbank, hcflip]
  exact linePen_congr (bgPixel_congr hrows hcols hbg) hprom hsnap t.slc.pbank t.slc.cflip p

/-! ### The frame -/

/-- Lines rendered in order: each takes its closed form, and the others keep what they held. -/
theorem forEach_lineRender {ys : List Nat} {s : State} (h : ∀ y ∈ ys, (y : Int) ≤ s.slc.cur) :
    ∃ u, forEach execLineRender ys s = .next { s with slc := u } ∧ SameRegisters s.slc u ∧
      ∀ y p : Nat, outRead u y p =
        if y ∈ ys ∧ p < 384 then linePen s.cfg s.slc.pbank s.slc.cflip (tlRead s.slc y) p
        else outRead s.slc y p := by
  induction ys generalizing s with
  | nil => exact ⟨s.slc, rfl, .refl s.slc, fun y p => by simp⟩
  | cons y0 ys ih =>
    have hfirst : execLineRender y0 s = .next { s with slc := renderedLine s.cfg y0 s.slc } :=
      execLineRender_of_le (h y0 (List.mem_cons_self ..))
    have hregs := sameRegisters_renderedLine s.cfg y0 s.slc
    obtain ⟨u, hrun, hregs', hout⟩ := ih (s := { s with slc := renderedLine s.cfg y0 s.slc }) fun y hy => by
      rw [hregs.cur]
      exact h y (List.mem_cons_of_mem _ hy)
    refine ⟨u, ?_, hregs.trans hregs', fun y p => ?_⟩
    · rw [forEach_cons, hfirst, andThen_next, hrun]
    · rw [hout, hregs.pbank, hregs.cflip, hregs.tlRead, outRead_renderedLine]
      simp only [List.mem_cons]
      split_ifs <;> grind

/-- Lines of which one is beyond the cursor: refused there. -/
theorem forEach_lineRender_refused {ys : List Nat} {s : State} (h : ∃ y ∈ ys, s.slc.cur < y) :
    forEach execLineRender ys s = .refused .snapshotUnflushed := by
  induction ys generalizing s with
  | nil => obtain ⟨y, hy, -⟩ := h; cases hy
  | cons y0 ys ih =>
    rw [forEach_cons]
    by_cases h0 : (y0 : Int) ≤ s.slc.cur
    · have hfirst : execLineRender y0 s = .next { s with slc := renderedLine s.cfg y0 s.slc } :=
        execLineRender_of_le h0
      rw [hfirst, andThen_next]
      obtain ⟨y, hy, hlt⟩ := h
      refine ih ⟨y, ?_, ?_⟩
      · exact (List.mem_cons.1 hy).resolve_left fun he => by omega
      · rwa [(sameRegisters_renderedLine s.cfg y0 s.slc).cur]
    · have hfirst : execLineRender y0 s = .refused .snapshotUnflushed :=
        execLineRender_of_lt (Int.not_le.1 h0)
      rw [hfirst, andThen_refused]

theorem mem_visibleLines {p : Params} {y : Nat} :
    y ∈ visibleLines p ↔ p.visYMin ≤ y ∧ y ≤ p.visYMax := by
  rw [visibleLines, List.mem_range'_1]
  omega

/-- BG.FRAME with every visible line materialised (R140). -/
theorem exec_bgFrame {s : State} (h : (s.cfg.params.visYMax : Int) ≤ s.slc.cur) :
    ∃ u, exec .bgFrame s = .next { s with slc := u } ∧ SameRegisters s.slc u ∧
      ∀ y p : Nat, outRead u y p =
        if s.cfg.params.visYMin ≤ y ∧ y ≤ s.cfg.params.visYMax ∧ p < 384 then
          linePen s.cfg s.slc.pbank s.slc.cflip (tlRead s.slc y) p
        else outRead s.slc y p := by
  obtain ⟨u, hrun, hregs, hout⟩ := forEach_lineRender (ys := visibleLines s.cfg.params) (s := s)
    fun y hy => by have := mem_visibleLines.1 hy; omega
  refine ⟨u, hrun, hregs, fun y p => (hout y p).trans (if_congr ?_ rfl rfl)⟩
  rw [mem_visibleLines, and_assoc]

/-- Settles O38. -/
theorem backgroundFrame : Obligations.BackgroundFrame := by
  unfold Obligations.BackgroundFrame
  refine fun s => ⟨fun h => ?_, fun hvisible hcur => ?_⟩
  · obtain ⟨u, hrun, hregs, hout⟩ := exec_bgFrame h
    exact ⟨_, hrun, hout, congrArg (fun u => { s with slc := u }) hregs.eq⟩
  · exact forEach_lineRender_refused ⟨_, mem_visibleLines.2 ⟨hvisible, le_rfl⟩, hcur⟩

/-- SLC when FRAME.END has closed the frame and flushed it (R132, steps 0 and 1). -/
def frameFlushed (p : Params) (u : Slc) : Slc :=
  flushLines ((p.screenH : Int) - 1) { u with inframe := false }

/-- FRAME.END inside a frame closes it, flushes it and renders it. -/
theorem exec_frameEnd {s : State} (hopen : s.slc.inframe = true)
    (hcur : s.slc.cur < s.cfg.params.screenH) :
    exec .frameEnd s = exec .bgFrame (onSlc (frameFlushed s.cfg.params) s) := by
  have hflush : execFlush (-1) (onSlc (fun u => { u with inframe := false }) s) =
      .next (onSlc (frameFlushed s.cfg.params) s) := by
    refine exec_flushAll (s := onSlc (fun u => { u with inframe := false }) s) ?_
    show s.slc.cur ≤ _
    rw [onSlc_cfg]
    omega
  show execFrameEnd s = _
  rw [execFrameEnd, if_pos hopen, hflush, andThen_next]
  rfl

/-- Settles O23: FRAME.END is the flush of O21 and the frame of O38. -/
theorem frameEnd : Obligations.FrameEnd := by
  unfold Obligations.FrameEnd
  refine fun s => ⟨fun hopen hcur hvisible => ?_, fun hclosed => if_neg (by simp [hclosed])⟩
  have htl (l : Nat) : tlRead (frameFlushed s.cfg.params s.slc) l =
      if s.slc.cur < l ∧ l < s.cfg.params.screenH then s.slc.latch else tlRead s.slc l := by
    refine (tlRead_flushLines_eq _ _ l).trans (if_congr ?_ rfl rfl)
    show s.slc.cur < l ∧ _ ↔ _
    omega
  obtain ⟨u, hrun, hregs, hout⟩ := exec_bgFrame (s := onSlc (frameFlushed s.cfg.params) s)
    (by show (s.cfg.params.visYMax : Int) ≤ (s.cfg.params.screenH : Int) - 1; omega)
  refine ⟨_, (exec_frameEnd hopen hcur).trans hrun, hregs.inframe, hregs.cur, fun l => ?_,
    fun y p => ?_, ?_⟩
  · exact (hregs.tlRead l).trans (htl l)
  · exact (hout y p).trans (by rw [hregs.tlRead]; rfl)
  · have hslc : u = { u with
        latch := s.slc.latch, pbank := s.slc.pbank, cflip := s.slc.cflip, cbank := s.slc.cbank } := by
      obtain ⟨h1, h2, h3, h4, -, -, -⟩ := hregs
      rw [show s.slc.latch = u.latch from h1.symm, show s.slc.pbank = u.pbank from h2.symm,
        show s.slc.cflip = u.cflip from h3.symm, show s.slc.cbank = u.cbank from h4.symm]
    exact congrArg (fun u => { s with slc := u }) hslc

end Sys2Proof.Machine

/-! ## The blitter's single steps (R128, R172, R174, R180, R185, R196) -/

namespace Sys2Proof.Machine

/-! ### RAM.W -/

theorem execRamW_of_lt {a : Nat} {s : State} (v : Nat) (h : a < s.cfg.params.ramWords) :
    execRamW a v s = .next { s with
      tbl := { s.tbl with ram := ramWrite s.cfg.params s.tbl.ram a (BitVec.ofNat 16 v) } } := if_pos h

theorem execRamW_of_le {a : Nat} {s : State} (v : Nat) (h : s.cfg.params.ramWords ≤ a) :
    execRamW a v s = .fault .ramAddress := if_neg (Nat.not_lt.2 h)

/-- What a RAM.W inside RAM leaves: its word, and every other byte. -/
theorem execRamW_result {a : Nat} {s : State} (v : Nat) (h : a < s.cfg.params.ramWords) :
    ∃ t, execRamW a v s = .next t ∧ (ramRead s.cfg.params t.tbl.ram a).toNat = v % 65536 ∧
      (∀ c, c ≠ 2 * a → c ≠ 2 * a + 1 → memRead 0 t.tbl.ram c = memRead 0 s.tbl.ram c) ∧
      t = { s with tbl := { s.tbl with ram := t.tbl.ram } } := by
  refine ⟨_, execRamW_of_lt v h, ?_, fun c => byte_ramWrite_of_ne _ _ _ _, rfl⟩
  rw [ramRead_ramWrite, if_pos rfl, BitVec.toNat_ofNat]

/-! ### CMD.DECODE -/

/-- A destination coordinate from the record's word. -/
theorem toNat_destField (v : Word) : (v.extractLsb' 4 9).toNat = v.toNat / 16 % 512 := by
  rw [BitVec.extractLsb'_toNat, Nat.shiftRight_eq_div_pow]

end Sys2Proof.Machine

namespace Sys2Proof

open Machine

/-- Settles O40. -/
theorem ramWrite : Obligations.RamWrite := by
  unfold Obligations.RamWrite
  exact fun _ v _ h => execRamW_result v h

/-- Settles O43: the model's fields, written as numbers. -/
theorem commandDecode : Obligations.CommandDecode := by
  unfold Obligations.CommandDecode
  intro s
  have coordinate (edge : Nat) (v : Word) : destCoord edge (v.extractLsb' 4 9) =
      if edge ≤ v.toNat / 16 % 512 then ((v.toNat / 16 % 512 : Nat) : Int) - 512
      else (v.toNat / 16 % 512 : Nat) := by rw [destCoord, toNat_destField]
  have flag (n : Nat) : s.tbl.w[4].getLsbD n = decide (s.tbl.w[4].toNat / 2 ^ n % 2 = 1) :=
    getLsbD_eq_decide s.tbl.w[4] n
  have hfx : s.tbl.w.fx = decide (s.tbl.w[4].toNat % 2 = 1) := by
    rw [Command.fx, flag 0, Nat.pow_zero, Nat.div_one]
  have hbank : s.tbl.w.bank = BitVec.ofNat 7 (s.tbl.w[5].toNat % 128) := by
    rw [← BitVec.toNat_inj, BitVec.toNat_ofNat, Command.bank, BitVec.extractLsb'_toNat,
      Nat.shiftRight_zero, Nat.mod_mod]
  have source (v : Word) : v.extractLsb' 4 12 = BitVec.ofNat 12 (v.toNat / 16) :=
    extractLsb'_eq_ofNat_div 4 12 v
  have hfields : exec .cmdDecode s = .next { s with
      tbl := { s.tbl with
        code := s.tbl.w.code
        dx := destCoord s.cfg.params.fbW s.tbl.w.xi
        dy := destCoord s.cfg.params.fbH s.tbl.w.yi
        flipx := s.tbl.w.fx, flipy := s.tbl.w.fy, cond := s.tbl.w.cond, tmap := s.tbl.w.tm
        bank := s.tbl.w.bank, sw := s.tbl.w.sw, sh := s.tbl.w.sh
        spx := s.tbl.w.spx, spy := s.tbl.w.spy, zx := s.tbl.w.zx, zy := s.tbl.w.zy } } := rfl
  rw [hfields, show destCoord s.cfg.params.fbW s.tbl.w.xi = _ from coordinate _ s.tbl.w[2],
    show destCoord s.cfg.params.fbH s.tbl.w.yi = _ from coordinate _ s.tbl.w[3], hfx,
    show s.tbl.w.fy = _ from flag 1, show s.tbl.w.cond = _ from flag 2,
    show s.tbl.w.tm = _ from flag 3, hbank, show s.tbl.w.spx = _ from source s.tbl.w[8],
    show s.tbl.w.spy = _ from source s.tbl.w[9]]
  rfl

end Sys2Proof

namespace Sys2Proof.Machine

/-! ### BLT.FLIPADJ -/

theorem flipAdjust_of_clear {b : Board} {t : Tbl} (h : t.flipscr = false) : flipAdjust b t = t :=
  if_neg (by simp [h])

theorem flipAdjust_of_set {b : Board} {t : Tbl} (h : t.flipscr = true) :
    flipAdjust b t = { t with
      dx := mirrored b.params.fbW t.dx t.sw
      dy := mirrored b.params.fbH t.dy t.sh
      flipx := !t.flipx
      flipy := !t.flipy } := by
  unfold flipAdjust
  rw [if_pos h, h]
  simp only [effectiveFlip, Bool.true_xor]

theorem mirrored_mirrored (edge : Nat) (d : Int) (size : Word) :
    mirrored edge (mirrored edge d size) size = d := by
  unfold mirrored
  omega

/-- The screen flip is an involution (R174). -/
theorem flipAdjust_flipAdjust (b : Board) (t : Tbl) : flipAdjust b (flipAdjust b t) = t := by
  cases h : t.flipscr with
  | false => rw [flipAdjust_of_clear h, flipAdjust_of_clear h]
  | true =>
    rw [flipAdjust_of_set (b := b) ((flipAdjust_flipscr b t).trans h), flipAdjust_of_set h]
    simp only [mirrored_mirrored, Bool.not_not]

end Sys2Proof.Machine

namespace Sys2Proof

open Machine

/-- Settles O44. -/
theorem flipAdjust : Obligations.FlipAdjust := by
  unfold Obligations.FlipAdjust
  have exec_bltFlipadj (s : State) :
      exec .bltFlipadj s = .next { s with tbl := Machine.flipAdjust s.cfg s.tbl } := rfl
  refine fun s => ⟨fun h => ?_, fun h => ?_, ?_⟩
  · rw [exec_bltFlipadj, flipAdjust_of_clear h]
  · rw [exec_bltFlipadj, flipAdjust_of_set h]
    rfl
  · rw [exec_bltFlipadj, andThen_next, exec_bltFlipadj]
    show Host.Outcome.next { s with tbl := Machine.flipAdjust s.cfg (Machine.flipAdjust s.cfg s.tbl) } = _
    rw [flipAdjust_flipAdjust]

end Sys2Proof

namespace Sys2Proof.Machine

/-! ### NEXTCODE -/

theorem toNat_and_lowNibble (c : Word) : (c &&& 0x000F#16).toNat = c.toNat % 16 := by
  rw [BitVec.toNat_and]
  exact Nat.and_two_pow_sub_one_eq_mod c.toNat 4

theorem toNat_and_highNibbles (c : Word) : (c &&& 0xFFF0#16).toNat = c.toNat / 16 * 16 := by
  have hshift : c &&& 0xFFF0#16 = c >>> 4 <<< 4 := by
    refine BitVec.eq_of_getLsbD_eq fun n hn => ?_
    have hmask : (0xFFF0#16).getLsbD n = decide (4 ≤ n) := by
      revert n
      decide
    rw [BitVec.getLsbD_and, hmask, BitVec.getLsbD_shiftLeft, BitVec.getLsbD_ushiftRight]
    by_cases h4 : 4 ≤ n
    · simp [h4, hn, Nat.not_lt.2 h4]
    · simp [h4, Nat.lt_of_not_le h4]
  have := c.isLt
  rw [hshift, BitVec.toNat_shiftLeft, BitVec.toNat_ushiftRight, Nat.shiftRight_eq_div_pow,
    Nat.shiftLeft_eq]
  omega

/-- The next code of a strip, as R180 writes it on numbers. -/
theorem toNat_nextCodeOf (c : Word) : (nextCodeOf c).toNat = nextCodeNat c.toNat := by
  have hnibble : c &&& 0x000F#16 = 0x000F#16 ↔ c.toNat % 16 = 15 := by
    rw [← BitVec.toNat_inj, toNat_and_lowNibble]
    rfl
  rw [nextCodeOf, nextCodeNat, apply_ite BitVec.toNat, toNat_and_highNibbles, BitVec.toNat_add,
    BitVec.toNat_add]
  exact if_congr hnibble rfl rfl

/-- Settles O45. -/
theorem nextCode : Obligations.NextCode := by
  unfold Obligations.NextCode
  refine fun c s => ⟨nextCodeOf c, rfl, toNat_nextCodeOf c, fun h => ?_⟩
  rw [toNat_nextCodeOf, nextCodeNat, if_pos h]
  omega

/-! ### FB.WRITE and ZBLIT -/

/-- Settles O46. -/
theorem frameBufferWrite : Obligations.FrameBufferWrite := by
  unfold Obligations.FrameBufferWrite
  exact fun x y v s => ⟨_, rfl, gridRead_fbPlot s.cfg.params x y v s.tbl.fb, rfl⟩

/-- A pixel of the buffer that some write hits, all with one value, takes that value. -/
theorem gridRead_drawPlots_of_hit {p : Params} {ps : List Plot} {fb : Grid Word} {x y : Nat} {v : Word}
    (hx : x < p.fbW) (hy : y < p.fbH) (hit : ∃ q ∈ ps, q.x = x ∧ q.y = y)
    (hv : ∀ q ∈ ps, q.x = x → q.y = y → q.v = v) : gridRead 0 (drawPlots p ps fb) y x = v := by
  obtain ⟨q, hq, hqx, hqy⟩ := hit
  rw [gridRead_drawPlots]
  cases hlast : (ps.filter fun q : Plot => decide (q.x = x ∧ q.y = y ∧ x < p.fbW ∧ y < p.fbH)).getLast? with
  | none =>
    rw [List.getLast?_eq_none_iff, List.filter_eq_nil_iff] at hlast
    exact absurd (decide_eq_true ⟨hqx, hqy, hx, hy⟩) (hlast q hq)
  | some r =>
    obtain ⟨hr, hcond⟩ := List.mem_filter.1 (List.mem_of_getLast? hlast)
    obtain ⟨hrx, hry, -, -⟩ := of_decide_eq_true hcond
    exact hv r hr hrx hry

/-- A pixel outside the buffer keeps what it held. -/
theorem gridRead_drawPlots_outside {p : Params} {x y : Nat} (h : p.fbW ≤ x ∨ p.fbH ≤ y)
    (ps : List Plot) (fb : Grid Word) : gridRead 0 (drawPlots p ps fb) y x = gridRead 0 fb y x := by
  rw [gridRead_drawPlots, List.filter_eq_nil_iff.2]
  · rfl
  · intro q _
    simp only [decide_eq_true_eq]
    omega

theorem tileSize_eq (z : Word) : tileSize z = (512 - z.toNat + 8) / 16 := by
  rw [tileSize, Nat.shiftRight_eq_div_pow]

/-- A pixel of the frame buffer as a number: the bank above the pen (R100, R190). -/
theorem toNat_fbPix (bank : BitVec 7) (pen : BitVec 4) :
    (fbPix bank pen).toNat = bank.toNat * 16 + pen.toNat := by
  have hbank := bank.isLt
  have hpen := pen.isLt
  have hhigh : (bank.setWidth 16 <<< 4).toNat = bank.toNat <<< 4 := by
    simp only [BitVec.toNat_shiftLeft, BitVec.toNat_setWidth, Nat.shiftLeft_eq]
    omega
  have hlow : (pen.setWidth 16).toNat = pen.toNat := by
    rw [BitVec.toNat_setWidth]
    omega
  rw [fbPix, BitVec.toNat_or, hhigh, hlow, ← Nat.shiftLeft_add_eq_or_of_lt hpen, Nat.shiftLeft_eq]

/-- The pen a tile shows at row `r` and column `c` of its scaled footprint (R187, R188). -/
def tilePen (b : Board) (code : Word) (fx fy : Bool) (zx zy : Word) (r c : Nat) : BitVec 4 :=
  tsPen b code (sourceIndex fy r (tileSize zy)) (sourceIndex fx c (tileSize zx))

theorem tilePlot_eq (b : Board) (code : Word) (bank : BitVec 7) (fx fy : Bool) (x y : Int)
    (zx zy : Word) (r c : Nat) :
    tilePlot b code bank fx fy x y (tileSize zx) (tileSize zy) r c =
      if b.params.transpen = some (tilePen b code fx fy zx zy r c) then none
      else some ⟨x + c, y + r, fbPix bank (tilePen b code fx fy zx zy r c)⟩ := rfl

/-- The writes of a tile: one for each place of its footprint whose pen is not the transparent one. -/
theorem mem_tilePlots_iff {b : Board} {code : Word} {bank : BitVec 7} {fx fy : Bool} {x y : Int}
    {zx zy : Word} {q : Plot} :
    q ∈ tilePlots b code bank fx fy x y zx zy ↔
      ∃ r c, r < tileSize zy ∧ c < tileSize zx ∧
        b.params.transpen ≠ some (tilePen b code fx fy zx zy r c) ∧
        q = ⟨x + c, y + r, fbPix bank (tilePen b code fx fy zx zy r c)⟩ := by
  simp only [tilePlots, List.mem_flatMap, List.mem_filterMap, List.mem_range, tilePlot_eq]
  constructor
  · rintro ⟨r, hr, c, hc, h⟩
    split at h
    · cases h
    · next htrans => exact ⟨r, c, hr, hc, htrans, (Option.some.inj h).symm⟩
  · rintro ⟨r, c, hr, hc, htrans, rfl⟩
    exact ⟨r, hr, c, hc, if_neg htrans⟩

/-- A tile drawn on a frame buffer, pixel by pixel (R185 to R190). -/
theorem gridRead_drawPlots_tilePlots {b : Board} {code : Word} {bank : BitVec 7} {fx fy : Bool}
    {x y : Int} {zx zy : Word} {fb : Grid Word} {px py : Nat} (hpx : px < b.params.fbW)
    (hpy : py < b.params.fbH) :
    let pen := tilePen b code fx fy zx zy (py - y).toNat (px - x).toNat
    gridRead 0 (drawPlots b.params (tilePlots b code bank fx fy x y zx zy) fb) py px =
      if x ≤ px ∧ px < x + tileSize zx ∧ y ≤ py ∧ py < y + tileSize zy ∧ b.params.transpen ≠ some pen
      then fbPix bank pen else gridRead 0 fb py px := by
  intro pen
  by_cases hin : x ≤ px ∧ px < x + tileSize zx ∧ y ≤ py ∧ py < y + tileSize zy ∧
      b.params.transpen ≠ some pen
  · obtain ⟨hx, hx', hy, hy', htrans⟩ := hin
    rw [if_pos ⟨hx, hx', hy, hy', htrans⟩]
    refine gridRead_drawPlots_of_hit hpx hpy ⟨_, mem_tilePlots_iff.2
      ⟨(py - y).toNat, (px - x).toNat, by omega, by omega, htrans, rfl⟩, ?_, ?_⟩ fun q hq hqx hqy => ?_
    · show x + ((px - x).toNat : Int) = px
      omega
    · show y + ((py - y).toNat : Int) = py
      omega
    · obtain ⟨r, c, hr, hc, -, rfl⟩ := mem_tilePlots_iff.1 hq
      obtain rfl : r = (py - y).toNat := by change y + (r : Int) = py at hqy; omega
      obtain rfl : c = (px - x).toNat := by change x + (c : Int) = px at hqx; omega
      rfl
  · rw [if_neg hin]
    refine gridRead_drawPlots_of_not_hit _ _ _ _ _ fun q hq hhit => hin ?_
    obtain ⟨r, c, hr, hc, htrans, rfl⟩ := mem_tilePlots_iff.1 hq
    obtain ⟨hqx, hqy⟩ := hhit
    change x + (c : Int) = px at hqx
    change y + (r : Int) = py at hqy
    have hrow : (py - y).toNat = r := by omega
    have hcol : (px - x).toNat = c := by omega
    refine ⟨by omega, by omega, by omega, by omega, ?_⟩
    rwa [show pen = tilePen b code fx fy zx zy r c by rw [← hrow, ← hcol]]

/-- Settles O47. -/
theorem zoomBlit : Obligations.ZoomBlit := by
  unfold Obligations.ZoomBlit
  intro code bank fx fy x y zx zy s hzx hzy
  refine ⟨_, if_pos ⟨hzx, hzy⟩, fun px py hpx hpy => ?_,
    fun px py hout => gridRead_drawPlots_outside hout _ _, rfl⟩
  rw [← tileSize_eq, ← tileSize_eq]
  have hpixel := gridRead_drawPlots_tilePlots (b := s.cfg) (code := code) (bank := bank) (fx := fx)
    (fy := fy) (x := x) (y := y) (zx := zx) (zy := zy) (fb := s.tbl.fb) hpx hpy
  intro sc sr pen
  by_cases hin : x ≤ px ∧ px < x + tileSize zx ∧ y ≤ py ∧ py < y + tileSize zy ∧
      s.cfg.params.transpen ≠ some pen
  · rw [if_pos hin]
    exact (congrArg BitVec.toNat (hpixel.trans (if_pos hin))).trans (toNat_fbPix bank pen)
  · rw [if_neg hin]
    exact hpixel.trans (if_neg hin)

/-! ## Commands and lists (R170, R173, R175, R179 to R184, R191 to R193, R197)

Every drawing command comes down to its pixel writes: the strip and the grid are loops whose passes add
one tile's writes each, and a run adds one record's writes each. -/

/-! ### Strips -/

theorem stripCodeAt_lt (code : Word) (n : Nat) : stripCodeAt code n < 65536 := by
  cases n with
  | zero => exact code.isLt
  | succ n =>
    rw [stripCodeAt, nextCodeNat]
    split <;> omega

/-- One more column of a strip, one more step of its code. -/
theorem nextCodeOf_stripCodeAt (code : Word) (n : Nat) :
    nextCodeOf (BitVec.ofNat 16 (stripCodeAt code n)) = BitVec.ofNat 16 (stripCodeAt code (n + 1)) := by
  rw [← BitVec.toNat_inj, toNat_nextCodeOf, BitVec.toNat_ofNat, BitVec.toNat_ofNat,
    Nat.mod_eq_of_lt (stripCodeAt_lt code n), Nat.mod_eq_of_lt (stripCodeAt_lt code (n + 1)), stripCodeAt]

theorem tileOffset_eq (n pitch : Nat) (z : Word) :
    tileOffset n pitch z = n * pitch * (512 - z.toNat) / 256 := by
  rw [tileOffset, Nat.shiftRight_eq_div_pow]

theorem tilesOf_eq (size : Word) : tilesOf size = (size.toNat + 15) / 16 := by
  rw [tilesOf, Nat.shiftRight_eq_div_pow]

/-- The writes of the first `n` columns of a strip of registers. -/
def stripPlots (b : Board) (t : Tbl) (n : Nat) : List Plot :=
  (List.range n).flatMap fun i =>
    tilePlots b (BitVec.ofNat 16 (stripCodeAt t.code i)) t.bank t.flipx t.flipy
      (t.dx + (i * 16 * (512 - t.zx.toNat) / 256 : Nat)) t.dy t.zx t.zy

theorem stripPlots_succ (b : Board) (t : Tbl) (n : Nat) :
    stripPlots b t (n + 1) = stripPlots b t n ++
      tilePlots b (BitVec.ofNat 16 (stripCodeAt t.code n)) t.bank t.flipx t.flipy
        (t.dx + (n * 16 * (512 - t.zx.toNat) / 256 : Nat)) t.dy t.zx t.zy := by
  simp only [stripPlots, List.range_succ, List.flatMap_append, List.flatMap_singleton]

/-- BLT.DIRECT on the decoded registers: the strip's writes in order, and the code after its last
column. -/
theorem drawStrip_eq (b : Board) (t : Tbl) :
    drawStrip b t = { t with
      stripCode := BitVec.ofNat 16 (stripCodeAt t.code (tilesOf t.sw))
      fb := drawPlots b.params (stripPlots b t (tilesOf t.sw)) t.fb } := by
  unfold drawStrip
  refine loop_rule (fun n x => x = { t with
    stripCode := BitVec.ofNat 16 (stripCodeAt t.code n)
    fb := drawPlots b.params (stripPlots b t n) t.fb }) ?_ ?_
  · simp only [stripCodeAt, BitVec.ofNat_toNat, BitVec.setWidth_eq]
    rfl
  · rintro n - x rfl
    rw [stripPlots_succ, drawPlots_append, ← nextCodeOf_stripCodeAt, ← tileOffset_eq]
    simp only [drawAt, drawTile, advanceCode, Config.tile, Int.natCast_zero, Int.add_zero]

/-! ### Grids -/

/-- The writes of the first `n` columns of row `j` of a grid of registers. -/
def rowPlots (b : Board) (pitch j : Nat) (t : Tbl) (n : Nat) : List Plot :=
  (List.range n).flatMap fun i =>
    tilePlots b (gridCode b pitch i j t) t.bank t.flipx t.flipy
      (t.dx + (i * pitch * (512 - t.zx.toNat) / 256 : Nat))
      (t.dy + (j * pitch * (512 - t.zy.toNat) / 256 : Nat)) t.zx t.zy

/-- The writes of the first `n` rows. -/
def gridRows (b : Board) (pitch cols : Nat) (t : Tbl) (n : Nat) : List Plot :=
  (List.range n).flatMap fun j => rowPlots b pitch j t cols

theorem drawRow_eq (b : Board) (pitch j n : Nat) (t : Tbl) :
    loop n (fun i t =>
      drawAt b (gridCode b pitch i j t) (tileOffset i pitch t.zx) (tileOffset j pitch t.zy) t) t =
      { t with fb := drawPlots b.params (rowPlots b pitch j t n) t.fb } := by
  refine loop_rule (fun n x => x = { t with fb := drawPlots b.params (rowPlots b pitch j t n) t.fb })
    rfl ?_
  rintro i - x rfl
  simp only [rowPlots, List.range_succ, List.flatMap_append, List.flatMap_singleton, drawPlots_append,
    ← tileOffset_eq]
  rfl

/-- The two tilemap commands on the decoded registers: the grid's writes in order. -/
theorem drawGrid_eq (b : Board) (pitch mult : Nat) (t : Tbl) :
    drawGrid b pitch mult t = { t with
      fb := drawPlots b.params
        (gridRows b pitch (mult * tilesOf t.sw) t (mult * tilesOf t.sh)) t.fb } := by
  unfold drawGrid
  refine loop_rule (fun n x => x = { t with
    fb := drawPlots b.params (gridRows b pitch (mult * tilesOf t.sw) t n) t.fb }) rfl ?_
  rintro j - x rfl
  rw [drawRow_eq]
  simp only [gridRows, List.range_succ, List.flatMap_append, List.flatMap_singleton, drawPlots_append]
  rfl

/-! ### The drawing commands -/

theorem flipAdjust_eq (b : Board) (t : Tbl) :
    flipAdjust b t = { t with
      dx := if t.flipscr then mirrored b.params.fbW t.dx t.sw else t.dx
      dy := if t.flipscr then mirrored b.params.fbH t.dy t.sh else t.dy
      flipx := t.flipx ^^ t.flipscr
      flipy := t.flipy ^^ t.flipscr } := by
  by_cases h : t.flipscr = true
  · rw [flipAdjust_of_set h, if_pos h, if_pos h, h, Bool.xor_true, Bool.xor_true, ← h]
  · have hclear : t.flipscr = false := eq_false_of_ne_true h
    rw [flipAdjust_of_clear hclear, if_neg h, if_neg h, hclear, Bool.xor_false, Bool.xor_false, ← hclear]

/-- A destination coordinate after decode and screen flip (R174, R176). -/
theorem placedAt_eq (flipscr : Bool) (edge : Nat) (v : BitVec 9) (size : Word) :
    (if flipscr then mirrored edge (destCoord edge v) size else destCoord edge v) =
      placedAt flipscr edge v size := rfl

theorem isDrawn_of_class {sw sh zx zy : Word} (h0 : ¬ (sw.toNat = 0 ∧ sh.toNat = 0))
    (hsw : sw.toNat < 512) (hsh : sh.toNat < 256) (hzx : zx.toNat < 0x1F0) (hzy : zy.toNat < 0x1F0) :
    isDrawn sw sh zx zy = true := by
  rw [isDrawn_eq_true_iff, isSentinel_eq_true_iff, guardPasses_eq_true_iff, ← BitVec.toNat_inj,
    ← BitVec.toNat_inj]
  exact ⟨h0, hsw, hsh, hzx, hzy⟩

/-- Settles O50: the strip of the loaded and flipped registers. -/
theorem directMode : Obligations.DirectMode := by
  unfold Obligations.DirectMode
  intro code xi yi fx fy bank sw sh zx zy s h0 hsw hsh hzx hzy
  refine (if_pos (isDrawn_of_class h0 hsw hsh hzx hzy)).trans (congrArg Host.Outcome.next ?_)
  simp only [onTbl, drawStrip_eq, flipAdjust_eq, loadCommon, placedAt_eq, tilesOf_eq]
  rfl

/-- Settles O51: the grid of the loaded and flipped registers, in either pitch. -/
theorem tilemapModes : Obligations.TilemapModes := by
  unfold Obligations.TilemapModes
  intro xi yi fx fy bank sw sh spx spy zx zy s h0 hsw hsh hzx hzy
  have hdrawn := isDrawn_of_class h0 hsw hsh hzx hzy
  refine ⟨(if_pos hdrawn).trans (congrArg Host.Outcome.next ?_),
    (if_pos hdrawn).trans (congrArg Host.Outcome.next ?_)⟩
  · simp only [onTbl, drawTilemap, drawGrid_eq, flipAdjust_eq, loadTilemap, loadCommon, placedAt_eq,
      tilesOf_eq]
    rfl
  · simp only [onTbl, drawCondensed, drawGrid_eq, flipAdjust_eq, loadTilemap, loadCommon, placedAt_eq,
      tilesOf_eq]
    rfl

end Sys2Proof.Machine

/-! ## EXEC.CMD and the list run (R170, R173, R175, R191 to R193, R197) -/

namespace Sys2Proof.Machine

/-! ### The writes of one record -/

/-- EXEC.CMD draws the pixel writes of the record at CMDPTR, in order. -/
theorem runCommand_fb (b : Board) (t : Tbl) :
    (runCommand b t).fb =
      drawPlots b.params (recordPlots b t.ram t.flipscr (ramRecord b.params t.ram t.cmdptr)) t.fb := by
  rw [runCommand_eq]
  unfold recordPlots
  generalize hw : ramRecord b.params t.ram t.cmdptr = w
  have hdecoded : decodeFields b (fetchCommand b t) = decodeFields b { t with w := w } := by
    rw [fetchCommand, hw]
  simp only [hdecoded]
  cases classify w.sw w.sh w.zx w.zy w.tm w.cond with
  | skip0 | skipg => rfl
  | direct =>
    simp only [runClass, drawStrip_eq, flipAdjust_eq, tilesOf_eq]
    rfl
  | tmap =>
    simp only [runClass, drawTilemap, drawGrid_eq, flipAdjust_eq, tilesOf_eq]
    rfl
  | tmapc =>
    simp only [runClass, drawCondensed, drawGrid_eq, flipAdjust_eq, tilesOf_eq]
    rfl

theorem execExecCmd_of_room {s : State} (hroom : s.tbl.cmdptr + 16 ≤ s.cfg.params.ramWords) :
    execExecCmd s = .next (onTbl (runCommand s.cfg) s) := if_pos (recordInRam_eq_true_iff.2 hroom)

theorem exec_execCmd (s : State) : exec .execCmd s = execExecCmd s := rfl

/-! ### EXEC.CMD as the operation its record decodes to -/

/-- The 32 bytes of RAM at a word address are the record there (R64). -/
theorem decodeBytes_ram (p : Params) (m : Memory Byte) (a : Nat) :
    decodeBytes p.ramByteOrder ((List.range 32).map fun j => memRead 0 m (2 * a + j)) =
      .ok (decodeCommand (ramRecord p m a), []) := by
  have hrecord : recordOfBytes p.ramByteOrder
      ((List.range 32).map fun j => memRead 0 m (2 * a + j)) = ramRecord p m a := by
    refine Vector.ext fun j hj => ?_
    have hbyte (n : Nat) (hn : n < 32) :
        ((List.range 32).map fun j => memRead 0 m (2 * a + j)).getD n 0 = memRead 0 m (2 * a + n) := by
      simp [List.getD, List.getElem?_range hn]
    simp only [recordOfBytes, ramRecord, Vector.getElem_ofFn, ramRead]
    rw [hbyte _ (by omega), hbyte _ (by omega), Nat.mul_add, Nat.add_assoc]
  unfold decodeBytes
  rw [if_neg (by simp [Config.cmdWords]), hrecord]
  rfl

/-- The mode bits of a class that draws (R104). -/
theorem modeBits_of_classify {sw sh zx zy : Word} {tm cond : Bool} :
    (classify sw sh zx zy tm cond = .direct → tm = false) ∧
    (classify sw sh zx zy tm cond = .tmap → tm = true ∧ cond = false) ∧
    (classify sw sh zx zy tm cond = .tmapc → tm = true ∧ cond = true) := by
  unfold classify
  split_ifs <;> simp_all

/-- Loading a direct command's fields again changes nothing. -/
theorem loadCommon_decodeFields (b : Board) {t : Tbl} (h : t.w.tm = false) :
    { loadCommon b.params t.w.xi t.w.yi t.w.fx t.w.fy t.w.bank t.w.sw t.w.sh t.w.zx t.w.zy
        (decodeFields b t) with code := t.w.code, tmap := false } = decodeFields b t := by
  rw [← h]
  rfl

/-- Loading a tilemap command's fields again changes nothing. -/
theorem loadTilemap_decodeFields (b : Board) {t : Tbl} (h : t.w.tm = true) :
    loadTilemap b.params t.w.xi t.w.yi t.w.fx t.w.fy t.w.cond t.w.bank t.w.sw t.w.sh t.w.spx t.w.spy
      t.w.zx t.w.zy (decodeFields b t) = decodeFields b t := by
  unfold loadTilemap
  rw [← h]
  rfl

/-- After CMD.FETCH and CMD.DECODE, the operation of the decoded record runs the record's class: a
drawing operation loads into the registers what they hold already (log 16). -/
theorem exec_decodeCommand_decoded {s : State} {t : Tbl} (ht : s.tbl = decodeFields s.cfg t) :
    exec (decodeCommand t.w) s =
      .next (onTbl (runClass s.cfg (classify t.w.sw t.w.sh t.w.zx t.w.zy t.w.tm t.w.cond)) s) := by
  have drawn (h0 : classify t.w.sw t.w.sh t.w.zx t.w.zy t.w.tm t.w.cond ≠ .skip0)
      (hg : classify t.w.sw t.w.sh t.w.zx t.w.zy t.w.tm t.w.cond ≠ .skipg) :
      isDrawn t.w.sw t.w.sh t.w.zx t.w.zy = true := isDrawn_of_classify t.w.tm t.w.cond h0 hg
  obtain ⟨hdirect, htmap, htmapc⟩ := modeBits_of_classify (sw := t.w.sw) (sh := t.w.sh) (zx := t.w.zx)
    (zy := t.w.zy) (tm := t.w.tm) (cond := t.w.cond)
  unfold decodeCommand
  cases hc : classify t.w.sw t.w.sh t.w.zx t.w.zy t.w.tm t.w.cond with
  | skip0 | skipg => rfl
  | direct =>
    have hload := loadCommon_decodeFields s.cfg (hdirect hc)
    rw [← ht] at hload
    refine (if_pos (drawn (by simp [hc]) (by simp [hc]))).trans ?_
    simp only [onTbl, runClass, hload]
  | tmap =>
    obtain ⟨htm, hcond⟩ := htmap hc
    have hload := loadTilemap_decodeFields s.cfg htm
    rw [hcond, ← ht] at hload
    refine (if_pos (drawn (by simp [hc]) (by simp [hc]))).trans ?_
    simp only [onTbl, runClass, hload]
  | tmapc =>
    obtain ⟨htm, hcond⟩ := htmapc hc
    have hload := loadTilemap_decodeFields s.cfg htm
    rw [hcond, ← ht] at hload
    refine (if_pos (drawn (by simp [hc]) (by simp [hc]))).trans ?_
    simp only [onTbl, runClass, hload]

/-- Settles O7: the bytes are the record, and the decoded operation runs its class. -/
theorem execCmdRunsDecodedRecord : Obligations.ExecCmdRunsDecodedRecord := by
  unfold Obligations.ExecCmdRunsDecodedRecord
  intro s hroom
  have hfetch : exec .cmdFetch s = .next (onTbl (fetchCommand s.cfg) s) :=
    if_pos (recordInRam_eq_true_iff.2 hroom)
  have hdecode : exec .cmdDecode (onTbl (fetchCommand s.cfg) s) =
      .next (onTbl (decodeFields s.cfg) (onTbl (fetchCommand s.cfg) s)) := rfl
  have hop := exec_decodeCommand_decoded (t := fetchCommand s.cfg s.tbl)
    (s := onTbl (decodeFields s.cfg) (onTbl (fetchCommand s.cfg) s)) rfl
  rw [fetchCommand_w, onTbl_cfg, onTbl_cfg, onTbl_onTbl, onTbl_onTbl] at hop
  refine ⟨decodeCommand (ramRecord s.cfg.params s.tbl.ram s.tbl.cmdptr), onTbl (runCommand s.cfg) s,
    decodeBytes_ram s.cfg.params s.tbl.ram s.tbl.cmdptr, execExecCmd_of_room hroom, ?_⟩
  rw [hfetch, andThen_next, hdecode, andThen_next, onTbl_onTbl, hop]
  unfold onTbl
  rw [runCommand_eq]

/-! ### The list run -/

theorem recordCount_of_room {p : Params} {a : Nat} (h : a + 16 ≤ p.ramWords) :
    recordCount p a = recordCount p (a + 16) + 1 := by
  unfold recordCount
  omega

theorem recordCount_of_no_room {p : Params} {a : Nat} (h : ¬ a + 16 ≤ p.ramWords) :
    recordCount p a = 0 := by
  unfold recordCount
  omega

/-- The writes of a run are its first record's, then those of the run from the next record. -/
theorem runPlots_of_room {b : Board} {a : Nat} (ram : Memory Byte) (flipscr : Bool)
    (h : a + 16 ≤ b.params.ramWords) :
    runPlots b ram flipscr a =
      recordPlots b ram flipscr (ramRecord b.params ram a) ++ runPlots b ram flipscr (a + 16) := by
  unfold runPlots
  have shift (n : Nat) : a + 16 * Nat.succ n = a + 16 + 16 * n := by omega
  rw [recordCount_of_room h, List.range_succ_eq_map, List.flatMap_cons, List.flatMap_map,
    Nat.mul_zero, Nat.add_zero]
  simp only [shift]

theorem runPlots_of_no_room {b : Board} {a : Nat} (ram : Memory Byte) (flipscr : Bool)
    (h : ¬ a + 16 ≤ b.params.ramWords) : runPlots b ram flipscr a = [] := by
  unfold runPlots
  rw [recordCount_of_no_room h]
  rfl

/-- What a run from CMDPTR leaves: the writes of its records, CMDPTR after the last of them, and the
registers no command writes. -/
structure RunResult (b : Board) (t u : Tbl) : Prop where
  fb : u.fb = drawPlots b.params (runPlots b t.ram t.flipscr t.cmdptr) t.fb
  cmdptr : u.cmdptr = t.cmdptr + 16 * recordCount b.params t.cmdptr
  ram : u.ram = t.ram
  gfxlist : u.gfxlist = t.gfxlist
  flipscr : u.flipscr = t.flipscr

theorem runResult_of_no_room {b : Board} {t : Tbl} (h : ¬ t.cmdptr + 16 ≤ b.params.ramWords) :
    RunResult b t t where
  fb := by rw [runPlots_of_no_room _ _ h, drawPlots_nil]
  cmdptr := by rw [recordCount_of_no_room h, Nat.mul_zero, Nat.add_zero]
  ram := rfl
  gfxlist := rfl
  flipscr := rfl

/-- One record more at the front. -/
theorem RunResult.cons {b : Board} {t u : Tbl} (h : t.cmdptr + 16 ≤ b.params.ramWords)
    (hu : RunResult b (advancePtr (runCommand b t)) u) : RunResult b t u := by
  have hptr : (advancePtr (runCommand b t)).cmdptr = t.cmdptr + 16 := by
    rw [advancePtr_cmdptr, runCommand_cmdptr, Config.cmdWords]
  obtain ⟨hfb, hcmdptr, hram, hgfxlist, hflipscr⟩ := hu
  rw [hptr] at hfb hcmdptr
  simp only [advancePtr_ram, advancePtr_gfxlist, advancePtr_flipscr, advancePtr_fb, runCommand_ram,
    runCommand_gfxlist, runCommand_flipscr] at hfb hram hgfxlist hflipscr
  refine ⟨?_, ?_, hram, hgfxlist, hflipscr⟩
  · rw [hfb, runCommand_fb, runPlots_of_room _ _ h, drawPlots_append]
  · rw [hcmdptr, recordCount_of_room h]
    omega

/-- A bound of at least the number of records lets the loop run to the end of RAM. -/
theorem runResult_runFrom {b : Board} {n : Nat} {t : Tbl} (h : recordCount b.params t.cmdptr ≤ n) :
    RunResult b t (runFrom b n t) := by
  induction n generalizing t with
  | zero =>
    refine runResult_of_no_room fun hroom => ?_
    rw [recordCount_of_room hroom] at h
    omega
  | succ n ih =>
    by_cases hroom : t.cmdptr + 16 ≤ b.params.ramWords
    · rw [runFrom_succ_of_recordInRam (recordInRam_eq_true_iff.2 hroom)]
      refine .cons hroom (ih ?_)
      rw [recordCount_of_room hroom] at h
      rw [advancePtr_cmdptr, runCommand_cmdptr, Config.cmdWords]
      omega
    · rw [runFrom_succ_of_not_recordInRam (mt recordInRam_eq_true_iff.1 hroom)]
      exact runResult_of_no_room hroom

/-- The whole run, from GFXLIST (R170). -/
theorem runResult_runList (b : Board) (t : Tbl) : RunResult b (startRun t) (runList b t) := by
  rw [runList_eq]
  refine runResult_runFrom ?_
  unfold recordCount
  omega

theorem exec_listRun (s : State) : exec .listRun s = .next (onTbl (runList s.cfg) s) := rfl

theorem exec_blitgoW (v : Nat) (s : State) : exec (.blitgoW v) s = .next (onTbl (runList s.cfg) s) := rfl

/-- Settles O52. -/
theorem listRun : Obligations.ListRun := by
  unfold Obligations.ListRun
  intro v s
  have hrun := runResult_runList s.cfg s.tbl
  exact ⟨_, exec_blitgoW v s, exec_listRun s, hrun.fb, hrun.cmdptr, hrun.ram, hrun.gfxlist,
    hrun.flipscr, rfl⟩

/-- A pixel after writes made twice is that after writes made once. -/
theorem gridRead_drawPlots_twice (p : Params) (ps : List Plot) (fb : Grid Word) (x y : Nat) :
    gridRead 0 (drawPlots p ps (drawPlots p ps fb)) y x = gridRead 0 (drawPlots p ps fb) y x := by
  rw [gridRead_drawPlots, gridRead_drawPlots]
  cases (ps.filter fun q : Plot => decide (q.x = x ∧ q.y = y ∧ x < p.fbW ∧ y < p.fbH)).getLast? <;> rfl

/-- Settles O53: the second run makes the first run's writes again. -/
theorem runTwiceIsRunOnce : Obligations.RunTwiceIsRunOnce := by
  unfold Obligations.RunTwiceIsRunOnce
  intro v v' s t u ht hu x y
  rw [exec_blitgoW] at ht hu
  cases ht
  cases hu
  have first := runResult_runList s.cfg s.tbl
  have second := runResult_runList s.cfg (runList s.cfg s.tbl)
  show gridRead 0 (runList s.cfg (runList s.cfg s.tbl)).fb y x = gridRead 0 (runList s.cfg s.tbl).fb y x
  rw [second.fb]
  have hstart : (startRun (runList s.cfg s.tbl)).fb = drawPlots s.cfg.params
      (runPlots s.cfg s.tbl.ram s.tbl.flipscr s.tbl.gfxlist.toNat) s.tbl.fb := first.fb
  have hsame : runPlots s.cfg (startRun (runList s.cfg s.tbl)).ram (startRun (runList s.cfg s.tbl)).flipscr
      (startRun (runList s.cfg s.tbl)).cmdptr =
        runPlots s.cfg s.tbl.ram s.tbl.flipscr s.tbl.gfxlist.toNat := by
    show runPlots s.cfg (runList s.cfg s.tbl).ram (runList s.cfg s.tbl).flipscr
      (runList s.cfg s.tbl).gfxlist.toNat = _
    rw [first.ram, first.flipscr, first.gfxlist]
    rfl
  rw [hstart, hsame, first.fb]
  exact gridRead_drawPlots_twice ..

/-! ### How many writes, and of what -/

/-- Whatever a record writes comes of the tiles of its class. -/
theorem mem_recordPlots {b : Board} {ram : Memory Byte} {flipscr : Bool} {w : Command} {q : Plot}
    (h : q ∈ recordPlots b ram flipscr w) :
    ∃ (code : Word) (bank : BitVec 7) (fx fy : Bool) (x y : Int) (zx zy : Word),
      q ∈ tilePlots b code bank fx fy x y zx zy := by
  unfold recordPlots at h
  generalize classify w.sw w.sh w.zx w.zy w.tm w.cond = c at h
  cases c with
  | skip0 | skipg => cases h
  | direct =>
    obtain ⟨n, -, hq⟩ := List.mem_flatMap.1 h
    exact ⟨_, _, _, _, _, _, _, _, hq⟩
  | tmap | tmapc =>
    obtain ⟨j, -, hrow⟩ := List.mem_flatMap.1 h
    obtain ⟨n, -, hq⟩ := List.mem_flatMap.1 hrow
    exact ⟨_, _, _, _, _, _, _, _, hq⟩

/-- Every pixel a tile writes has bits 15:11 zero (R100). -/
theorem toNat_v_lt_of_mem_tilePlots {b : Board} {code : Word} {bank : BitVec 7} {fx fy : Bool}
    {x y : Int} {zx zy : Word} {q : Plot} (h : q ∈ tilePlots b code bank fx fy x y zx zy) :
    q.v.toNat < 2048 := by
  obtain ⟨r, c, -, -, -, -, hv⟩ := tilePlots_mem h
  rw [hv, toNat_fbPix]
  omega

/-- Every pixel a record writes has bits 15:11 zero. -/
theorem toNat_v_lt_of_mem_recordPlots {b : Board} {ram : Memory Byte} {flipscr : Bool} {w : Command}
    {q : Plot} (h : q ∈ recordPlots b ram flipscr w) : q.v.toNat < 2048 := by
  obtain ⟨code, bank, fx, fy, x, y, zx, zy, htile⟩ := mem_recordPlots h
  exact toNat_v_lt_of_mem_tilePlots htile

theorem length_flatMap_le {α β : Type} {l : List α} {f : α → List β} {k : Nat}
    (h : ∀ a ∈ l, (f a).length ≤ k) : (l.flatMap f).length ≤ l.length * k := by
  rw [List.length_flatMap]
  refine (List.sum_le_card_nsmul _ k fun n hn => ?_).trans_eq (by simp)
  obtain ⟨a, ha, rfl⟩ := List.mem_map.1 hn
  exact h a ha

theorem tileSize_le (z : Word) : tileSize z ≤ 32 := by
  rw [tileSize_eq]
  omega

/-- A tile makes at most 32 by 32 writes. -/
theorem length_tilePlots_le (b : Board) (code : Word) (bank : BitVec 7) (fx fy : Bool) (x y : Int)
    (zx zy : Word) : (tilePlots b code bank fx fy x y zx zy).length ≤ 1024 := by
  have hrow : ∀ r ∈ List.range (tileSize zy), ((List.range (tileSize zx)).filterMap fun c =>
      tilePlot b code bank fx fy x y (tileSize zx) (tileSize zy) r c).length ≤ 32 := fun r _ =>
    ((List.length_filterMap_le _ _).trans_eq List.length_range).trans (tileSize_le zx)
  refine (length_flatMap_le hrow).trans ?_
  rw [List.length_range]
  have := tileSize_le zy
  omega

/-- Without a transparent pen a tile writes its whole footprint. -/
theorem length_tilePlots_of_none {b : Board} (h : b.params.transpen = none) (code : Word)
    (bank : BitVec 7) (fx fy : Bool) (x y : Int) (zx zy : Word) :
    (tilePlots b code bank fx fy x y zx zy).length = tileSize zx * tileSize zy := by
  have hplot (r c : Nat) : tilePlot b code bank fx fy x y (tileSize zx) (tileSize zy) r c =
      some ⟨x + c, y + r, fbPix bank (tilePen b code fx fy zx zy r c)⟩ := by
    rw [tilePlot_eq, h, if_neg nofun]
  simp only [tilePlots, hplot, List.filterMap_eq_map', List.length_flatMap, List.length_map,
    List.length_range, List.map_const', List.sum_replicate, smul_eq_mul, Nat.mul_comm]

/-- A strip makes at most as many tiles' writes as it has columns. -/
theorem length_directPlots_le (b : Board) (flipscr : Bool) (code : Word) (xi yi : BitVec 9)
    (fx fy : Bool) (bank : BitVec 7) (sw sh zx zy : Word) :
    (directPlots b flipscr code xi yi fx fy bank sw sh zx zy).length ≤ (sw.toNat + 15) / 16 * 1024 := by
  refine (length_flatMap_le fun n _ => length_tilePlots_le ..).trans_eq ?_
  rw [List.length_range]

/-- A grid makes at most as many tiles' writes as it has places. -/
theorem length_gridPlots_le (b : Board) (ram : Memory Byte) (pitch mult : Nat) (flipscr : Bool)
    (xi yi : BitVec 9) (fx fy : Bool) (bank : BitVec 7) (sw sh : Word) (spx spy : BitVec 12)
    (zx zy : Word) :
    (gridPlots b ram pitch mult flipscr xi yi fx fy bank sw sh spx spy zx zy).length ≤
      mult * ((sh.toNat + 15) / 16) * (mult * ((sw.toNat + 15) / 16) * 1024) := by
  refine (length_flatMap_le fun j _ => ?_).trans_eq (by rw [List.length_range])
  refine (length_flatMap_le fun n _ => length_tilePlots_le ..).trans_eq ?_
  rw [List.length_range]

/-- The sizes of a command that is drawn (R104). -/
theorem sizes_lt_of_isDrawn {sw sh zx zy : Word} (h : isDrawn sw sh zx zy = true) :
    sw.toNat < 512 ∧ sh.toNat < 256 := by
  obtain ⟨-, hguard⟩ := isDrawn_eq_true_iff.1 h
  obtain ⟨hsw, hsh, -, -⟩ := guardPasses_eq_true_iff.1 hguard
  exact ⟨hsw, hsh⟩

/-- The class of a record that writes anything: drawn, and in the mode of its mode bits. -/
theorem isDrawn_of_class_ne {w : Command} {c : CmdClass}
    (hc : classify w.sw w.sh w.zx w.zy w.tm w.cond = c) (h0 : c ≠ .skip0) (hg : c ≠ .skipg) :
    isDrawn w.sw w.sh w.zx w.zy = true :=
  isDrawn_of_classify w.tm w.cond (hc ▸ h0) (hc ▸ hg)

/-- A record makes at most 2048 tiles' writes, a direct one at most 32 (R193). -/
theorem length_recordPlots_le (b : Board) (ram : Memory Byte) (flipscr : Bool) (w : Command) :
    (recordPlots b ram flipscr w).length ≤ 2097152 ∧
      (w.tm = false → (recordPlots b ram flipscr w).length ≤ 32768) := by
  obtain ⟨-, htmap, htmapc⟩ := modeBits_of_classify (sw := w.sw) (sh := w.sh) (zx := w.zx)
    (zy := w.zy) (tm := w.tm) (cond := w.cond)
  unfold recordPlots
  cases hc : classify w.sw w.sh w.zx w.zy w.tm w.cond with
  | skip0 | skipg => exact ⟨Nat.zero_le _, fun _ => Nat.zero_le _⟩
  | direct =>
    obtain ⟨hsw, -⟩ := sizes_lt_of_isDrawn (isDrawn_of_class_ne hc nofun nofun)
    have hlen := length_directPlots_le b flipscr w.code w.xi w.yi w.fx w.fy w.bank w.sw w.sh w.zx w.zy
    have hcols : (w.sw.toNat + 15) / 16 * 1024 ≤ 32768 := by omega
    exact ⟨(hlen.trans hcols).trans (by decide), fun _ => hlen.trans hcols⟩
  | tmap =>
    obtain ⟨hsw, hsh⟩ := sizes_lt_of_isDrawn (isDrawn_of_class_ne hc nofun nofun)
    have hlen := length_gridPlots_le b ram 16 1 flipscr w.xi w.yi w.fx w.fy w.bank w.sw w.sh w.spx
      w.spy w.zx w.zy
    have hrows : 1 * ((w.sh.toNat + 15) / 16) ≤ 32 := by omega
    have hcols : 1 * ((w.sw.toNat + 15) / 16) * 1024 ≤ 65536 := by omega
    refine ⟨hlen.trans (Nat.mul_le_mul hrows hcols), fun htm => ?_⟩
    rw [(htmap hc).1] at htm
    cases htm
  | tmapc =>
    obtain ⟨hsw, hsh⟩ := sizes_lt_of_isDrawn (isDrawn_of_class_ne hc nofun nofun)
    have hlen := length_gridPlots_le b ram 8 2 flipscr w.xi w.yi w.fx w.fy w.bank w.sw w.sh w.spx
      w.spy w.zx w.zy
    have hrows : 2 * ((w.sh.toNat + 15) / 16) ≤ 32 := by omega
    have hcols : 2 * ((w.sw.toNat + 15) / 16) * 1024 ≤ 65536 := by omega
    refine ⟨hlen.trans (Nat.mul_le_mul hrows hcols), fun htm => ?_⟩
    rw [(htmapc hc).1] at htm
    cases htm

/-- Settles O55. -/
theorem runIsBounded : Obligations.RunIsBounded := by
  unfold Obligations.RunIsBounded
  refine ⟨fun v s => ?_, fun s hroom => ?_⟩
  · have hrun := runResult_runList s.cfg s.tbl
    refine ⟨_, recordCount s.cfg.params s.tbl.gfxlist.toNat, exec_listRun s, exec_blitgoW v s, ?_,
      hrun.cmdptr, hrun.fb, ?_, fun q hq => ?_⟩
    · unfold recordCount
      omega
    · refine (length_flatMap_le fun n _ => (length_recordPlots_le ..).1).trans_eq ?_
      rw [List.length_range, Nat.mul_comm]
    · obtain ⟨n, -, hrecord⟩ := List.mem_flatMap.1 hq
      exact toNat_v_lt_of_mem_recordPlots hrecord
  · obtain ⟨hle, hdirect⟩ := length_recordPlots_le s.cfg s.tbl.ram s.tbl.flipscr
      (ramRecord s.cfg.params s.tbl.ram s.tbl.cmdptr)
    rw [exec_execCmd, execExecCmd_of_room hroom]
    exact ⟨_, rfl, runCommand_fb s.cfg s.tbl, hle, hdirect⟩

/-! ### Empty draws -/

theorem recordPlots_of_isSkip {b : Board} {w : Command} (h : IsSkip w) (ram : Memory Byte)
    (flipscr : Bool) : recordPlots b ram flipscr w = [] := by
  unfold recordPlots
  obtain h0 | hg := h
  · rw [h0]
  · rw [hg]

/-- A strip or a grid without columns draws nothing (R192). -/
theorem recordPlots_of_zero_width {b : Board} {w : Command} (h : w.sw = 0#16) (ram : Memory Byte)
    (flipscr : Bool) : recordPlots b ram flipscr w = [] := by
  unfold recordPlots
  rw [h]
  cases classify 0#16 w.sh w.zx w.zy w.tm w.cond with
  | skip0 | skipg | direct => rfl
  | tmap | tmapc => exact List.flatMap_eq_nil_iff.2 fun _ _ => rfl

/-- A grid without rows draws nothing (R192). -/
theorem recordPlots_of_zero_height {b : Board} {w : Command} (h : w.sh = 0#16) (htm : w.tm = true)
    (ram : Memory Byte) (flipscr : Bool) : recordPlots b ram flipscr w = [] := by
  obtain ⟨hdirect, -, -⟩ := modeBits_of_classify (sw := w.sw) (sh := w.sh) (zx := w.zx)
    (zy := w.zy) (tm := w.tm) (cond := w.cond)
  unfold recordPlots
  rw [h] at hdirect ⊢
  cases hc : classify w.sw 0#16 w.zx w.zy w.tm w.cond with
  | skip0 | skipg | tmap | tmapc => rfl
  | direct =>
    rw [hdirect hc] at htm
    cases htm

/-- With both sizes one and no transparent pen, a record writes one tile, or four in condensed mode
(R197). -/
theorem length_recordPlots_of_one {b : Board} {w : Command} (hnone : b.params.transpen = none)
    (hsw : w.sw = 1#16) (hsh : w.sh = 1#16) (hzx : w.zx.toNat < 0x1F0) (hzy : w.zy.toNat < 0x1F0)
    (ram : Memory Byte) (flipscr : Bool) :
    (recordPlots b ram flipscr w).length =
      (if w.tm && w.cond then 4 else 1) * (tileSize w.zx * tileSize w.zy) := by
  have hdrawn : isDrawn w.sw w.sh w.zx w.zy = true := by
    rw [hsw, hsh]
    exact isDrawn_of_class (by decide) (by decide) (by decide) hzx hzy
  unfold recordPlots
  rw [classify_of_isDrawn hdrawn, hsw, hsh]
  cases htm : w.tm with
  | false =>
    simp [directPlots, length_tilePlots_of_none hnone]
  | true =>
    cases hcond : w.cond with
    | false => simp [gridPlots, length_tilePlots_of_none hnone]
    | true => simp [gridPlots, List.length_flatMap, length_tilePlots_of_none hnone]; omega

/-- Settles O54. -/
theorem sentinelProperty : Obligations.SentinelProperty := by
  unfold Obligations.SentinelProperty
  intro s hroom w writes
  rw [exec_execCmd, execExecCmd_of_room hroom]
  have hfb : (runCommand s.cfg s.tbl).fb = drawPlots s.cfg.params writes s.tbl.fb :=
    runCommand_fb s.cfg s.tbl
  have nothing (h : writes = []) : writes = [] ∧ (runCommand s.cfg s.tbl).fb = s.tbl.fb := by
    rw [hfb, h]
    exact ⟨rfl, rfl⟩
  refine ⟨_, rfl, hfb, fun h6 h7 => nothing ?_, fun hguard => nothing ?_, fun h6 => nothing ?_,
    fun h7 htm => nothing ?_, fun hnone h6 h7 hzx hzy => ?_⟩
  · exact recordPlots_of_isSkip (.inl (classify_eq_skip0_iff.2 (isSentinel_eq_true_iff.2 ⟨h6, h7⟩))) _ _
  · refine recordPlots_of_isSkip ?_ _ _
    by_cases hs : isSentinel w.sw w.sh = true
    · exact .inl (classify_eq_skip0_iff.2 hs)
    · exact .inr (classify_eq_skipg_iff.2 ⟨hs, mt guardPasses_eq_true_iff.1 hguard⟩)
  · exact recordPlots_of_zero_width h6 _ _
  · exact recordPlots_of_zero_height h7 htm _ _
  · rw [← tileSize_eq, ← tileSize_eq]
    exact length_recordPlots_of_one hnone h6 h7 hzx hzy _ _

end Sys2Proof.Machine

/-! ## The assembler lines, and the stops of the blitter (R62, R104, R110, R128, R173, R183, R185) -/

namespace Sys2Proof.Machine

/-! ### Sixteen words at the origin -/

/-- A record assembled from sixteen values where RAM has room for it: the words there, every other byte
as it was, the origin gone on by 16. -/
theorem assemble_inside {v : Vector Nat 16} {s : State} (h : s.origin + 16 ≤ s.cfg.params.ramWords) :
    ∃ t, assemble v.toList s = .next t ∧
      ramRecord s.cfg.params t.tbl.ram s.origin = v.map (fun n : Nat => BitVec.ofNat 16 n) ∧
      (∀ c, c < 2 * s.origin ∨ 2 * s.origin + 32 ≤ c →
        memRead 0 t.tbl.ram c = memRead 0 s.tbl.ram c) ∧
      t = { s with origin := s.origin + 16, tbl := { s.tbl with ram := t.tbl.ram } } := by
  have hlen : v.toList.length = 16 := Vector.length_toList
  obtain ⟨m, hwrite, hwords, hbytes⟩ := writeValues_inside (vs := v.toList) (hlen.symm ▸ h)
  refine ⟨{ s with origin := s.origin + 16, tbl := { s.tbl with ram := m } }, ?_, ?_, fun c hc => ?_, rfl⟩
  · rw [assemble, hwrite, andThen_next]
    rfl
  · refine Vector.ext fun j hj => ?_
    have hword := hwords j (hlen.symm ▸ hj)
    rw [Vector.getElem_map]
    exact (ramRecord_get s.cfg.params m s.origin ⟨j, hj⟩).trans (hword.trans (by simp))
  · exact hbytes c (by rw [hlen]; omega)

/-- A record that would reach beyond RAM. -/
theorem assemble_beyond {vs : List Nat} {s : State} (hlen : vs.length = 16)
    (h : s.cfg.params.ramWords < s.origin + 16) : assemble vs s = .fault .ramAddress := by
  have hne : vs ≠ [] := fun hnil => by simp [hnil] at hlen
  rw [assemble, writeValues_beyond (hlen.symm ▸ h) hne, andThen_fault]

/-- The mode bits of the FLAGS word (R110). -/
def modeFlags : Mode → Nat
  | .direct => 0
  | .tmap => 8
  | .tmapc => 12

/-- The sixteen values of a `.cmd MODE` line, as R110 writes them. -/
def cmdVector (mode : Mode) (a : CmdArgs) : Vector Nat 16 :=
  #v[0, a.code, (a.x % 512).toNat * 16, (a.y % 512).toNat * 16,
    a.fx.toNat + 2 * a.fy.toNat + modeFlags mode,
    a.bank, a.w, a.h, a.sx * 16, a.sy * 16, a.zx, 0, 0, a.zy, 0, 0]

theorem cmdFlags_eq (mode : Mode) (fx fy : Bool) :
    fx.toNat ||| fy.toNat <<< 1 ||| (modeBits mode).2.toNat <<< 2 ||| (modeBits mode).1.toNat <<< 3 =
      fx.toNat + 2 * fy.toNat + modeFlags mode := by
  cases mode <;> cases fx <;> cases fy <;> rfl

theorem cmdValues_eq (mode : Mode) (a : CmdArgs) : cmdValues mode a = (cmdVector mode a).toList := by
  rw [cmdValues, cmdFlags_eq]
  simp only [Nat.shiftLeft_eq]
  rfl

theorem exec_cmdMode (mode : Mode) (a : CmdArgs) (s : State) :
    exec (.cmdMode mode a) s = assemble (cmdVector mode a).toList s := by
  rw [← cmdValues_eq]
  rfl

theorem exec_cmdOff (s : State) :
    exec .cmdOff s = assemble (Vector.replicate 16 0).toList s := rfl

/-- Settles O56. -/
theorem commandLine : Obligations.CommandLine := by
  unfold Obligations.CommandLine
  intro mode a s hroom
  rw [exec_cmdMode]
  exact assemble_inside hroom

/-- Settles O58: sixteen zero words are a sentinel. -/
theorem offLine : Obligations.OffLine := by
  unfold Obligations.OffLine
  intro s hroom
  rw [exec_cmdOff]
  obtain ⟨t, hrun, hrecord, hbytes, ht⟩ := assemble_inside (v := Vector.replicate 16 0) hroom
  have hzero : ramRecord s.cfg.params t.tbl.ram s.origin = Vector.replicate 16 0#16 := by
    rw [hrecord, Vector.map_replicate]
  refine ⟨t, hrun, hzero, ?_, hbytes, ht⟩
  rw [hzero]
  rfl

/-! ### The record of a line decodes to the line's operation -/

theorem ofNat_mul_16 {n k : Nat} (hk : k ≤ 12) (h : n < 2 ^ k) :
    BitVec.ofNat 16 (n * 16) = (BitVec.ofNat k n).setWidth 16 <<< 4 := by
  have hle : 2 ^ k ≤ 2 ^ 12 := Nat.pow_le_pow_right (by decide) hk
  rw [← BitVec.toNat_inj]
  simp only [BitVec.toNat_ofNat, BitVec.toNat_shiftLeft, BitVec.toNat_setWidth, Nat.shiftLeft_eq,
    Nat.mod_eq_of_lt h]
  omega

theorem ofNat_bank {n : Nat} (h : n < 2 ^ 7) :
    BitVec.ofNat 16 n = (BitVec.ofNat 7 n).setWidth 16 := by
  rw [← BitVec.toNat_inj, BitVec.toNat_setWidth, BitVec.toNat_ofNat, BitVec.toNat_ofNat,
    Nat.mod_eq_of_lt h]

theorem ofNat_cmdFlags (mode : Mode) (fx fy : Bool) :
    BitVec.ofNat 16 (fx.toNat + 2 * fy.toNat + modeFlags mode) =
      flagsWord fx fy (modeBits mode).2 (modeBits mode).1 := by
  cases mode <;> cases fx <;> cases fy <;> rfl

/-- The sixteen words of a line with its operands in range are the record of its fields (R93). -/
theorem cmdVector_words {p : Params} {mode : Mode} {a : CmdArgs}
    (h : (Instr.cmdMode mode a).wellFormed p = true) :
    (cmdVector mode a).map (fun n : Nat => BitVec.ofNat 16 n) =
      recordOfFields (BitVec.ofNat 16 a.code) (BitVec.ofNat 9 (a.x % 512).toNat)
        (BitVec.ofNat 9 (a.y % 512).toNat) a.fx a.fy (modeBits mode).2 (modeBits mode).1
        (BitVec.ofNat 7 a.bank) (BitVec.ofNat 16 a.w) (BitVec.ofNat 16 a.h) (BitVec.ofNat 12 a.sx)
        (BitVec.ofNat 12 a.sy) (BitVec.ofNat 16 a.zx) (BitVec.ofNat 16 a.zy) := by
  simp only [Instr.wellFormed, Bool.and_eq_true, decide_eq_true_eq] at h
  obtain ⟨⟨⟨-, hbank⟩, hsx⟩, hsy⟩ := h
  have hx : (a.x % 512).toNat < 2 ^ 9 := by omega
  have hy : (a.y % 512).toNat < 2 ^ 9 := by omega
  unfold recordOfFields
  rw [← ofNat_mul_16 (by decide) hx, ← ofNat_mul_16 (by decide) hy, ← ofNat_mul_16 (by decide) hsx,
    ← ofNat_mul_16 (by decide) hsy, ← ofNat_bank hbank, ← ofNat_cmdFlags]
  simp only [cmdVector, Vector.map_mk, List.map_toArray, List.map_cons, List.map_nil]
  rfl

/-- Settles O57: the line's words are the record of its fields, which decodes by its class. -/
theorem commandLineDecodes : Obligations.CommandLineDecodes := by
  unfold Obligations.CommandLineDecodes
  intro mode a s t hwf h0 hw hh hzx hzy hrun
  have hroom : s.origin + 16 ≤ s.cfg.params.ramWords := by
    by_contra hno
    rw [exec_cmdMode, assemble_beyond Vector.length_toList (Nat.lt_of_not_le hno)] at hrun
    cases hrun
  obtain ⟨t', hrun', hrecord, -, -⟩ := assemble_inside (v := cmdVector mode a) hroom
  rw [exec_cmdMode, hrun'] at hrun
  cases hrun
  have toNat_word {n : Nat} (h : n < 512) : (BitVec.ofNat 16 n).toNat = n :=
    Nat.mod_eq_of_lt (by omega : n < 2 ^ 16)
  have hdrawn : isDrawn (BitVec.ofNat 16 a.w) (BitVec.ofNat 16 a.h) (BitVec.ofNat 16 a.zx)
      (BitVec.ofNat 16 a.zy) = true := by
    apply isDrawn_of_class <;> rw [toNat_word (by omega)]
    · rwa [toNat_word (by omega)]
    all_goals assumption
  rw [hrecord, cmdVector_words hwf, decodeCommand_recordOfFields, classify_of_isDrawn hdrawn]
  cases mode <;> rfl

/-! ### `.org`, `.list` and `.tmap` -/

/-- Every place of the tilemap lies in RAM (R183, R261). -/
theorem tmAddr_lt {p : Params} (hwf : p.wf = true) {r c : Nat} (hr : r < p.tmRows) (hc : c < p.tmCols) :
    tmAddr p r c < p.ramWords := by
  have hroom : p.tmBase + p.tmRows * p.tmCols ≤ p.ramWords := by
    simp only [Params.wf, Bool.and_eq_true, decide_eq_true_eq] at hwf
    exact hwf.1.1.1.1.2
  calc tmAddr p r c = p.tmBase + (r + p.tmRows * c) := Nat.add_assoc ..
    _ < p.tmBase + p.tmRows * (c + 1) := by rw [Nat.mul_succ]; omega
    _ ≤ p.tmBase + p.tmRows * p.tmCols := Nat.add_le_add_left (Nat.mul_le_mul_left _ hc) _
    _ ≤ p.ramWords := hroom

/-- Settles O59. -/
theorem originAndTilemapLines : Obligations.OriginAndTilemapLines := by
  unfold Obligations.OriginAndTilemapLines
  refine fun s a r c code => ⟨rfl, rfl, fun hwf hr hc => ?_⟩
  have haddr := tmAddr_lt hwf hr hc
  obtain ⟨t, hrun, hword, hbytes, ht⟩ := execRamW_result code haddr
  exact ⟨t, hrun, haddr, hword, hbytes, ht⟩

/-! ### The stops -/

theorem not_isDrawn_of_outside {sw sh zx zy : Word}
    (h : (sw.toNat = 0 ∧ sh.toNat = 0) ∨ 512 ≤ sw.toNat ∨ 256 ≤ sh.toNat ∨ 0x1F0 ≤ zx.toNat ∨
      0x1F0 ≤ zy.toNat) : ¬ isDrawn sw sh zx zy = true := by
  rw [isDrawn_eq_true_iff, isSentinel_eq_true_iff, guardPasses_eq_true_iff, ← BitVec.toNat_inj,
    ← BitVec.toNat_inj]
  rintro ⟨h0, hsw, hsh, hzx, hzy⟩
  have hsentinel : ¬ (sw.toNat = 0 ∧ sh.toNat = 0) := h0
  omega

/-- Settles O41. -/
theorem blitterStops : Obligations.BlitterStops := by
  unfold Obligations.BlitterStops
  refine ⟨fun s => ⟨fun a v h => execRamW_of_le v h, fun r c code h => execRamW_of_le code h,
    fun h => ?_, fun h => ⟨?_, fun mode args => ?_⟩⟩, fun code xi yi fx fy bank sw sh spx spy zx zy x y s =>
      ⟨fun h => ?_, fun h => if_neg ?_⟩⟩
  · have hout : ¬ recordInRam s.cfg s.tbl = true := by
      rw [recordInRam_eq_true_iff]
      omega
    exact ⟨if_neg hout, if_neg hout⟩
  · exact assemble_beyond rfl h
  · exact assemble_beyond rfl h
  · have hout := not_isDrawn_of_outside h
    exact ⟨if_neg hout, if_neg hout, if_neg hout⟩
  · show ¬ (zx.toNat < 0x1F0 ∧ zy.toNat < 0x1F0)
    omega

end Sys2Proof.Machine

/-! ## What an operation depends on (R8, R28, R43, R46)

An operation respects a relation between states when from related states it stops for the same reason or
answers related states. One rule for each way the model composes an operation; then one relation says
that the units share no state, and one that no operation reads beyond the cursor. -/

namespace Sys2Proof.Machine

/-- From states that `R` relates, the outcomes agree up to `R`. -/
def Respects (R : State → State → Prop) (f : State → Out) : Prop :=
  ∀ s t, R s t → agree R (f s) (f t)

theorem agree_mono {R R' : State → State → Prop} {o o' : Out} (h : agree R o o')
    (hR : ∀ s t, R s t → R' s t) : agree R' o o' := by
  cases o <;> cases o'
  case next.next s t => exact hR s t h
  case fault.fault | refused.refused => exact h
  all_goals exact False.elim h

/-- An operation that completes agrees with itself, so the relation holds of its answer. -/
theorem rel_of_agree_self {R : State → State → Prop} {o : Out} {t : State} (h : agree R o o)
    (ho : o = .next t) : R t t := by
  subst ho
  exact h

/-! ### Rules for composed operations -/

section Rules

variable {R : State → State → Prop}

theorem Respects.fault (r : Fault) : Respects R fun _ => .fault r := fun _ _ _ => rfl

theorem Respects.refused (r : Refusal) : Respects R fun _ => .refused r := fun _ _ _ => rfl

theorem Respects.next {g : State → State} (hg : ∀ s t, R s t → R (g s) (g t)) :
    Respects R fun s => .next (g s) := hg

/-- A branch that related states take alike. -/
theorem Respects.ite {p : State → Prop} {_ : ∀ s, Decidable (p s)} {f g : State → Out}
    (hp : ∀ s t, R s t → (p s ↔ p t)) (hf : Respects R f) (hg : Respects R g) :
    Respects R fun s => if p s then f s else g s := by
  intro s t h
  by_cases hs : p s
  · simpa only [if_pos hs, if_pos ((hp s t h).1 hs)] using hf s t h
  · simpa only [if_neg hs, if_neg (mt (hp s t h).2 hs)] using hg s t h

theorem Respects.andThen {f g : State → Out} (hf : Respects R f) (hg : Respects R g) :
    Respects R fun s => andThen (f s) g := fun s t h => agree_andThen (hf s t h) hg

theorem Respects.forEach {α : Type} {f : α → State → Out} (hf : ∀ a, Respects R (f a)) (l : List α) :
    Respects R (forEach f l) := by
  induction l with
  | nil => exact .next fun _ _ h => h
  | cons a l ih => exact (hf a).andThen ih

end Rules

/-! ### The units share no state (R8) -/

/-- Two states that operations of SLC have led to from `s` and from `t`, alike in all they depend on. -/
structure SlcAlike (s t a b : State) : Prop where
  cfg : a.cfg = b.cfg
  slc : a.slc = b.slc
  left : a = { s with slc := a.slc, answer := a.answer, enabled := a.enabled }
  right : b = { t with slc := b.slc, answer := b.answer, enabled := b.enabled }

theorem SlcAlike.refl {s t : State} (hcfg : s.cfg = t.cfg) (hslc : s.slc = t.slc) :
    SlcAlike s t s t := ⟨hcfg, hslc, rfl, rfl⟩

theorem SlcAlike.update {s t a b : State} (h : SlcAlike s t a b) (f : Board → Slc → Slc) :
    SlcAlike s t (onSlc (f a.cfg) a) (onSlc (f b.cfg) b) where
  cfg := h.cfg
  slc := by rw [onSlc_slc, onSlc_slc, h.cfg, h.slc]
  left := congrArg (onSlc (f a.cfg)) h.left
  right := congrArg (onSlc (f b.cfg)) h.right

/-- An update of SLC by the configuration. -/
theorem respects_onSlc {s t : State} (f : Board → Slc → Slc) :
    Respects (SlcAlike s t) fun a => .next (onSlc (f a.cfg) a) := fun _ _ h => h.update f

section SlcOperations

variable {s t : State}

theorem execLatchW_slcAlike (idx : Fin 16) (v n : Nat) : Respects (SlcAlike s t) (execLatchW idx v n) :=
  respects_onSlc fun b => latchWrite b.params idx v n

theorem execFlush_slcAlike (line : Int) : Respects (SlcAlike s t) (execFlush line) :=
  .ite (fun a b h => by rw [h.cfg, h.slc]) (.refused _)
    (respects_onSlc fun b => flushLines (flushTarget b.params line))

theorem execLineInit_slcAlike (y : Nat) : Respects (SlcAlike s t) (execLineInit y) :=
  .ite (fun a b h => by rw [h.slc]) (respects_onSlc fun _ u => lineLoad y (tlRead u y) u) (.refused _)

theorem execLineRender_slcAlike (y : Nat) : Respects (SlcAlike s t) (execLineRender y) :=
  (execLineInit_slcAlike y).andThen (respects_onSlc sweepLine)

theorem execBgFrame_slcAlike : Respects (SlcAlike s t) execBgFrame := by
  intro a b h
  rw [execBgFrame, execBgFrame, h.cfg]
  exact Respects.forEach execLineRender_slcAlike _ a b h

theorem execFrameEnd_slcAlike : Respects (SlcAlike s t) execFrameEnd :=
  .ite (fun a b h => by rw [h.slc])
    (.andThen (fun a b h => execFlush_slcAlike (-1) _ _ (h.update fun _ u => { u with inframe := false }))
      execBgFrame_slcAlike) (.refused _)

/-- Every operation of SLC depends on SLC and the configuration alone, and changes SLC and the two
reports alone. -/
theorem exec_slcAlike {op : Instr} (hop : actsOnSlc op = true) : Respects (SlcAlike s t) (exec op) := by
  cases op with
  | bltSkip0 | bltSkipg | bltDirect | bltTmap | bltTmapc | gfxlistW | flipscrW | blitgoW | ramW
  | listRun | execCmd | cmdFetch | cmdDecode | bltFlipadj | nextcode | zblit | fbWrite | cmdMode
  | cmdOff | orgA | listA | tmapEntry =>
    cases hop
  | latchW idx v n => exact execLatchW_slcAlike idx v n
  | pbankW v =>
    exact respects_onSlc fun b u => { u with pbank := v % 2 ^ b.params.pbankBits }
  | cflipW v => exact respects_onSlc fun _ u => { u with cflip := v.testBit 0 }
  | cbankW v => exact respects_onSlc fun _ u => { u with cbank := BitVec.ofNat 8 v }
  | frameStart =>
    exact .ite (fun a b h => by rw [h.slc]) (.refused _)
      (respects_onSlc fun _ u => { u with cur := -1, inframe := true })
  | flush line => exact execFlush_slcAlike line
  | snapshot l =>
    refine .ite (fun a b h => by rw [h.slc]) (.next fun a b h => ?_) (.refused _)
    exact ⟨h.cfg, h.slc, congrArg (fun a' : State => { a' with answer := tlRead a.slc l }) h.left,
      congrArg (fun b' : State => { b' with answer := tlRead b.slc l }) h.right⟩
  | frameEnd => exact execFrameEnd_slcAlike
  | bgFrame => exact execBgFrame_slcAlike
  | lineInit y => exact execLineInit_slcAlike y
  | layerEn k =>
    refine .next fun a b h => ?_
    exact ⟨h.cfg, h.slc, congrArg (fun a' : State => { a' with enabled := some (layerOn k a.slc) }) h.left,
      congrArg (fun b' : State => { b' with enabled := some (layerOn k b.slc) }) h.right⟩
  | layerFetch k => exact respects_onSlc fun b => layerRaw b k
  | mixOr => exact respects_onSlc fun _ => mixCombine
  | mixLookup => exact respects_onSlc mixSelect
  | cidx => exact respects_onSlc fun _ => formIndex
  | pal => exact respects_onSlc fun _ => emitPen
  | stepFwd k => exact respects_onSlc fun _ => stepForward k
  | stepRev k => exact respects_onSlc fun _ => stepReverse k
  | lineRender y => exact execLineRender_slcAlike y
  | latchLayer k xoff ysel start stop n =>
    exact .andThen (execLatchW_slcAlike _ _ _)
      (.andThen (execLatchW_slcAlike _ _ _) (execLatchW_slcAlike _ _ _))
  | flushAll => exact execFlush_slcAlike (-1)

end SlcOperations

/-- Two states that operations of TBL and assembler lines have led to from `s` and from `t`, alike in
all they depend on. -/
structure TblAlike (s t a b : State) : Prop where
  cfg : a.cfg = b.cfg
  tbl : a.tbl = b.tbl
  origin : a.origin = b.origin
  left : a = { s with tbl := a.tbl, origin := a.origin }
  right : b = { t with tbl := b.tbl, origin := b.origin }

theorem TblAlike.refl {s t : State} (hcfg : s.cfg = t.cfg) (htbl : s.tbl = t.tbl)
    (horigin : s.origin = t.origin) : TblAlike s t s t := ⟨hcfg, htbl, horigin, rfl, rfl⟩

theorem TblAlike.update {s t a b : State} (h : TblAlike s t a b) (f : Board → Tbl → Tbl) :
    TblAlike s t (onTbl (f a.cfg) a) (onTbl (f b.cfg) b) where
  cfg := h.cfg
  tbl := by rw [onTbl_tbl, onTbl_tbl, h.cfg, h.tbl]
  origin := h.origin
  left := congrArg (onTbl (f a.cfg)) h.left
  right := congrArg (onTbl (f b.cfg)) h.right

theorem TblAlike.setOrigin {s t a b : State} (h : TblAlike s t a b) (f : Nat → Nat) :
    TblAlike s t { a with origin := f a.origin } { b with origin := f b.origin } where
  cfg := h.cfg
  tbl := h.tbl
  origin := congrArg f h.origin
  left := congrArg (fun a' : State => { a' with origin := f a.origin }) h.left
  right := congrArg (fun b' : State => { b' with origin := f b.origin }) h.right

/-- An update of TBL by the configuration. -/
theorem respects_onTbl {s t : State} (f : Board → Tbl → Tbl) :
    Respects (TblAlike s t) fun a => .next (onTbl (f a.cfg) a) := fun _ _ h => h.update f

section TblOperations

variable {s t : State}

theorem execRamW_tblAlike (a v : Nat) : Respects (TblAlike s t) (execRamW a v) :=
  .ite (fun a b h => by rw [h.cfg])
    (respects_onTbl fun b u => { u with ram := ramWrite b.params u.ram a (BitVec.ofNat 16 v) })
    (.fault _)

theorem execGfxlistW_tblAlike (v : Nat) : Respects (TblAlike s t) (execGfxlistW v) :=
  respects_onTbl fun _ u => { u with gfxlist := BitVec.ofNat 16 v }

theorem writeValues_tblAlike (a : Nat) (vs : List Nat) : Respects (TblAlike s t) (writeValues a vs) := by
  induction vs generalizing a with
  | nil => exact .next fun _ _ h => h
  | cons v vs ih => exact (execRamW_tblAlike a v).andThen (ih (a + 1))

theorem assemble_tblAlike (vs : List Nat) : Respects (TblAlike s t) (assemble vs) := by
  intro a b h
  rw [assemble, assemble, h.origin]
  exact (writeValues_tblAlike b.origin vs).andThen
    (.next fun _ _ h => h.setOrigin (· + Config.cmdWords)) a b h

/-- Every other operation depends on TBL, the configuration and the origin alone, and changes TBL and
the origin alone. -/
theorem exec_tblAlike {op : Instr} (hop : actsOnSlc op = false) : Respects (TblAlike s t) (exec op) := by
  cases op with
  | latchW | pbankW | cflipW | cbankW | frameStart | flush | snapshot | frameEnd | bgFrame
  | lineInit | layerEn | layerFetch | mixOr | mixLookup | cidx | pal | stepFwd | stepRev
  | lineRender | latchLayer | flushAll =>
    cases hop
  | bltSkip0 | bltSkipg => exact .next fun _ _ h => h
  | bltDirect code xi yi fx fy bank sw sh zx zy =>
    exact .ite (fun _ _ _ => Iff.rfl) (respects_onTbl fun b u => drawStrip b (flipAdjust b
      { loadCommon b.params xi yi fx fy bank sw sh zx zy u with code := code, tmap := false }))
      (.refused _)
  | bltTmap xi yi fx fy bank sw sh spx spy zx zy =>
    exact .ite (fun _ _ _ => Iff.rfl) (respects_onTbl fun b u => drawTilemap b (flipAdjust b
      (loadTilemap b.params xi yi fx fy false bank sw sh spx spy zx zy u))) (.refused _)
  | bltTmapc xi yi fx fy bank sw sh spx spy zx zy =>
    exact .ite (fun _ _ _ => Iff.rfl) (respects_onTbl fun b u => drawCondensed b (flipAdjust b
      (loadTilemap b.params xi yi fx fy true bank sw sh spx spy zx zy u))) (.refused _)
  | gfxlistW v => exact execGfxlistW_tblAlike v
  | flipscrW v => exact respects_onTbl fun _ u => { u with flipscr := v.testBit 0 }
  | blitgoW | listRun => exact respects_onTbl runList
  | ramW a v => exact execRamW_tblAlike a v
  | execCmd =>
    exact .ite (fun a b h => by rw [h.cfg, h.tbl]) (respects_onTbl runCommand) (.fault _)
  | cmdFetch =>
    exact .ite (fun a b h => by rw [h.cfg, h.tbl]) (respects_onTbl fetchCommand) (.fault _)
  | cmdDecode => exact respects_onTbl decodeFields
  | bltFlipadj => exact respects_onTbl flipAdjust
  | nextcode c => exact respects_onTbl fun _ => advanceCode c
  | zblit code bank fx fy x y zx zy =>
    exact .ite (fun _ _ _ => Iff.rfl) (respects_onTbl fun b => drawTile b code bank fx fy x y zx zy)
      (.refused _)
  | fbWrite x y v => exact respects_onTbl fun b u => { u with fb := fbPlot b.params x y v u.fb }
  | cmdMode mode args => exact assemble_tblAlike (cmdValues mode args)
  | cmdOff => exact assemble_tblAlike (List.replicate 16 0)
  | orgA a => exact .next fun _ _ h => h.setOrigin fun _ => a
  | listA a =>
    exact .andThen (f := execOrgA a) (.next fun _ _ h => h.setOrigin fun _ => a)
      (execGfxlistW_tblAlike a)
  | tmapEntry r c code =>
    intro a b h
    show agree _ (execRamW (tmAddr a.cfg.params r c) code a) (execRamW (tmAddr b.cfg.params r c) code b)
    rw [h.cfg]
    exact execRamW_tblAlike _ code a b h

end TblOperations

/-- Settles O14: the two families of operations, by the unit they act on. -/
theorem unitsShareNoState : Obligations.UnitsShareNoState := by
  unfold Obligations.UnitsShareNoState
  refine fun op s t hcfg => ⟨fun hop hslc => ?_, fun hop htbl horigin => ?_⟩
  · refine agree_mono (exec_slcAlike hop s t (.refl hcfg hslc)) fun a b h => ⟨h.slc, ?_, ?_⟩
    · rw [h.left]
    · rw [h.right]
  · refine agree_mono (exec_tblAlike hop s t (.refl hcfg htbl horigin)) fun a b h => ⟨h.tbl, ?_, ?_⟩
    · rw [h.left]
    · rw [h.right]

/-! ### What an operation leaves (R43) -/

/-- An operation of SLC that completes changes SLC and the two reports alone. -/
theorem exec_slc_frame {op : Instr} {s t : State} (hop : actsOnSlc op = true)
    (h : exec op s = .next t) :
    t = { s with slc := t.slc, answer := t.answer, enabled := t.enabled } :=
  (rel_of_agree_self (exec_slcAlike hop s s (.refl rfl rfl)) h).left

/-- Any other operation that completes changes TBL and the origin alone. -/
theorem exec_tbl_frame {op : Instr} {s t : State} (hop : actsOnSlc op = false)
    (h : exec op s = .next t) : t = { s with tbl := t.tbl, origin := t.origin } :=
  (rel_of_agree_self (exec_tblAlike hop s s (.refl rfl rfl rfl)) h).left

/-- Settles O13. -/
theorem configurationNeverChanges : Obligations.ConfigurationNeverChanges := by
  unfold Obligations.ConfigurationNeverChanges
  intro op s t h
  cases hop : actsOnSlc op with
  | true =>
    rw [exec_slc_frame hop h]
    exact ⟨rfl, rfl⟩
  | false =>
    rw [exec_tbl_frame hop h]
    exact ⟨rfl, rfl⟩

/-! ### No operation reads beyond the cursor (R28, R46) -/

/-- SLC with another timeline. -/
def Slc.setTl (m : Memory Latches) (u : Slc) : Slc := { u with tl := m }

/-- Two machines alike but for snapshots beyond the cursor. -/
def SameReadLines (s t : State) : Prop :=
  t = { s with slc := { s.slc with tl := t.slc.tl } } ∧
    ∀ l : Nat, (l : Int) ≤ s.slc.cur → tlRead s.slc l = tlRead t.slc l

theorem SameReadLines.eq {s t : State} (h : SameReadLines s t) :
    t = { s with slc := s.slc.setTl t.slc.tl } := h.1

theorem SameReadLines.cfg {s t : State} (h : SameReadLines s t) : t.cfg = s.cfg := by rw [h.eq]

theorem SameReadLines.tbl {s t : State} (h : SameReadLines s t) : t.tbl = s.tbl := by rw [h.eq]

theorem SameReadLines.origin {s t : State} (h : SameReadLines s t) : t.origin = s.origin := by
  rw [h.eq]

theorem SameReadLines.cur {s t : State} (h : SameReadLines s t) : t.slc.cur = s.slc.cur := by
  rw [h.eq]
  rfl

/-- An update of SLC that the snapshots beyond the cursor affect there alone. -/
structure ReadsToCursor (f : Slc → Slc) : Prop where
  frame : ∀ m u, f (u.setTl m) = (f u).setTl (f (u.setTl m)).tl
  read : ∀ m u, (∀ l : Nat, (l : Int) ≤ u.cur → tlRead u l = tlRead (u.setTl m) l) →
    ∀ l : Nat, (l : Int) ≤ (f u).cur → tlRead (f u) l = tlRead (f (u.setTl m)) l

/-- An update that does not touch the timeline, and materialises no line. -/
theorem ReadsToCursor.of_commutes {f : Slc → Slc} (hf : ∀ m u, f (u.setTl m) = (f u).setTl m)
    (hcur : ∀ u (l : Nat), (l : Int) ≤ (f u).cur → (l : Int) ≤ u.cur) : ReadsToCursor f where
  frame m u := by rw [hf]; rfl
  read m u hread l hl := by
    have htl : (f u).tl = u.tl := (congrArg Slc.tl (hf u.tl u) :)
    rw [hf]
    calc tlRead (f u) l = tlRead u l := by rw [tlRead, htl, tlRead]
      _ = tlRead ((f u).setTl m) l := hread l (hcur u l hl)

theorem readsToCursor_latchWrite (p : Params) (idx : Fin 16) (v n : Nat) :
    ReadsToCursor (latchWrite p idx v n) where
  frame _ _ := rfl
  read m u hread l hl := by
    rw [latchWrite_cur_eq] at hl
    rw [tlRead_latchWrite_eq, tlRead_latchWrite_eq]
    exact ite_congr rfl (fun _ => rfl) fun hold => hread l (by
      have : ¬ (u.cur < l ∧ l < clampedLine p n) := hold
      omega)

theorem readsToCursor_flushLines (t : Int) : ReadsToCursor (flushLines t) where
  frame _ _ := rfl
  read m u hread l hl := by
    have hle : (l : Int) ≤ t := hl
    rw [tlRead_flushLines_eq, tlRead_flushLines_eq]
    exact ite_congr rfl (fun _ => rfl) fun hold => hread l (by
      have : ¬ (u.cur < l ∧ (l : Int) ≤ t) := hold
      omega)

theorem readsToCursor_lineLoad (y : Nat) (snap : Latches) : ReadsToCursor (lineLoad y snap) :=
  .of_commutes (fun _ _ => rfl) fun _ _ h => h

theorem formPixel_setTl (b : Board) (p : Nat) (m : Memory Latches) (u : Slc) :
    formPixel b p (u.setTl m) = (formPixel b p u).setTl m := rfl

theorem stepLayer_setTl (k : Fin 4) (m : Memory Latches) (u : Slc) :
    stepLayer k (u.setTl m) = (stepLayer k u).setTl m := by
  rw [stepLayer_eq, stepLayer_eq]
  rfl

theorem stepLayers_setTl (m : Memory Latches) (u : Slc) :
    stepLayers (u.setTl m) = (stepLayers u).setTl m := by
  simp only [stepLayers, layers, List.foldl_cons, List.foldl_nil, stepLayer_setTl]

theorem sweepLine_setTl (b : Board) (m : Memory Latches) (u : Slc) :
    sweepLine b (u.setTl m) = (sweepLine b u).setTl m :=
  loop_commute (Slc.setTl m) (fun p x => by rw [formPixel_setTl, stepLayers_setTl]) Config.sweep u

theorem readsToCursor_sweepLine (b : Board) : ReadsToCursor (sweepLine b) :=
  .of_commutes (sweepLine_setTl b) fun u l hl => by
    obtain ⟨-, -, -, -, -, hcur, -, -, -⟩ := sweepLine_frame b u
    rwa [hcur] at hl

theorem SameReadLines.onSlc {s t : State} {f : Slc → Slc} (hf : ReadsToCursor f)
    (h : SameReadLines s t) : SameReadLines (onSlc f s) (onSlc f t) := by
  obtain ⟨heq, hread⟩ := h
  have hslc : t.slc = s.slc.setTl t.slc.tl := congrArg State.slc heq
  refine ⟨?_, fun l hl => ?_⟩
  · calc Machine.onSlc f t = { s with slc := f t.slc } := by rw [Machine.onSlc, heq]
      _ = { s with slc := (f s.slc).setTl (f t.slc).tl } := by rw [hslc, ← hf.frame]
  · have := hf.read t.slc.tl s.slc (fun l hl => by rw [← hslc]; exact hread l hl) l hl
    rwa [← hslc] at this

/-- An update of SLC by the configuration. -/
theorem respects_readsToCursor (f : Board → Slc → Slc) (hf : ∀ b, ReadsToCursor (f b)) :
    Respects SameReadLines fun s => .next (Machine.onSlc (f s.cfg) s) := fun s t h => by
  show SameReadLines (Machine.onSlc (f s.cfg) s) (Machine.onSlc (f t.cfg) t)
  rw [h.cfg]
  exact h.onSlc (hf s.cfg)

/-- An update of SLC that does not touch the timeline or the cursor. -/
theorem respects_commutes (f : Board → Slc → Slc)
    (hf : ∀ b m u, f b (u.setTl m) = (f b u).setTl m) (hcur : ∀ b u, (f b u).cur = u.cur) :
    Respects SameReadLines fun s => .next (Machine.onSlc (f s.cfg) s) :=
  respects_readsToCursor f fun b => .of_commutes (hf b) fun u _ hl => (hcur b u).subst hl

theorem execLatchW_sameReadLines (idx : Fin 16) (v n : Nat) :
    Respects SameReadLines (execLatchW idx v n) :=
  respects_readsToCursor (fun b => latchWrite b.params idx v n)
    fun b => readsToCursor_latchWrite b.params idx v n

theorem execFlush_sameReadLines (line : Int) : Respects SameReadLines (execFlush line) :=
  .ite (fun s t h => by rw [h.eq]; rfl) (.refused _)
    (respects_readsToCursor (fun b => flushLines (flushTarget b.params line))
      fun b => readsToCursor_flushLines (flushTarget b.params line))

/-- LINE.INIT reads one line, which both have materialised. -/
theorem execLineInit_sameReadLines (y : Nat) : Respects SameReadLines (execLineInit y) := by
  intro s t h
  by_cases hy : (y : Int) ≤ s.slc.cur
  · rw [execLineInit_eq_next.2 ⟨hy, rfl⟩, execLineInit_eq_next.2 ⟨h.cur.symm ▸ hy, rfl⟩, ← h.2 y hy]
    exact h.onSlc (readsToCursor_lineLoad y (tlRead s.slc y))
  · rw [execLineInit, execLineInit, if_neg hy, if_neg (h.cur.symm ▸ hy)]
    rfl

theorem execLineRender_sameReadLines (y : Nat) : Respects SameReadLines (execLineRender y) :=
  (execLineInit_sameReadLines y).andThen (respects_readsToCursor sweepLine readsToCursor_sweepLine)

theorem execBgFrame_sameReadLines : Respects SameReadLines execBgFrame := by
  intro s t h
  rw [execBgFrame, execBgFrame, h.cfg]
  exact Respects.forEach execLineRender_sameReadLines _ s t h

theorem execFrameEnd_sameReadLines : Respects SameReadLines execFrameEnd :=
  .ite (fun s t h => by rw [h.eq]; rfl)
    (.andThen (fun s t h => execFlush_sameReadLines (-1) _ _
      (h.onSlc (.of_commutes (fun _ _ => rfl) fun _ _ hl => hl))) execBgFrame_sameReadLines)
    (.refused _)

theorem exec_slc_sameReadLines {op : Instr} (hop : actsOnSlc op = true) :
    Respects SameReadLines (exec op) := by
  cases op with
  | bltSkip0 | bltSkipg | bltDirect | bltTmap | bltTmapc | gfxlistW | flipscrW | blitgoW | ramW
  | listRun | execCmd | cmdFetch | cmdDecode | bltFlipadj | nextcode | zblit | fbWrite | cmdMode
  | cmdOff | orgA | listA | tmapEntry =>
    cases hop
  | latchW idx v n => exact execLatchW_sameReadLines idx v n
  | pbankW v =>
    exact respects_commutes (fun b u => { u with pbank := v % 2 ^ b.params.pbankBits })
      (fun _ _ _ => rfl) fun _ _ => rfl
  | cflipW v =>
    exact respects_commutes (fun _ u => { u with cflip := v.testBit 0 })
      (fun _ _ _ => rfl) fun _ _ => rfl
  | cbankW v =>
    exact respects_commutes (fun _ u => { u with cbank := BitVec.ofNat 8 v })
      (fun _ _ _ => rfl) fun _ _ => rfl
  | frameStart =>
    refine .ite (fun s t h => by rw [h.eq]; rfl) (.refused _)
      (respects_readsToCursor (fun _ u => { u with cur := -1, inframe := true })
        fun _ => .of_commutes (fun _ _ => rfl) fun u l hl => ?_)
    have : (l : Int) ≤ -1 := hl
    omega
  | flush line => exact execFlush_sameReadLines line
  | snapshot l =>
    intro s t h
    by_cases hl : (l : Int) ≤ s.slc.cur
    · rw [(snapshotResult l s).1 hl, (snapshotResult l t).1 (h.cur.symm ▸ hl), ← h.2 l hl]
      exact ⟨congrArg (fun a : State => { a with answer := tlRead s.slc l }) h.1, h.2⟩
    · rw [(snapshotResult l s).2 (Int.not_le.1 hl),
        (snapshotResult l t).2 (Int.not_le.1 (h.cur.symm ▸ hl))]
      rfl
  | frameEnd => exact execFrameEnd_sameReadLines
  | bgFrame => exact execBgFrame_sameReadLines
  | lineInit y => exact execLineInit_sameReadLines y
  | layerEn k =>
    intro s t h
    have hon : layerOn k t.slc = layerOn k s.slc := by rw [h.eq]; rfl
    show SameReadLines { s with enabled := _ } { t with enabled := some (layerOn k t.slc) }
    rw [hon]
    exact ⟨congrArg (fun a : State => { a with enabled := some (layerOn k s.slc) }) h.1, h.2⟩
  | layerFetch k => exact respects_commutes (layerRaw · k) (fun _ _ _ => rfl) fun _ _ => rfl
  | mixOr => exact respects_commutes (fun _ => mixCombine) (fun _ _ _ => rfl) fun _ _ => rfl
  | mixLookup => exact respects_commutes mixSelect (fun _ _ _ => rfl) fun _ _ => rfl
  | cidx => exact respects_commutes (fun _ => formIndex) (fun _ _ _ => rfl) fun _ _ => rfl
  | pal => exact respects_commutes (fun _ => emitPen) (fun _ _ _ => rfl) fun _ _ => rfl
  | stepFwd k => exact respects_commutes (fun _ => stepForward k) (fun _ _ _ => rfl) fun _ _ => rfl
  | stepRev k => exact respects_commutes (fun _ => stepReverse k) (fun _ _ _ => rfl) fun _ _ => rfl
  | lineRender y => exact execLineRender_sameReadLines y
  | latchLayer k xoff ysel start stop n =>
    exact .andThen (execLatchW_sameReadLines _ _ _)
      (.andThen (execLatchW_sameReadLines _ _ _) (execLatchW_sameReadLines _ _ _))
  | flushAll => exact execFlush_sameReadLines (-1)

/-- Any other operation depends on nothing of SLC, and leaves it. -/
theorem exec_tbl_sameReadLines {op : Instr} (hop : actsOnSlc op = false) :
    Respects SameReadLines (exec op) := by
  intro s t h
  refine agree_mono (exec_tblAlike hop s t (.refl h.cfg.symm h.tbl.symm h.origin.symm))
    fun a b hab => ?_
  have ha := hab.left
  have hb := hab.right
  rw [← hab.tbl, ← hab.origin] at hb
  rw [ha, hb]
  exact ⟨congrArg (fun t' : State => { t' with tbl := a.tbl, origin := a.origin }) h.1, h.2⟩

/-- Settles O26: the two families of operations, by the unit they act on. -/
theorem unmaterialisedLinesUnread : Obligations.UnmaterialisedLinesUnread := by
  unfold Obligations.UnmaterialisedLinesUnread
  intro op s t same h
  cases hop : actsOnSlc op with
  | true => exact exec_slc_sameReadLines hop s t h
  | false => exact exec_tbl_sameReadLines hop s t h

end Sys2Proof.Machine

/-! ## What an operation of TBL does to RAM and to FB (R38, R39, R191)

RAM changes by word writes inside it, and FB by pixel writes in order. One statement says this of every
operation; who writes RAM, what a run leaves of FB, and the invariant of TBL follow from it. -/

namespace Sys2Proof.Machine

/-- One word written inside RAM. -/
def RamStep (p : Params) (m m' : Memory Byte) : Prop :=
  ∃ a v, a < p.ramWords ∧ m' = ramWrite p m a v

/-- An operation that, if it is FB.WRITE, writes a pixel in format FBPIX (R100). -/
def WritesPixel (op : Instr) : Prop := ∀ x y v, op = .fbWrite x y v → v.toNat < 2048

/-- What an operation makes of the two memories of TBL: words written inside RAM, by an operation that
may, and pixels written to FB, by an operation that may. -/
structure MemoryEffect (p : Params) (op : Instr) (t u : Tbl) : Prop where
  ram : Relation.ReflTransGen (RamStep p) t.ram u.ram
  ramKept : writesRam op = false → u.ram = t.ram
  drawn : ∃ ps, u.fb = drawPlots p ps t.fb ∧ (mayDraw op = false → ps = []) ∧
    (WritesPixel op → ∀ q ∈ ps, q.v.toNat < 2048)

section Effects

variable {p : Params} {op : Instr} {t u : Tbl}

/-- An operation on registers. -/
theorem MemoryEffect.of_eq (hram : u.ram = t.ram) (hfb : u.fb = t.fb) : MemoryEffect p op t u where
  ram := hram ▸ .refl
  ramKept _ := hram
  drawn := ⟨[], hfb, fun _ => rfl, fun _ _ hq => absurd hq List.not_mem_nil⟩

/-- An operation that draws. -/
theorem MemoryEffect.of_drawn (ps : List Plot) (hop : mayDraw op = true) (hram : u.ram = t.ram)
    (hfb : u.fb = drawPlots p ps t.fb) (hps : WritesPixel op → ∀ q ∈ ps, q.v.toNat < 2048) :
    MemoryEffect p op t u where
  ram := hram ▸ .refl
  ramKept _ := hram
  drawn := ⟨ps, hfb, fun h => absurd (hop.symm.trans h) nofun, hps⟩

/-- An operation that writes RAM. -/
theorem MemoryEffect.of_ram (hop : writesRam op = true)
    (hram : Relation.ReflTransGen (RamStep p) t.ram u.ram) (hfb : u.fb = t.fb) :
    MemoryEffect p op t u where
  ram := hram
  ramKept h := absurd (hop.symm.trans h) nofun
  drawn := ⟨[], hfb, fun _ => rfl, fun _ _ hq => absurd hq List.not_mem_nil⟩

end Effects

/-- An operation that stops where its condition fails. -/
theorem next_of_ite {c : Prop} [Decidable c] {s t : State} {o : Out}
    (h : (if c then .next s else o) = .next t) (ho : o ≠ .next t) : c ∧ t = s := by
  split at h
  next hc =>
    cases h
    exact ⟨hc, rfl⟩
  next => exact absurd h ho

/-! ### Writes of RAM -/

theorem execRamW_ramSteps {a v : Nat} {s t : State} (h : execRamW a v s = .next t) :
    ∃ m, t = { s with tbl := { s.tbl with ram := m } } ∧
      Relation.ReflTransGen (RamStep s.cfg.params) s.tbl.ram m := by
  obtain ⟨ha, rfl⟩ := next_of_ite h nofun
  exact ⟨_, rfl, .single ⟨a, _, ha, rfl⟩⟩

theorem writeValues_ramSteps {a : Nat} {vs : List Nat} {s t : State}
    (h : writeValues a vs s = .next t) :
    ∃ m, t = { s with tbl := { s.tbl with ram := m } } ∧
      Relation.ReflTransGen (RamStep s.cfg.params) s.tbl.ram m := by
  induction vs generalizing a s with
  | nil =>
    cases h
    exact ⟨t.tbl.ram, rfl, .refl⟩
  | cons v vs ih =>
    obtain ⟨s1, h1, h2⟩ := andThen_eq_next.1 h
    obtain ⟨m1, rfl, hfirst⟩ := execRamW_ramSteps h1
    obtain ⟨m, rfl, hrest⟩ := ih h2
    exact ⟨m, rfl, hfirst.trans hrest⟩

theorem assemble_ramSteps {vs : List Nat} {s t : State} (h : assemble vs s = .next t) :
    t.tbl.fb = s.tbl.fb ∧ Relation.ReflTransGen (RamStep s.cfg.params) s.tbl.ram t.tbl.ram := by
  obtain ⟨s1, h1, h2⟩ := andThen_eq_next.1 h
  obtain ⟨m, rfl, hsteps⟩ := writeValues_ramSteps h1
  cases h2
  exact ⟨rfl, hsteps⟩

/-! ### Drawing -/

/-- A strip draws its tiles. -/
theorem drawStrip_effect {op : Instr} (hop : mayDraw op = true) (b : Board) {t u : Tbl}
    (hram : u.ram = t.ram) (hfb : u.fb = t.fb) : MemoryEffect b.params op t (drawStrip b u) := by
  rw [drawStrip_eq]
  refine .of_drawn (stripPlots b u (tilesOf u.sw)) hop hram (by rw [← hfb]) fun _ q hq => ?_
  obtain ⟨i, -, hq⟩ := List.mem_flatMap.1 hq
  exact toNat_v_lt_of_mem_tilePlots hq

/-- A grid draws its tiles. -/
theorem drawGrid_effect {op : Instr} (hop : mayDraw op = true) (b : Board) (pitch mult : Nat)
    {t u : Tbl} (hram : u.ram = t.ram) (hfb : u.fb = t.fb) :
    MemoryEffect b.params op t (drawGrid b pitch mult u) := by
  rw [drawGrid_eq]
  refine .of_drawn (gridRows b pitch (mult * tilesOf u.sw) u (mult * tilesOf u.sh)) hop hram
    (by rw [← hfb]) fun _ q hq => ?_
  obtain ⟨j, -, hrow⟩ := List.mem_flatMap.1 hq
  obtain ⟨i, -, hq⟩ := List.mem_flatMap.1 hrow
  exact toNat_v_lt_of_mem_tilePlots hq

/-- A list run draws its records. -/
theorem runList_effect {op : Instr} (hop : mayDraw op = true) (b : Board) (t : Tbl) :
    MemoryEffect b.params op t (runList b t) := by
  have hrun := runResult_runList b t
  refine .of_drawn _ hop hrun.ram hrun.fb fun _ q hq => ?_
  obtain ⟨n, -, hq⟩ := List.mem_flatMap.1 hq
  exact toNat_v_lt_of_mem_recordPlots hq

/-- EXEC.CMD draws its record. -/
theorem runCommand_effect {op : Instr} (hop : mayDraw op = true) (b : Board) (t : Tbl) :
    MemoryEffect b.params op t (runCommand b t) :=
  .of_drawn _ hop (runCommand_ram b t) (runCommand_fb b t) fun _ _ hq =>
    toNat_v_lt_of_mem_recordPlots hq

/-! ### Every operation -/

theorem exec_memoryEffect {op : Instr} {s t : State} (hop : actsOnSlc op = false)
    (h : exec op s = .next t) : MemoryEffect s.cfg.params op s.tbl t.tbl := by
  cases op with
  | latchW | pbankW | cflipW | cbankW | frameStart | flush | snapshot | frameEnd | bgFrame
  | lineInit | layerEn | layerFetch | mixOr | mixLookup | cidx | pal | stepFwd | stepRev
  | lineRender | latchLayer | flushAll =>
    cases hop
  | bltSkip0 | bltSkipg | gfxlistW | flipscrW | cmdDecode | nextcode | orgA | listA =>
    cases h
    exact .of_eq rfl rfl
  | bltFlipadj =>
    cases h
    exact .of_eq (flipAdjust_ram _ _) (flipAdjust_fb _ _)
  | cmdFetch =>
    obtain ⟨-, rfl⟩ := next_of_ite h nofun
    exact .of_eq (fetchCommand_ram _ _) (fetchCommand_fb _ _)
  | bltDirect =>
    obtain ⟨-, rfl⟩ := next_of_ite h nofun
    exact drawStrip_effect rfl s.cfg (flipAdjust_ram _ _) (flipAdjust_fb _ _)
  | bltTmap | bltTmapc =>
    obtain ⟨-, rfl⟩ := next_of_ite h nofun
    exact drawGrid_effect rfl s.cfg _ _ (flipAdjust_ram _ _) (flipAdjust_fb _ _)
  | blitgoW | listRun =>
    cases h
    exact runList_effect rfl s.cfg s.tbl
  | execCmd =>
    rw [exec_execCmd, execExecCmd] at h
    obtain ⟨-, rfl⟩ := next_of_ite h nofun
    rw [onTbl_tbl]
    exact runCommand_effect rfl s.cfg s.tbl
  | zblit =>
    obtain ⟨-, rfl⟩ := next_of_ite h nofun
    exact .of_drawn _ rfl rfl rfl fun _ _ hq => toNat_v_lt_of_mem_tilePlots hq
  | fbWrite x y v =>
    cases h
    refine .of_drawn [⟨x, y, v⟩] rfl rfl rfl fun hpixel q hq => ?_
    rw [List.mem_singleton.1 hq]
    exact hpixel x y v rfl
  | ramW | tmapEntry =>
    obtain ⟨m, rfl, hsteps⟩ := execRamW_ramSteps h
    exact .of_ram rfl hsteps rfl
  | cmdMode | cmdOff =>
    obtain ⟨hfb, hsteps⟩ := assemble_ramSteps h
    exact .of_ram rfl hsteps hfb

/-- Settles O15. -/
theorem ramWrittenByHostOnly : Obligations.RamWrittenByHostOnly := by
  unfold Obligations.RamWrittenByHostOnly
  intro op s t hram h a
  cases hop : actsOnSlc op with
  | true => rw [exec_slc_frame hop h]
  | false => rw [(exec_memoryEffect hop h).ramKept hram]

/-- Settles O16: an operation that may not draw makes no pixel write, and a run makes those of its
records. -/
theorem frameBufferPersists : Obligations.FrameBufferPersists := by
  unfold Obligations.FrameBufferPersists
  refine ⟨fun op s t hdraw h x y => ?_, fun v s t x y h hmiss => ?_⟩
  · cases hop : actsOnSlc op with
    | true => rw [exec_slc_frame hop h]
    | false =>
      obtain ⟨ps, hfb, hnone, -⟩ := (exec_memoryEffect hop h).drawn
      rw [fbRead, hfb, hnone hdraw]
      rfl
  · cases h
    have hrun := runResult_runList s.cfg s.tbl
    rw [fbRead, onTbl_tbl, hrun.fb]
    exact gridRead_drawPlots_of_not_hit _ _ _ x y hmiss

end Sys2Proof.Machine

/-! ## The invariant, and what a step can answer (R25, R28, R32, R34, R100, R101, R240, R242) -/

namespace Sys2Proof.Machine

/-! ### Grids whose values have a property -/

theorem gridAll_row {α : Type} {f : α → Bool} {g : Grid α} (h : gridAll f g = true) (y : Nat) :
    ((memRead [] g y).all fun cell => f cell.2) = true := by
  unfold gridAll at h
  induction g with
  | nil => rfl
  | cons row g ih =>
    obtain ⟨k, m⟩ := row
    rw [List.all_cons, Bool.and_eq_true] at h
    obtain ⟨hrow, hrest⟩ := h
    rw [memRead_cons]
    split
    · exact hrow
    · exact ih hrest

/-- A write of a value with the property keeps it. -/
theorem gridAll_gridWrite {α : Type} [DecidableEq α] (d : α) {f : α → Bool} {g : Grid α} {y x : Nat}
    {v : α} (h : gridAll f g = true) (hv : f v = true) : gridAll f (gridWrite d g y x v) = true :=
  memWrite_all [] _ h (memWrite_all d _ (gridAll_row h y) hv)

/-- Pixels in format FBPIX have bits 15:11 zero. -/
theorem extractLsb'_eq_zero_iff {v : Word} : (v.extractLsb' 11 5 == 0#5) = true ↔ v.toNat < 2048 := by
  have hv := v.isLt
  rw [beq_iff_eq, ← BitVec.toNat_inj, BitVec.extractLsb'_toNat, Nat.shiftRight_eq_div_pow]
  simp only [BitVec.toNat_ofNat]
  omega

theorem gridAll_drawPlots {p : Params} {ps : List Plot} {fb : Grid Word}
    (h : gridAll (fun v : Word => v.extractLsb' 11 5 == 0#5) fb = true)
    (hps : ∀ q ∈ ps, q.v.toNat < 2048) :
    gridAll (fun v : Word => v.extractLsb' 11 5 == 0#5) (drawPlots p ps fb) = true := by
  induction ps generalizing fb with
  | nil => exact h
  | cons q ps ih =>
    rw [List.forall_mem_cons] at hps
    obtain ⟨hq, hrest⟩ := hps
    rw [drawPlots_cons]
    refine ih ?_ hrest
    unfold fbPlot
    split
    · exact gridAll_gridWrite 0 h (extractLsb'_eq_zero_iff.2 hq)
    · exact h

/-! ### TBL -/

/-- Words written inside RAM and pixels in format FBPIX keep the invariant of TBL. -/
theorem MemoryEffect.tblInv {p : Params} {op : Instr} {t u : Tbl} (h : MemoryEffect p op t u)
    (hpixel : WritesPixel op) (ht : TblInv p t) : TblInv p u := by
  obtain ⟨hram, hfbWf, hfbAll⟩ := ht
  obtain ⟨ps, hfb, -, hps⟩ := h.drawn
  refine ⟨?_, hfb ▸ gridWf_drawPlots p ps hfbWf, hfb ▸ gridAll_drawPlots hfbAll (hps hpixel)⟩
  refine h.ram.rec (motive := fun m _ => Memory.wf 0 (2 * p.ramWords) m = true) hram ?_
  rintro m _ - ⟨a, v, ha, rfl⟩ hm
  exact memory_wf_ramWrite p v hm ha

/-! ### SLC -/

/-- The invariant of SLC, by name. -/
structure SlcFits (p : Params) (u : Slc) : Prop where
  cur_ge : -1 ≤ u.cur
  cur_lt : u.cur < p.screenH
  pbank : u.pbank < 2 ^ p.pbankBits
  line : u.y < p.screenH
  pos : u.p < Config.sweep
  raw : ∀ k : Fin 4, u.raw[k] &&& ~~~ laneMask k = 0#16
  acc : u.acc &&& 0xF000#16 = 0#16
  tl : Memory.wf Latches.zero p.screenH u.tl = true
  outWf : gridWf 0 p.screenH Config.sweep u.out = true
  outAll : gridAll (fun pen => decide (pen < 2 ^ (p.pbankBits + 4))) u.out = true

theorem slcInv_iff {p : Params} {u : Slc} : SlcInv p u ↔ SlcFits p u :=
  ⟨fun ⟨h1, h2, h3, h4, h5, h6, h7, h8, h9, h10⟩ => ⟨h1, h2, h3, h4, h5, h6, h7, h8, h9, h10⟩,
    fun ⟨h1, h2, h3, h4, h5, h6, h7, h8, h9, h10⟩ => ⟨h1, h2, h3, h4, h5, h6, h7, h8, h9, h10⟩⟩

/-- A layer's contribution keeps to its lane. -/
theorem rawOf_and_not_laneMask : ∀ (k : Fin 4) (px : BitVec 2), rawOf k px &&& ~~~ laneMask k = 0#16 := by
  decide

/-- No lane reaches into bits 15:12. -/
theorem laneMask_and_high : ∀ k : Fin 4, laneMask k &&& 0xF000#16 = 0#16 := by decide

/-- A word inside a mask has none of the bits the mask has not. -/
theorem and_eq_zero_of_mask {w m n : Word} (hw : w &&& ~~~ m = 0#16) (hm : m &&& n = 0#16) :
    w &&& n = 0#16 := by
  refine BitVec.eq_of_getLsbD_eq fun i _ => ?_
  rw [BitVec.getLsbD_and, BitVec.getLsbD_zero, Bool.and_eq_false_iff]
  cases hwi : w.getLsbD i with
  | false => exact .inl rfl
  | true =>
    have hmi := getLsbD_mask_of_and_not_eq_zero hw hwi
    have hmn : (m &&& n).getLsbD i = false := by rw [hm, BitVec.getLsbD_zero]
    rw [BitVec.getLsbD_and, hmi, Bool.true_and] at hmn
    exact .inr hmn

section Updates

variable {p : Params} {u : Slc}

theorem SlcFits.latchWrite (h : SlcFits p u) (idx : Fin 16) (v n : Nat) :
    SlcFits p (latchWrite p idx v n u) where
  cur_ge := by
    rw [latchWrite_cur_eq]
    exact h.cur_ge.trans (le_max_left _ _)
  cur_lt := by
    have := h.cur_lt
    rw [latchWrite_cur_eq, clampedLine]
    omega
  pbank := h.pbank
  line := h.line
  pos := h.pos
  raw := h.raw
  acc := h.acc
  tl := memory_wf_materialise h.tl (by omega)
  outWf := h.outWf
  outAll := h.outAll

theorem SlcFits.flushLines (h : SlcFits p u) {t : Int} (hge : -1 ≤ t) (hlt : t < p.screenH) :
    SlcFits p (flushLines t u) :=
  { h with
    cur_ge := hge
    cur_lt := hlt
    tl := memory_wf_materialise h.tl (by omega) }

theorem SlcFits.lineLoad (h : SlcFits p u) {y : Nat} (hy : y < p.screenH) (snap : Latches) :
    SlcFits p (lineLoad y snap u) :=
  { h with
    line := hy
    pos := show 0 < Config.sweep by decide }

theorem SlcFits.layerRaw (h : SlcFits p u) (b : Board) (k : Fin 4) : SlcFits p (layerRaw b k u) :=
  { h with
    raw := fun j => by
      have hnew : (if layerOn k u then rawOf k (bgPixel b k u.row[k] u.xc[k]) else 0) &&&
          ~~~ laneMask k = 0#16 := by
        split
        · exact rawOf_and_not_laneMask k _
        · exact BitVec.zero_and
      rw [layerRaw_raw, Fin.getElem_fin, Vector.getElem_set]
      split
      next hjk => rwa [← Fin.ext hjk]
      next => exact h.raw j }

theorem SlcFits.mixCombine (h : SlcFits p u) : SlcFits p (mixCombine u) :=
  { h with
    acc := by
      have hhigh (k : Fin 4) : u.raw[k] &&& 0xF000#16 = 0#16 :=
        and_eq_zero_of_mask (h.raw k) (laneMask_and_high k)
      refine BitVec.eq_of_getLsbD_eq fun i _ => ?_
      rw [BitVec.getLsbD_and, BitVec.getLsbD_zero, Bool.and_eq_false_iff, or_iff_not_imp_left,
        Bool.not_eq_false, mixCombine_acc_getLsbD]
      rintro ⟨k, hk⟩
      have hki : (u.raw[k] &&& 0xF000#16).getLsbD i = false := by rw [hhigh k, BitVec.getLsbD_zero]
      rwa [BitVec.getLsbD_and, hk, Bool.true_and] at hki }

theorem SlcFits.mixSelect (h : SlcFits p u) (b : Board) : SlcFits p (mixSelect b u) := { h with }

theorem SlcFits.formIndex (h : SlcFits p u) : SlcFits p (formIndex u) := { h with }

theorem SlcFits.emitPen (h : SlcFits p u) : SlcFits p (emitPen u) :=
  { h with
    outWf := gridWf_gridWrite 0 _ h.outWf h.line h.pos
    outAll := gridAll_gridWrite 0 h.outAll (by
      have hbank := h.pbank
      have hcidx := u.cidx.isLt
      rw [decide_eq_true_iff, penOf_eq, Nat.pow_add]
      omega) }

theorem SlcFits.stepTo (h : SlcFits p u) (k : Fin 4) (x : Byte) (clocked : Bool) :
    SlcFits p (stepTo k x clocked u) := { h with }

theorem SlcFits.stepLayers (h : SlcFits p u) : SlcFits p (stepLayers u) := by
  have hstep (k : Fin 4) {u : Slc} (h : SlcFits p u) : SlcFits p (stepLayer k u) := by
    rw [stepLayer_eq]
    exact h.stepTo k _ _
  exact hstep 3 (hstep 2 (hstep 1 (hstep 0 h)))

theorem SlcFits.formPixel (h : SlcFits p u) (b : Board) {x : Nat} (hx : x < Config.sweep) :
    SlcFits p (formPixel b x u) := by
  have hpos : SlcFits p { u with p := x } := { h with pos := hx }
  have hfetched := (((hpos.layerRaw b 0).layerRaw b 1).layerRaw b 2).layerRaw b 3
  exact ((hfetched.mixCombine.mixSelect b).formIndex).emitPen

theorem SlcFits.sweepLine (h : SlcFits p u) (b : Board) : SlcFits p (sweepLine b u) :=
  loop_keeps (SlcFits p) h fun _ hx _ h => (h.formPixel b hx).stepLayers

theorem SlcFits.renderedLine (h : SlcFits p u) (b : Board) {y : Nat} (hy : y < p.screenH) :
    SlcFits p (renderedLine b y u) := by
  unfold Machine.renderedLine
  exact (h.lineLoad hy _).sweepLine b

end Updates

/-! ### The operations of SLC -/

theorem flushTarget_lt (p : Params) (t : Int) : flushTarget p t < p.screenH := by
  unfold flushTarget
  split <;> omega

/-- A line that is rendered lies below the cursor, which lies in the frame. -/
theorem execLineRender_keeps_slcFits {y : Nat} {s t : State} (h : SlcFits s.cfg.params s.slc)
    (ht : execLineRender y s = .next t) : t.cfg = s.cfg ∧ SlcFits s.cfg.params t.slc := by
  by_cases hy : (y : Int) ≤ s.slc.cur
  · rw [execLineRender_of_le hy] at ht
    cases ht
    exact ⟨rfl, h.renderedLine s.cfg (by have := h.cur_lt; omega)⟩
  · rw [execLineRender_of_lt (Int.not_le.1 hy)] at ht
    cases ht

theorem execBgFrame_keeps_slcFits {s t : State} (h : SlcFits s.cfg.params s.slc)
    (ht : execBgFrame s = .next t) : SlcFits s.cfg.params t.slc := by
  refine (forEach_keeps (fun a => a.cfg = s.cfg ∧ SlcFits s.cfg.params a.slc) ?_ ⟨rfl, h⟩ ht).2
  rintro y - a a' ⟨hcfg, ha⟩ ha'
  rw [← hcfg] at ha ⊢
  exact execLineRender_keeps_slcFits ha ha'

theorem execFlush_keeps_slcFits {line : Int} {s t : State} (h : SlcFits s.cfg.params s.slc)
    (ht : execFlush line s = .next t) : SlcFits s.cfg.params t.slc := by
  obtain ⟨hle, rfl⟩ := execFlush_eq_next.1 ht
  exact h.flushLines (h.cur_ge.trans hle) (flushTarget_lt _ _)

theorem execFrameEnd_keeps_slcFits {s t : State} (h : SlcFits s.cfg.params s.slc)
    (ht : exec .frameEnd s = .next t) : SlcFits s.cfg.params t.slc := by
  cases hopen : s.slc.inframe with
  | false =>
    rw [(frameEnd s).2 hopen] at ht
    cases ht
  | true =>
    have hclosed : SlcFits s.cfg.params { s.slc with inframe := false } := { h with }
    have hge := h.cur_ge
    have hlt := h.cur_lt
    rw [exec_frameEnd hopen hlt] at ht
    exact execBgFrame_keeps_slcFits (s := onSlc (frameFlushed s.cfg.params) s)
      (hclosed.flushLines (by omega) (by omega)) ht

theorem exec_keeps_slcFits {op : Instr} {s t : State} (hop : actsOnSlc op = true)
    (h : SlcFits s.cfg.params s.slc) (ht : exec op s = .next t) : SlcFits s.cfg.params t.slc := by
  cases op with
  | bltSkip0 | bltSkipg | bltDirect | bltTmap | bltTmapc | gfxlistW | flipscrW | blitgoW | ramW
  | listRun | execCmd | cmdFetch | cmdDecode | bltFlipadj | nextcode | zblit | fbWrite | cmdMode
  | cmdOff | orgA | listA | tmapEntry =>
    cases hop
  | latchW idx v n =>
    cases ht
    exact h.latchWrite idx v n
  | pbankW v =>
    cases ht
    exact { h with pbank := Nat.mod_lt _ (Nat.two_pow_pos _) }
  | cflipW | cbankW | layerEn =>
    cases ht
    exact { h with }
  | frameStart =>
    cases hclosed : s.slc.inframe with
    | false =>
      rw [exec_frameStart hclosed] at ht
      cases ht
      have hge := h.cur_ge
      have hlt := h.cur_lt
      exact { h with
        cur_ge := le_refl (-1)
        cur_lt := by show (-1 : Int) < _; omega }
    | true =>
      rw [(frameStart s).2 hclosed] at ht
      cases ht
  | flush line => exact execFlush_keeps_slcFits h ht
  | flushAll => exact execFlush_keeps_slcFits (line := -1) h ht
  | snapshot l =>
    obtain ⟨-, rfl⟩ := next_of_ite ht nofun
    exact h
  | frameEnd => exact execFrameEnd_keeps_slcFits h ht
  | bgFrame => exact execBgFrame_keeps_slcFits h ht
  | lineInit y =>
    obtain ⟨hy, rfl⟩ := execLineInit_eq_next.1 ht
    exact h.lineLoad (by have := h.cur_lt; omega) _
  | lineRender y => exact (execLineRender_keeps_slcFits h ht).2
  | layerFetch k =>
    cases ht
    exact h.layerRaw s.cfg k
  | mixOr =>
    cases ht
    exact h.mixCombine
  | mixLookup =>
    cases ht
    exact h.mixSelect s.cfg
  | cidx =>
    cases ht
    exact h.formIndex
  | pal =>
    cases ht
    exact h.emitPen
  | stepFwd k | stepRev k =>
    cases ht
    exact h.stepTo k _ _
  | latchLayer k xoff ysel start stop n =>
    cases ht
    exact ((h.latchWrite _ _ _).latchWrite _ _ _).latchWrite _ _ _

/-! ### Every operation -/

/-- Every operation keeps the invariant, FB.WRITE of a pixel that is none apart. -/
theorem exec_keeps_inv {op : Instr} {s t : State} (hpixel : WritesPixel op) (hs : Inv s)
    (h : exec op s = .next t) : Inv t := by
  obtain ⟨hboard, hslc, htbl⟩ := hs
  cases hop : actsOnSlc op with
  | true =>
    have hfits := exec_keeps_slcFits hop (slcInv_iff.1 hslc) h
    rw [exec_slc_frame hop h]
    exact ⟨hboard, slcInv_iff.2 hfits, htbl⟩
  | false =>
    have heffect := exec_memoryEffect hop h
    rw [exec_tbl_frame hop h]
    exact ⟨hboard, hslc, heffect.tblInv hpixel htbl⟩

/-- Settles O10. -/
theorem operationsKeepInvariant : Obligations.OperationsKeepInvariant := by
  unfold Obligations.OperationsKeepInvariant
  intro op s t hs hwf h
  refine exec_keeps_inv ?_ hs h
  rintro x y v rfl
  exact extractLsb'_eq_zero_iff.1 hwf

/-- No event is an FB.WRITE. -/
theorem writesPixel_decodeEvent (e : Event) : WritesPixel (decodeEvent e) := by
  intro x y v h
  cases e with
  | write port => cases port <;> cases h
  | frameStart | flush | snapshot | frameEnd => cases h

/-- Settles O11: no event pending, or one operation. -/
theorem stepKeepsInvariant : Obligations.StepKeepsInvariant := by
  unfold Obligations.StepKeepsInvariant
  intro s t hs h
  obtain ⟨-, ⟨-, rfl⟩ | ⟨e, rest, -, hexec⟩⟩ := step_eq_next.1 h
  · exact hs
  · exact exec_keeps_inv (s := takeEvent s) (writesPixel_decodeEvent e) hs hexec

/-! ### What a step can answer (R240, R242) -/

/-- The last visible line lies in the frame (R261). -/
theorem visYMax_lt_of_boardWf {b : Board} (h : boardWf b = true) : b.params.visYMax < b.params.screenH := by
  simp only [boardWf, Params.wf, Bool.and_eq_true, decide_eq_true_iff] at h
  omega

/-- A well-formed event answers a next state or one of the spec's refusals. -/
theorem isSafe_exec_decodeEvent {e : Event} {s : State} (hs : Inv s)
    (hwf : (decodeEvent e).wellFormed s.cfg.params = true) : isSafe (exec (decodeEvent e) s) = true := by
  obtain ⟨hboard, hslc, -⟩ := hs
  have hfits := slcInv_iff.1 hslc
  have hcur := hfits.cur_lt
  cases e with
  | write port o d n =>
    obtain ⟨t, ht, -⟩ := exec_portWrite (e := .write port o d n) rfl hwf (by omega)
    rw [ht]
    rfl
  | frameStart =>
    show isSafe (execFrameStart s) = true
    unfold execFrameStart
    split <;> rfl
  | flush t =>
    show isSafe (execFlush t s) = true
    unfold execFlush
    split <;> rfl
  | snapshot l =>
    show isSafe (execSnapshot l s) = true
    unfold execSnapshot
    split <;> rfl
  | frameEnd =>
    show isSafe (exec .frameEnd s) = true
    cases hopen : s.slc.inframe with
    | false =>
      rw [(frameEnd s).2 hopen]
      rfl
    | true =>
      obtain ⟨t, ht, -⟩ := (frameEnd s).1 hopen hcur (visYMax_lt_of_boardWf hboard)
      rw [ht]
      rfl

/-- Settles O12. -/
theorem stepNeverFaults : Obligations.StepNeverFaults := by
  unfold Obligations.StepNeverFaults
  intro s hs hwf
  obtain ⟨hboard, hslc, -⟩ := id hs
  refine ⟨?_, fun port o d n rest htrace => ?_⟩
  · cases htrace : s.trace with
    | nil =>
      rw [step_eq_next.2 ⟨hboard, .inl ⟨htrace, rfl⟩⟩]
      rfl
    | cons e rest =>
      rw [step_cons hboard htrace]
      exact isSafe_exec_decodeEvent (s := takeEvent s) hs (hwf e (by rw [htrace]; rfl))
  · have hcur := (slcInv_iff.1 hslc).cur_lt
    obtain ⟨t, ht, -⟩ := exec_portWrite (e := .write port o d n) (s := takeEvent s) rfl
      (hwf _ (by rw [htrace]; rfl)) (Int.le_sub_one_of_lt hcur)
    exact ⟨t, (step_cons hboard htrace).trans ht⟩

end Sys2Proof.Machine
